-- ==== Sys2Proof/Word.lean ====
section
/-! DEFINITION. The word types of the machine: 32-bit words, bytes, register indices, 2-bit counters.
Spec: `00_scope.md` R6, R9; `10_state.md` R20, R23, R39. -/

namespace Sys2Proof

/-- A 32-bit vector: a register, the `pc`, an address, an instruction word, a reconstructed immediate (R6, R9). -/
abbrev Word := BitVec 32

/-- The smallest addressable unit of memory, 8 bits (R50). -/
abbrev Byte := BitVec 8

/-- A register index, "each in [0,31]" (R20, R82). -/
abbrev Reg := Fin 32

/-- A 2-bit saturating counter, "range 0–3" (R39). -/
abbrev Ctr := Fin 4

/-- `zero`, the zero register `x0` (R23). -/
abbrev regZero : Reg := 0

/-- `a0`, register `x10`: ECALL's argument and result (R23, R251). -/
abbrev regA0 : Reg := 10

/-- `a7`, register `x17`: ECALL's service number (R23, R251). -/
abbrev regA7 : Reg := 17

end Sys2Proof
end

