-- ==== Sys2Proof/Config.lean ====
section
/-! DEFINITION. The parameters of a run (`00_scope.md` R7), their well-formedness, the defaults a run starts from
(`92_eei_decisions.md` D3 to D9), and the free values: constants without a body for what the spec leaves open. -/

namespace Sys2Proof

/-- The byte addresses `base` to `base + size - 1`, all served by the memory collaborator. -/
structure Region where
  base : Nat
  size : Nat
deriving DecidableEq, Repr

/-- Memory contents: (address, byte) pairs in canonical form (`Machine.Memory.wf`). -/
abbrev Memory := List Host.Cell

/-- What the character-input collaborator does once every character of `INPUT` has been consumed (R132, R252; U15). -/
inductive InputTail where
  /-- it answers end of input, for ever (D8) -/
  | endOfInput
  /-- it never answers; the call blocks -/
  | silent
deriving DecidableEq, Repr

/-- The open parameters of R7, supplied by the host before the first step (R380, R384). -/
structure Params where
  /-- `BIMODAL_SIZES` -/
  bimodalSizes : List Nat
  /-- `GSHARE_SIZES` -/
  gshareSizes : List Nat
  /-- `CTR_INIT` -/
  ctrInit : Ctr
  /-- `ENTRY_PC` -/
  entryPc : Word
  /-- `INIT_X`; entry 0 is not looked at, since `x[0] = 0` always (R44) -/
  initX : Vector Word 32
  /-- `MAPPED`, as the union of regions -/
  mapped : List Region
  /-- `INIT_MEM` -/
  initMem : Memory
  /-- `INPUT`, the characters the collaborator delivers -/
  input : List Byte
  /-- what follows them -/
  inputTail : InputTail
  /-- `EOF_VALUE` -/
  eofValue : Word
deriving DecidableEq, Repr

namespace Config

/-- The default of D3 for both kinds of table. DESIGN CHOICE, log 6 (unsafe for a claim about reset only). -/
def tableSizes : List Nat := [256, 1024, 4096, 16384]

/-- The default of D4. DESIGN CHOICE, log 7 (unsafe for a claim about reset only). -/
def ctrInit : Ctr := 1

/-- The spec gives `ENTRY_PC` no default; its examples use this value. DESIGN CHOICE, log 2 (unsafe for a claim about reset only). -/
def entryPc : Word := 0x00001000#32

/-- The default of D6. DESIGN CHOICE, log 3 (unsafe for a claim about reset only). -/
def initX : Vector Word 32 := Vector.replicate 32 0#32

/-- All 2^32 addresses, as R54 allows. DESIGN CHOICE, log 4 (unsafe for a claim about reset only). -/
def mapped : List Region := [⟨0, 2 ^ 32⟩]

/-- What a byte of memory that no entry lists reads as. DESIGN CHOICE, log 5 (unsafe for a claim about reset only). -/
def unlistedByte : Byte := 0#8

/-- The default of D9. DESIGN CHOICE, log 8 (unsafe for a claim about reset only). -/
def eofValue : Word := 0xFFFFFFFF#32

/-- End of input follows the characters, as D8 says of `INPUT`. DESIGN CHOICE, log 8 (unsafe for a claim about reset only). -/
def inputTail : InputTail := .endOfInput

/-- The parameters of `State.reset`. -/
def defaults : Params where
  bimodalSizes := tableSizes
  gshareSizes := tableSizes
  ctrInit := ctrInit
  entryPc := entryPc
  initX := initX
  mapped := mapped
  initMem := []
  input := []
  inputTail := inputTail
  eofValue := eofValue

/-! Free values. Nothing in Lean can evaluate them, so a claim that mentions one holds for every value of it. -/

/-- The counter of the first trace record, 0 or 1: "not given by the source" (R366, N14). Log 14. -/
opaque traceFirstCount : Fin 2

/-- Whether a trace record shows a stored value truncated to the access width: "not stated" (R209, N14). Log 14. -/
opaque traceStoreTruncated : Bool

/-- The characters of the unknown-instruction marker: "not given" (R316, N16). Log 15. -/
opaque unknownMarker : String

/-- What stands before the digits of a target address: "not stated" (R306, N15). Log 15. -/
opaque hexPrefix : String

/-- The least number of digits of a target address, shorter ones filled with zeros: "not stated" (R306, N15). Log 15. -/
opaque hexMinDigits : Nat

/-- Whether the letters of a target address are capitals: not given (N15). Log 15. -/
opaque hexUpper : Bool

end Config

end Sys2Proof
end

