-- ==== Sys2Proof/Machine/State.lean ====
section
/-! DEFINITION. The state of the machine (`10_state.md` R20 to R48), the reasons a step can stop, and the state after reset. -/

namespace Sys2Proof.Machine

/-- One counter table of a bimodal or gshare scheme, with that scheme's misprediction counter (R35, R39). -/
structure Table where
  /-- the number `n` of counters, a power of two (R271) -/
  size : Nat
  /-- the counters that differ from `CTR_INIT`, by index, in canonical form; an unlisted index holds `CTR_INIT` -/
  cells : List (Nat × Ctr)
  /-- `err_bimodal[n]` or `err_gshare[n]` -/
  err : Nat
deriving DecidableEq, Repr

/-- The branch predictor bank (R34, R35, R39 to R41, R270). -/
structure Bank where
  /-- `n_ctl`, control transfers observed (R34) -/
  nCtl : Nat
  /-- `err_nt` (R35) -/
  errNt : Nat
  /-- `err_btfnt` (R35) -/
  errBtfnt : Nat
  /-- one table per element of `BIMODAL_SIZES` -/
  bimodal : List Table
  /-- one table per element of `GSHARE_SIZES` -/
  gshare : List Table
  /-- the global history register, shared by all gshare tables (R40) -/
  ghr : BitVec 16
  /-- the parameter `CTR_INIT`; no step changes it (R46) -/
  ctrInit : Ctr
deriving DecidableEq, Repr

/-- `run_state` (R37). -/
inductive RunState where
  | running
  | halted
deriving DecidableEq, Repr

/-- Everything the spec gives the machine (R48), with the parameters of a run that the machine consults (R7). -/
structure State where
  /-- the register file `x[0]` to `x[31]` (R20) -/
  x : Vector Word 32
  /-- the program counter (R25) -/
  pc : Word
  /-- `n_insn`, instructions executed (R33) -/
  nInsn : Nat
  /-- `n_unknown`, unknown encodings executed (R36) -/
  nUnknown : Nat
  /-- `run_state` (R37) -/
  runState : RunState
  /-- the branch predictor bank (R39 to R41) -/
  bank : Bank
  /-- the parameter `MAPPED`: the addresses the memory collaborator serves; no step changes it (R54) -/
  mapped : List Region
  /-- the memory bytes (R42), keyed by address; an unlisted address reads as `Config.unlistedByte` -/
  mem : Memory
  /-- the parameter `INPUT`: all characters the collaborator delivers in the run; no step changes it (R252) -/
  input : List Byte
  /-- what the collaborator does after them, end of input or no answer; no step changes it (R132, R252, U15) -/
  inputTail : InputTail
  /-- the input position: how many characters have been consumed (R256) -/
  inputPos : Nat
  /-- the parameter `EOF_VALUE`; no step changes it (R252) -/
  eofValue : Word
  /-- the output sequence, oldest byte first (R256) -/
  output : List Byte
deriving DecidableEq, Repr

/-- The three model-level faults (`60_exceptions.md` R341). A faulting step leaves the state as it was (R130). -/
inductive Fault where
  /-- raised by the fetch of any step when `pc[1:0]` is not 0 (R56); carries the `pc`. Safe: the spec's stop, where the original went on in a way the source does not define (D14). -/
  | fetchMisaligned (pc : Word)
  /-- raised by LH, LHU, SH at an odd address and LW, SW at an address not a multiple of 4 (R55); carries the address. Safe (D13). -/
  | dataMisaligned (ea : Word)
  /-- raised by the fetch, a load or a store when a byte of the access is outside `MAPPED` (R54); carries the access's address. Safe (D15). -/
  | unmapped (addr : Word)
deriving DecidableEq, Repr

/-- Why no step is taken, other than a fault. -/
inductive Refusal where
  /-- raised by `exec` for an instruction that has no meaning in the model; no arm of `exec` answers it. Safe. -/
  | notModelled (mnemonic : String)
  /-- raised by `step` when the core is halted: "In `halted` the core has no step" (R120). Safe: the spec gives no step here. -/
  | coreHalted
  /-- raised by ECALL service 1 when the character-input collaborator never answers: the core is "stuck" in that step "with no state
  changed" (U15; R132). Safe: no step completes here. -/
  | awaitingInput
deriving DecidableEq, Repr

/-- A table of the start state: `n` counters at `CTR_INIT`, no error counted (R45, R46). -/
def Table.boot (n : Nat) : Table where
  size := n
  cells := []
  err := 0

/-- The bank of the start state (R45, R46, R284). -/
def Bank.boot (p : Params) : Bank where
  nCtl := 0
  errNt := 0
  errBtfnt := 0
  bimodal := p.bimodalSizes.map Table.boot
  gshare := p.gshareSizes.map Table.boot
  ghr := 0#16
  ctrInit := p.ctrInit

/-- The start state of a run: the "reset value" column of R48 for given parameters (R380). -/
def State.boot (p : Params) : State where
  x := p.initX.set 0 0#32
  pc := p.entryPc
  nInsn := 0
  nUnknown := 0
  runState := .running
  bank := Bank.boot p
  mapped := p.mapped
  mem := p.initMem
  input := p.input
  inputTail := p.inputTail
  inputPos := 0
  eofValue := p.eofValue
  output := []

/-- The state after reset: `boot` of the default parameters (log 2 to 8). -/
def State.reset : State := State.boot Config.defaults

end Sys2Proof.Machine
end

