-- ==== Sys2Proof/Syntax.lean ====
section
/-! DEFINITION. The instructions, one constructor per row of `spec/opcode_table.json`; the instruction-kind enumeration of R101; the names
under which the decoder rejects a word.

An immediate field holds the 32-bit value the extractor delivers (`30_encoding.md` R84 to R88, R92), so that the instruction rules read as
the spec writes them; which 32-bit values a format can carry is `WellFormed`. -/

namespace Sys2Proof

/-- The 46 instructions of R102. -/
inductive Instr where
  | lui (rd : Reg) (imm : Word)
  | auipc (rd : Reg) (imm : Word)
  | jal (rd : Reg) (imm : Word)
  | jalr (rd rs1 : Reg) (imm : Word)
  | beq (rs1 rs2 : Reg) (imm : Word)
  | bne (rs1 rs2 : Reg) (imm : Word)
  | blt (rs1 rs2 : Reg) (imm : Word)
  | bge (rs1 rs2 : Reg) (imm : Word)
  | bltu (rs1 rs2 : Reg) (imm : Word)
  | bgeu (rs1 rs2 : Reg) (imm : Word)
  | lb (rd rs1 : Reg) (imm : Word)
  | lh (rd rs1 : Reg) (imm : Word)
  | lw (rd rs1 : Reg) (imm : Word)
  | lbu (rd rs1 : Reg) (imm : Word)
  | lhu (rd rs1 : Reg) (imm : Word)
  | sb (rs1 rs2 : Reg) (imm : Word)
  | sh (rs1 rs2 : Reg) (imm : Word)
  | sw (rs1 rs2 : Reg) (imm : Word)
  | addi (rd rs1 : Reg) (imm : Word)
  | slti (rd rs1 : Reg) (imm : Word)
  | sltiu (rd rs1 : Reg) (imm : Word)
  | xori (rd rs1 : Reg) (imm : Word)
  | ori (rd rs1 : Reg) (imm : Word)
  | andi (rd rs1 : Reg) (imm : Word)
  | slli (rd rs1 : Reg) (shamt : BitVec 5)
  | srli (rd rs1 : Reg) (shamt : BitVec 5)
  | srai (rd rs1 : Reg) (shamt : BitVec 5)
  | add (rd rs1 rs2 : Reg)
  | sub (rd rs1 rs2 : Reg)
  | sll (rd rs1 rs2 : Reg)
  | slt (rd rs1 rs2 : Reg)
  | sltu (rd rs1 rs2 : Reg)
  | xor (rd rs1 rs2 : Reg)
  | srl (rd rs1 rs2 : Reg)
  | sra (rd rs1 rs2 : Reg)
  | or (rd rs1 rs2 : Reg)
  | and (rd rs1 rs2 : Reg)
  | mul (rd rs1 rs2 : Reg)
  | mulh (rd rs1 rs2 : Reg)
  | mulhsu (rd rs1 rs2 : Reg)
  | mulhu (rd rs1 rs2 : Reg)
  | div (rd rs1 rs2 : Reg)
  | divu (rd rs1 rs2 : Reg)
  | rem (rd rs1 rs2 : Reg)
  | remu (rd rs1 rs2 : Reg)
  | ecall
deriving DecidableEq, Repr

/-- "An explicit instruction-kind enumeration": the 46 mnemonics and `UNKNOWN` (R101). -/
inductive Kind where
  | lui | auipc | jal | jalr
  | beq | bne | blt | bge | bltu | bgeu
  | lb | lh | lw | lbu | lhu | sb | sh | sw
  | addi | slti | sltiu | xori | ori | andi | slli | srli | srai
  | add | sub | sll | slt | sltu | xor | srl | sra | or | and
  | mul | mulh | mulhsu | mulhu | div | divu | rem | remu
  | ecall
  | unknown
deriving DecidableEq, Repr

/-- The kind of an instruction. -/
def Instr.kind : Instr → Kind
  | .lui .. => .lui | .auipc .. => .auipc | .jal .. => .jal | .jalr .. => .jalr
  | .beq .. => .beq | .bne .. => .bne | .blt .. => .blt | .bge .. => .bge | .bltu .. => .bltu | .bgeu .. => .bgeu
  | .lb .. => .lb | .lh .. => .lh | .lw .. => .lw | .lbu .. => .lbu | .lhu .. => .lhu
  | .sb .. => .sb | .sh .. => .sh | .sw .. => .sw
  | .addi .. => .addi | .slti .. => .slti | .sltiu .. => .sltiu | .xori .. => .xori | .ori .. => .ori | .andi .. => .andi
  | .slli .. => .slli | .srli .. => .srli | .srai .. => .srai
  | .add .. => .add | .sub .. => .sub | .sll .. => .sll | .slt .. => .slt | .sltu .. => .sltu | .xor .. => .xor
  | .srl .. => .srl | .sra .. => .sra | .or .. => .or | .and .. => .and
  | .mul .. => .mul | .mulh .. => .mulh | .mulhsu .. => .mulhsu | .mulhu .. => .mulhu
  | .div .. => .div | .divu .. => .divu | .rem .. => .rem | .remu .. => .remu
  | .ecall => .ecall

/-- Why the decoder gives no instruction: the classes (a) to (h) of R104, and a byte string too short to hold a word. A rejected word is
no stop of the machine: the step runs it as the counted no-op of R129. -/
inductive Reject where
  /-- (a) the opcode is none of the ten of R100 -/
  | noSuchOpcode
  /-- (b) opcode JALR with `funct3` not 000 -/
  | jalrFunct3
  /-- (c) opcode BRANCH with `funct3` 010 or 011 -/
  | branchFunct3
  /-- (d) opcode LOAD with `funct3` 011, 110 or 111 -/
  | loadFunct3
  /-- (e) opcode STORE with `funct3` 011 to 111 -/
  | storeFunct3
  /-- (f) opcode OP-IMM, a shift with a `funct7` that is not its own -/
  | opImmFunct7
  /-- (g) opcode OP with a `funct7`, `funct3` pair that is no instruction's -/
  | opFunct7
  /-- (h) opcode SYSTEM with a word other than ECALL's -/
  | systemWord
  /-- fewer than four bytes were given to the decoder; the fetch never does this -/
  | truncated
deriving DecidableEq, Repr

end Sys2Proof
end

