-- ==== Sys2Proof/WellFormed.lean ====
section
/-! DEFINITION. Which instructions the encoding can carry: the immediate of each format lies in its range.
Spec: `30_encoding.md` R84 to R88. Register indices and shift amounts are well formed by their types. -/

namespace Sys2Proof

/-- R84, R85: an I- or S-immediate is in -2048..2047. -/
def fitsI (v : Word) : Bool := decide (-2048 ≤ v.toInt) && decide (v.toInt ≤ 2047)

/-- R86: a B-immediate is even and in -4096..4094. -/
def fitsB (v : Word) : Bool := decide (v.toNat % 2 = 0) && decide (-4096 ≤ v.toInt) && decide (v.toInt ≤ 4094)

/-- R87: the low 12 bits of a U-immediate are 0. -/
def fitsU (v : Word) : Bool := decide (v.toNat % 4096 = 0)

/-- R88: a J-immediate is even and in -1048576..1048574. -/
def fitsJ (v : Word) : Bool := decide (v.toNat % 2 = 0) && decide (-1048576 ≤ v.toInt) && decide (v.toInt ≤ 1048574)

/-- The instruction has an encoding. -/
def Instr.wf : Instr → Bool
  | .lui _ imm | .auipc _ imm => fitsU imm
  | .jal _ imm => fitsJ imm
  | .jalr _ _ imm => fitsI imm
  | .beq _ _ imm | .bne _ _ imm | .blt _ _ imm | .bge _ _ imm | .bltu _ _ imm | .bgeu _ _ imm => fitsB imm
  | .lb _ _ imm | .lh _ _ imm | .lw _ _ imm | .lbu _ _ imm | .lhu _ _ imm => fitsI imm
  | .sb _ _ imm | .sh _ _ imm | .sw _ _ imm => fitsI imm
  | .addi _ _ imm | .slti _ _ imm | .sltiu _ _ imm | .xori _ _ imm | .ori _ _ imm | .andi _ _ imm => fitsI imm
  | .slli .. | .srli .. | .srai .. => true
  | .add .. | .sub .. | .sll .. | .slt .. | .sltu .. | .xor .. | .srl .. | .sra .. | .or .. | .and .. => true
  | .mul .. | .mulh .. | .mulhsu .. | .mulhu .. | .div .. | .divu .. | .rem .. | .remu .. => true
  | .ecall => true

end Sys2Proof
end

