-- ==== Sys2Proof/Decode.lean ====
section
/-! DEFINITION. The bit-field extractor, the decoder, the decode table of R102 as data, and the encoder.
Spec: `30_encoding.md` R80 to R106. `w.extractLsb' lo n` is the spec's slice `w[lo+n-1 : lo]` (R8). -/

namespace Sys2Proof

/-! ### The extractor (R81, R92): eleven outputs, each defined for every word -/

/-- `w[6:0]` (R82). -/
def opcodeOf (w : Word) : BitVec 7 := w.extractLsb' 0 7

/-- `w[11:7]` (R82). -/
def rdOf (w : Word) : Reg := (w.extractLsb' 7 5).toFin

/-- `w[14:12]` (R82). -/
def funct3Of (w : Word) : BitVec 3 := w.extractLsb' 12 3

/-- `w[19:15]` (R82). -/
def rs1Of (w : Word) : Reg := (w.extractLsb' 15 5).toFin

/-- `w[24:20]` (R82). -/
def rs2Of (w : Word) : Reg := (w.extractLsb' 20 5).toFin

/-- `w[31:25]` (R82). -/
def funct7Of (w : Word) : BitVec 7 := w.extractLsb' 25 7

/-- The shift amount `w[24:20]` (R89). -/
def shamtOf (w : Word) : BitVec 5 := w.extractLsb' 20 5

/-- `sext_12(w[31:20])` (R84). -/
def immI (w : Word) : Word := (w.extractLsb' 20 12).signExtend 32

/-- `sext_12({w[31:25], w[11:7]})` (R85). -/
def immS (w : Word) : Word := (w.extractLsb' 25 7 ++ w.extractLsb' 7 5).signExtend 32

/-- `sext_13({w[31], w[7], w[30:25], w[11:8], 1'b0})` (R86). -/
def immB (w : Word) : Word :=
  (w.extractLsb' 31 1 ++ w.extractLsb' 7 1 ++ w.extractLsb' 25 6 ++ w.extractLsb' 8 4 ++ 0#1).signExtend 32

/-- `{w[31:12], 12'b0}` (R87). -/
def immU (w : Word) : Word := w.extractLsb' 12 20 ++ 0#12

/-- `sext_21({w[31], w[19:12], w[20], w[30:21], 1'b0})` (R88). -/
def immJ (w : Word) : Word :=
  (w.extractLsb' 31 1 ++ w.extractLsb' 12 8 ++ w.extractLsb' 20 1 ++ w.extractLsb' 21 10 ++ 0#1).signExtend 32

/-! ### The kind of a word (R100, R101): by opcode, then `funct3`, then `funct7` -/

/-- Opcode BRANCH. -/
def branchKind (f3 : BitVec 3) : Kind :=
  match f3.toNat with
  | 0 => .beq | 1 => .bne | 4 => .blt | 5 => .bge | 6 => .bltu | 7 => .bgeu | _ => .unknown

/-- Opcode LOAD. -/
def loadKind (f3 : BitVec 3) : Kind :=
  match f3.toNat with
  | 0 => .lb | 1 => .lh | 2 => .lw | 4 => .lbu | 5 => .lhu | _ => .unknown

/-- Opcode STORE. -/
def storeKind (f3 : BitVec 3) : Kind :=
  match f3.toNat with
  | 0 => .sb | 1 => .sh | 2 => .sw | _ => .unknown

/-- Opcode OP-IMM: the shifts check `funct7` too (R89, R103). -/
def opImmKind (f7 : BitVec 7) (f3 : BitVec 3) : Kind :=
  match f3.toNat with
  | 0 => .addi | 2 => .slti | 3 => .sltiu | 4 => .xori | 6 => .ori | 7 => .andi
  | 1 => if f7 = 0b0000000#7 then .slli else .unknown
  | _ => if f7 = 0b0000000#7 then .srli else if f7 = 0b0100000#7 then .srai else .unknown

/-- Opcode OP with `funct7 = 0000000`. -/
def opKindBase (f3 : BitVec 3) : Kind :=
  match f3.toNat with
  | 0 => .add | 1 => .sll | 2 => .slt | 3 => .sltu | 4 => .xor | 5 => .srl | 6 => .or | _ => .and

/-- Opcode OP with `funct7 = 0100000`. -/
def opKindAlt (f3 : BitVec 3) : Kind :=
  match f3.toNat with
  | 0 => .sub | 5 => .sra | _ => .unknown

/-- Opcode OP with `funct7 = 0000001`. -/
def opKindMulDiv (f3 : BitVec 3) : Kind :=
  match f3.toNat with
  | 0 => .mul | 1 => .mulh | 2 => .mulhsu | 3 => .mulhu | 4 => .div | 5 => .divu | 6 => .rem | _ => .remu

/-- Opcode OP. -/
def opKind (f7 : BitVec 7) (f3 : BitVec 3) : Kind :=
  if f7 = 0b0000000#7 then opKindBase f3
  else if f7 = 0b0100000#7 then opKindAlt f3
  else if f7 = 0b0000001#7 then opKindMulDiv f3
  else .unknown

/-- The instruction kind of a word: total, `UNKNOWN` where no row matches (R101, R104). -/
def kindOf (w : Word) : Kind :=
  if opcodeOf w = 0b0110111#7 then .lui
  else if opcodeOf w = 0b0010111#7 then .auipc
  else if opcodeOf w = 0b1101111#7 then .jal
  else if opcodeOf w = 0b1100111#7 then (if funct3Of w = 0b000#3 then .jalr else .unknown)
  else if opcodeOf w = 0b1100011#7 then branchKind (funct3Of w)
  else if opcodeOf w = 0b0000011#7 then loadKind (funct3Of w)
  else if opcodeOf w = 0b0100011#7 then storeKind (funct3Of w)
  else if opcodeOf w = 0b0010011#7 then opImmKind (funct7Of w) (funct3Of w)
  else if opcodeOf w = 0b0110011#7 then opKind (funct7Of w) (funct3Of w)
  else if w = 0x00000073#32 then .ecall
  else .unknown

/-- The class of R104 that a word of kind `UNKNOWN` belongs to, told by its opcode. -/
def rejectOf (w : Word) : Reject :=
  if opcodeOf w = 0b1100111#7 then .jalrFunct3
  else if opcodeOf w = 0b1100011#7 then .branchFunct3
  else if opcodeOf w = 0b0000011#7 then .loadFunct3
  else if opcodeOf w = 0b0100011#7 then .storeFunct3
  else if opcodeOf w = 0b0010011#7 then .opImmFunct7
  else if opcodeOf w = 0b0110011#7 then .opFunct7
  else if opcodeOf w = 0b1110011#7 then .systemWord
  else .noSuchOpcode

/-- The decoder: a function of the word alone (R81, R101). -/
def decode (w : Word) : Except Reject Instr :=
  match kindOf w with
  | .lui => .ok (.lui (rdOf w) (immU w))
  | .auipc => .ok (.auipc (rdOf w) (immU w))
  | .jal => .ok (.jal (rdOf w) (immJ w))
  | .jalr => .ok (.jalr (rdOf w) (rs1Of w) (immI w))
  | .beq => .ok (.beq (rs1Of w) (rs2Of w) (immB w))
  | .bne => .ok (.bne (rs1Of w) (rs2Of w) (immB w))
  | .blt => .ok (.blt (rs1Of w) (rs2Of w) (immB w))
  | .bge => .ok (.bge (rs1Of w) (rs2Of w) (immB w))
  | .bltu => .ok (.bltu (rs1Of w) (rs2Of w) (immB w))
  | .bgeu => .ok (.bgeu (rs1Of w) (rs2Of w) (immB w))
  | .lb => .ok (.lb (rdOf w) (rs1Of w) (immI w))
  | .lh => .ok (.lh (rdOf w) (rs1Of w) (immI w))
  | .lw => .ok (.lw (rdOf w) (rs1Of w) (immI w))
  | .lbu => .ok (.lbu (rdOf w) (rs1Of w) (immI w))
  | .lhu => .ok (.lhu (rdOf w) (rs1Of w) (immI w))
  | .sb => .ok (.sb (rs1Of w) (rs2Of w) (immS w))
  | .sh => .ok (.sh (rs1Of w) (rs2Of w) (immS w))
  | .sw => .ok (.sw (rs1Of w) (rs2Of w) (immS w))
  | .addi => .ok (.addi (rdOf w) (rs1Of w) (immI w))
  | .slti => .ok (.slti (rdOf w) (rs1Of w) (immI w))
  | .sltiu => .ok (.sltiu (rdOf w) (rs1Of w) (immI w))
  | .xori => .ok (.xori (rdOf w) (rs1Of w) (immI w))
  | .ori => .ok (.ori (rdOf w) (rs1Of w) (immI w))
  | .andi => .ok (.andi (rdOf w) (rs1Of w) (immI w))
  | .slli => .ok (.slli (rdOf w) (rs1Of w) (shamtOf w))
  | .srli => .ok (.srli (rdOf w) (rs1Of w) (shamtOf w))
  | .srai => .ok (.srai (rdOf w) (rs1Of w) (shamtOf w))
  | .add => .ok (.add (rdOf w) (rs1Of w) (rs2Of w))
  | .sub => .ok (.sub (rdOf w) (rs1Of w) (rs2Of w))
  | .sll => .ok (.sll (rdOf w) (rs1Of w) (rs2Of w))
  | .slt => .ok (.slt (rdOf w) (rs1Of w) (rs2Of w))
  | .sltu => .ok (.sltu (rdOf w) (rs1Of w) (rs2Of w))
  | .xor => .ok (.xor (rdOf w) (rs1Of w) (rs2Of w))
  | .srl => .ok (.srl (rdOf w) (rs1Of w) (rs2Of w))
  | .sra => .ok (.sra (rdOf w) (rs1Of w) (rs2Of w))
  | .or => .ok (.or (rdOf w) (rs1Of w) (rs2Of w))
  | .and => .ok (.and (rdOf w) (rs1Of w) (rs2Of w))
  | .mul => .ok (.mul (rdOf w) (rs1Of w) (rs2Of w))
  | .mulh => .ok (.mulh (rdOf w) (rs1Of w) (rs2Of w))
  | .mulhsu => .ok (.mulhsu (rdOf w) (rs1Of w) (rs2Of w))
  | .mulhu => .ok (.mulhu (rdOf w) (rs1Of w) (rs2Of w))
  | .div => .ok (.div (rdOf w) (rs1Of w) (rs2Of w))
  | .divu => .ok (.divu (rdOf w) (rs1Of w) (rs2Of w))
  | .rem => .ok (.rem (rdOf w) (rs1Of w) (rs2Of w))
  | .remu => .ok (.remu (rdOf w) (rs1Of w) (rs2Of w))
  | .ecall => .ok .ecall
  | .unknown => .error (rejectOf w)

/-- Four bytes, lowest address first, as a little-endian word (R51, R56). -/
def wordOfBytes (b0 b1 b2 b3 : Byte) : Word := b3 ++ b2 ++ b1 ++ b0

/-- The decoder on a byte string: one instruction and the rest (R80: every instruction is four bytes). -/
def decodeBytes : List Byte → Except Reject (Instr × List Byte)
  | b0 :: b1 :: b2 :: b3 :: rest =>
    match decode (wordOfBytes b0 b1 b2 b3) with
    | .ok i => .ok (i, rest)
    | .error e => .error e
  | _ => .error .truncated

/-! ### The decode table as data (R102, R103) -/

/-- A row of the table: a word is of this kind when `w & mask = bits`. -/
structure Row where
  kind : Kind
  bits : Word
  mask : Word
deriving DecidableEq, Repr

/-- `w & mask = match` (R102). -/
def Row.matches (r : Row) (w : Word) : Bool := w &&& r.mask == r.bits

/-- Rows that check the opcode alone. -/
def rowsOpcode : List Row :=
  [⟨.lui, 0x00000037#32, 0x0000007F#32⟩, ⟨.auipc, 0x00000017#32, 0x0000007F#32⟩, ⟨.jal, 0x0000006F#32, 0x0000007F#32⟩]

/-- Rows that check opcode and `funct3`: JALR, branches, loads, stores. -/
def rowsFunct3 : List Row :=
  [⟨.jalr, 0x00000067#32, 0x0000707F#32⟩,
   ⟨.beq, 0x00000063#32, 0x0000707F#32⟩, ⟨.bne, 0x00001063#32, 0x0000707F#32⟩, ⟨.blt, 0x00004063#32, 0x0000707F#32⟩,
   ⟨.bge, 0x00005063#32, 0x0000707F#32⟩, ⟨.bltu, 0x00006063#32, 0x0000707F#32⟩, ⟨.bgeu, 0x00007063#32, 0x0000707F#32⟩,
   ⟨.lb, 0x00000003#32, 0x0000707F#32⟩, ⟨.lh, 0x00001003#32, 0x0000707F#32⟩, ⟨.lw, 0x00002003#32, 0x0000707F#32⟩,
   ⟨.lbu, 0x00004003#32, 0x0000707F#32⟩, ⟨.lhu, 0x00005003#32, 0x0000707F#32⟩,
   ⟨.sb, 0x00000023#32, 0x0000707F#32⟩, ⟨.sh, 0x00001023#32, 0x0000707F#32⟩, ⟨.sw, 0x00002023#32, 0x0000707F#32⟩]

/-- Rows of opcode OP-IMM. -/
def rowsOpImm : List Row :=
  [⟨.addi, 0x00000013#32, 0x0000707F#32⟩, ⟨.slti, 0x00002013#32, 0x0000707F#32⟩, ⟨.sltiu, 0x00003013#32, 0x0000707F#32⟩,
   ⟨.xori, 0x00004013#32, 0x0000707F#32⟩, ⟨.ori, 0x00006013#32, 0x0000707F#32⟩, ⟨.andi, 0x00007013#32, 0x0000707F#32⟩,
   ⟨.slli, 0x00001013#32, 0xFE00707F#32⟩, ⟨.srli, 0x00005013#32, 0xFE00707F#32⟩, ⟨.srai, 0x40005013#32, 0xFE00707F#32⟩]

/-- Rows of opcode OP, base set. -/
def rowsOp : List Row :=
  [⟨.add, 0x00000033#32, 0xFE00707F#32⟩, ⟨.sub, 0x40000033#32, 0xFE00707F#32⟩, ⟨.sll, 0x00001033#32, 0xFE00707F#32⟩,
   ⟨.slt, 0x00002033#32, 0xFE00707F#32⟩, ⟨.sltu, 0x00003033#32, 0xFE00707F#32⟩, ⟨.xor, 0x00004033#32, 0xFE00707F#32⟩,
   ⟨.srl, 0x00005033#32, 0xFE00707F#32⟩, ⟨.sra, 0x40005033#32, 0xFE00707F#32⟩, ⟨.or, 0x00006033#32, 0xFE00707F#32⟩,
   ⟨.and, 0x00007033#32, 0xFE00707F#32⟩]

/-- Rows of opcode OP, multiply and divide. -/
def rowsMulDiv : List Row :=
  [⟨.mul, 0x02000033#32, 0xFE00707F#32⟩, ⟨.mulh, 0x02001033#32, 0xFE00707F#32⟩, ⟨.mulhsu, 0x02002033#32, 0xFE00707F#32⟩,
   ⟨.mulhu, 0x02003033#32, 0xFE00707F#32⟩, ⟨.div, 0x02004033#32, 0xFE00707F#32⟩, ⟨.divu, 0x02005033#32, 0xFE00707F#32⟩,
   ⟨.rem, 0x02006033#32, 0xFE00707F#32⟩, ⟨.remu, 0x02007033#32, 0xFE00707F#32⟩]

/-- The 46 rows of R102. -/
def decodeTable : List Row :=
  rowsOpcode ++ rowsFunct3 ++ rowsOpImm ++ rowsOp ++ rowsMulDiv ++ [⟨.ecall, 0x00000073#32, 0xFFFFFFFF#32⟩]

/-! ### The encoder (R83, R91) -/

/-- A register index as its 5-bit field. -/
def regBits (r : Reg) : BitVec 5 := BitVec.ofFin r

/-- Format R. -/
def packR (f7 : BitVec 7) (rs2 rs1 : Reg) (f3 : BitVec 3) (rd : Reg) (op : BitVec 7) : Word :=
  f7 ++ regBits rs2 ++ regBits rs1 ++ f3 ++ regBits rd ++ op

/-- Format I: `w[31:20] = v[11:0]`. -/
def packI (v : Word) (rs1 : Reg) (f3 : BitVec 3) (rd : Reg) (op : BitVec 7) : Word :=
  v.extractLsb' 0 12 ++ regBits rs1 ++ f3 ++ regBits rd ++ op

/-- Format I, shift form. -/
def packShift (f7 : BitVec 7) (sh : BitVec 5) (rs1 : Reg) (f3 : BitVec 3) (rd : Reg) (op : BitVec 7) : Word :=
  f7 ++ sh ++ regBits rs1 ++ f3 ++ regBits rd ++ op

/-- Format S: `w[31:25] = v[11:5]`, `w[11:7] = v[4:0]`. -/
def packS (v : Word) (rs2 rs1 : Reg) (f3 : BitVec 3) (op : BitVec 7) : Word :=
  v.extractLsb' 5 7 ++ regBits rs2 ++ regBits rs1 ++ f3 ++ v.extractLsb' 0 5 ++ op

/-- Format B: `w[31] = v[12]`, `w[30:25] = v[10:5]`, `w[11:8] = v[4:1]`, `w[7] = v[11]`. -/
def packB (v : Word) (rs2 rs1 : Reg) (f3 : BitVec 3) (op : BitVec 7) : Word :=
  v.extractLsb' 12 1 ++ v.extractLsb' 5 6 ++ regBits rs2 ++ regBits rs1 ++ f3 ++ v.extractLsb' 1 4 ++ v.extractLsb' 11 1 ++ op

/-- Format U: `w[31:12] = v[31:12]`. -/
def packU (v : Word) (rd : Reg) (op : BitVec 7) : Word :=
  v.extractLsb' 12 20 ++ regBits rd ++ op

/-- Format J: `w[31] = v[20]`, `w[30:21] = v[10:1]`, `w[20] = v[11]`, `w[19:12] = v[19:12]`. -/
def packJ (v : Word) (rd : Reg) (op : BitVec 7) : Word :=
  v.extractLsb' 20 1 ++ v.extractLsb' 1 10 ++ v.extractLsb' 11 1 ++ v.extractLsb' 12 8 ++ regBits rd ++ op

/-- The word of an instruction (meaningful when it is well formed). -/
def encode : Instr → Word
  | .lui rd imm => packU imm rd 0b0110111#7
  | .auipc rd imm => packU imm rd 0b0010111#7
  | .jal rd imm => packJ imm rd 0b1101111#7
  | .jalr rd rs1 imm => packI imm rs1 0b000#3 rd 0b1100111#7
  | .beq rs1 rs2 imm => packB imm rs2 rs1 0b000#3 0b1100011#7
  | .bne rs1 rs2 imm => packB imm rs2 rs1 0b001#3 0b1100011#7
  | .blt rs1 rs2 imm => packB imm rs2 rs1 0b100#3 0b1100011#7
  | .bge rs1 rs2 imm => packB imm rs2 rs1 0b101#3 0b1100011#7
  | .bltu rs1 rs2 imm => packB imm rs2 rs1 0b110#3 0b1100011#7
  | .bgeu rs1 rs2 imm => packB imm rs2 rs1 0b111#3 0b1100011#7
  | .lb rd rs1 imm => packI imm rs1 0b000#3 rd 0b0000011#7
  | .lh rd rs1 imm => packI imm rs1 0b001#3 rd 0b0000011#7
  | .lw rd rs1 imm => packI imm rs1 0b010#3 rd 0b0000011#7
  | .lbu rd rs1 imm => packI imm rs1 0b100#3 rd 0b0000011#7
  | .lhu rd rs1 imm => packI imm rs1 0b101#3 rd 0b0000011#7
  | .sb rs1 rs2 imm => packS imm rs2 rs1 0b000#3 0b0100011#7
  | .sh rs1 rs2 imm => packS imm rs2 rs1 0b001#3 0b0100011#7
  | .sw rs1 rs2 imm => packS imm rs2 rs1 0b010#3 0b0100011#7
  | .addi rd rs1 imm => packI imm rs1 0b000#3 rd 0b0010011#7
  | .slti rd rs1 imm => packI imm rs1 0b010#3 rd 0b0010011#7
  | .sltiu rd rs1 imm => packI imm rs1 0b011#3 rd 0b0010011#7
  | .xori rd rs1 imm => packI imm rs1 0b100#3 rd 0b0010011#7
  | .ori rd rs1 imm => packI imm rs1 0b110#3 rd 0b0010011#7
  | .andi rd rs1 imm => packI imm rs1 0b111#3 rd 0b0010011#7
  | .slli rd rs1 sh => packShift 0b0000000#7 sh rs1 0b001#3 rd 0b0010011#7
  | .srli rd rs1 sh => packShift 0b0000000#7 sh rs1 0b101#3 rd 0b0010011#7
  | .srai rd rs1 sh => packShift 0b0100000#7 sh rs1 0b101#3 rd 0b0010011#7
  | .add rd rs1 rs2 => packR 0b0000000#7 rs2 rs1 0b000#3 rd 0b0110011#7
  | .sub rd rs1 rs2 => packR 0b0100000#7 rs2 rs1 0b000#3 rd 0b0110011#7
  | .sll rd rs1 rs2 => packR 0b0000000#7 rs2 rs1 0b001#3 rd 0b0110011#7
  | .slt rd rs1 rs2 => packR 0b0000000#7 rs2 rs1 0b010#3 rd 0b0110011#7
  | .sltu rd rs1 rs2 => packR 0b0000000#7 rs2 rs1 0b011#3 rd 0b0110011#7
  | .xor rd rs1 rs2 => packR 0b0000000#7 rs2 rs1 0b100#3 rd 0b0110011#7
  | .srl rd rs1 rs2 => packR 0b0000000#7 rs2 rs1 0b101#3 rd 0b0110011#7
  | .sra rd rs1 rs2 => packR 0b0100000#7 rs2 rs1 0b101#3 rd 0b0110011#7
  | .or rd rs1 rs2 => packR 0b0000000#7 rs2 rs1 0b110#3 rd 0b0110011#7
  | .and rd rs1 rs2 => packR 0b0000000#7 rs2 rs1 0b111#3 rd 0b0110011#7
  | .mul rd rs1 rs2 => packR 0b0000001#7 rs2 rs1 0b000#3 rd 0b0110011#7
  | .mulh rd rs1 rs2 => packR 0b0000001#7 rs2 rs1 0b001#3 rd 0b0110011#7
  | .mulhsu rd rs1 rs2 => packR 0b0000001#7 rs2 rs1 0b010#3 rd 0b0110011#7
  | .mulhu rd rs1 rs2 => packR 0b0000001#7 rs2 rs1 0b011#3 rd 0b0110011#7
  | .div rd rs1 rs2 => packR 0b0000001#7 rs2 rs1 0b100#3 rd 0b0110011#7
  | .divu rd rs1 rs2 => packR 0b0000001#7 rs2 rs1 0b101#3 rd 0b0110011#7
  | .rem rd rs1 rs2 => packR 0b0000001#7 rs2 rs1 0b110#3 rd 0b0110011#7
  | .remu rd rs1 rs2 => packR 0b0000001#7 rs2 rs1 0b111#3 rd 0b0110011#7
  | .ecall => 0x00000073#32

/-- The four bytes of a word, lowest address first (R51). -/
def bytesOfWord (w : Word) : List Byte :=
  [w.extractLsb' 0 8, w.extractLsb' 8 8, w.extractLsb' 16 8, w.extractLsb' 24 8]

/-- What the decoder reads from an instruction whose `nbits` low bits are `w` and whose other bits are 0, laid out in memory order. -/
def decodeTableWord (nbits w : Nat) : Option Instr :=
  match decodeBytes (bytesOfWord (BitVec.ofNat 32 (w % 2 ^ nbits))) with
  | .ok (i, _) => some i
  | .error _ => none

end Sys2Proof
end

