-- ==== Sys2Proof/Machine/Flags.lean ====
section
/-! DEFINITION. The hardware has no flags (`10_state.md` R30): a comparison decides a branch inside the one instruction or delivers 0 or 1
into a general register. Here are those comparisons. -/

namespace Sys2Proof.Machine

/-- Equal in all 32 bits (R221). -/
def condEq (a b : Word) : Bool := a == b

/-- `s(a) < s(b)` (R144, R223). -/
def condLtSigned (a b : Word) : Bool := decide (a.toInt < b.toInt)

/-- `u(a) < u(b)` (R145, R225). -/
def condLtUnsigned (a b : Word) : Bool := decide (a.toNat < b.toNat)

/-- "`slt`/`sltu` produce 0/1" (R144, R145). -/
def boolWord (c : Bool) : Word := if c then 0x00000001#32 else 0x00000000#32

end Sys2Proof.Machine
end

