-- ==== Sys2Proof/Machine/Operands.lean ====
section
/-! DEFINITION. The operand forms and the ALU's results: shift amounts, addresses and targets, the exact product and quotient narrowed at
the end. Comparisons are in `Flags.lean`. Spec: files `41_` to `46_`. -/

namespace Sys2Proof.Machine

/-! ### Shifts (R143, R147, R148, R167 to R169) -/

/-- `u(x[rs2][4:0])`: the low five bits are the shift amount, bits 31..5 are ignored (R143). -/
def shiftAmount (b : Word) : Nat := (b.extractLsb' 0 5).toNat

/-- Shift left logical (R143, R167). -/
def shiftLeft (a : Word) (sh : Nat) : Word := a <<< sh

/-- Shift right logical (R147, R168). -/
def shiftRightLogical (a : Word) (sh : Nat) : Word := a >>> sh

/-- Shift right arithmetic (R148, R169). -/
def shiftRightArith (a : Word) (sh : Nat) : Word := a.sshiftRight sh

/-! ### Addresses (modulo 2^32, D30) -/

/-- The effective address of a load or store: base plus displacement (R200). -/
def effAddr (base imm : Word) : Word := base + imm

/-- The target of a branch or JAL: the instruction's own address plus the immediate (R220, R227). -/
def relTarget (here imm : Word) : Word := here + imm

/-- The target of JALR: the sum with bit 0 cleared (R228). -/
def jalrTarget (base imm : Word) : Word := (base + imm) &&& 0xFFFFFFFE#32

/-- The address of the next sequential instruction (R26). -/
def nextSeq (pc : Word) : Word := pc + 4#32

/-! ### Multiply (R181 to R184): the exact product, then one half -/

/-- `bv_32(s(a) * s(b))` (R181). -/
def mulLow (a b : Word) : Word := BitVec.ofInt 32 (a.toInt * b.toInt)

/-- `bv_64(p)[63:32]`. -/
def highHalf (p : Int) : Word := (BitVec.ofInt 64 p).extractLsb' 32 32

/-- Signed by signed (R182). -/
def mulHighSS (a b : Word) : Word := highHalf (a.toInt * b.toInt)

/-- Signed by unsigned (R183). -/
def mulHighSU (a b : Word) : Word := highHalf (a.toInt * (b.toNat : Int))

/-- Unsigned by unsigned (R184). -/
def mulHighUU (a b : Word) : Word := highHalf ((a.toNat : Int) * (b.toNat : Int))

/-! ### Divide (R185 to R189): defined for every operand pair -/

/-- `0x80000000` divided by `0xFFFFFFFF`: the signed overflow case (R189). -/
def divOverflow (a b : Word) : Bool := a == 0x80000000#32 && b == 0xFFFFFFFF#32

/-- Signed quotient, rounded toward zero (R185). -/
def divSigned (a b : Word) : Word :=
  if b = 0#32 then 0xFFFFFFFF#32
  else if divOverflow a b then 0x80000000#32
  else BitVec.ofInt 32 (Int.tdiv a.toInt b.toInt)

/-- Unsigned quotient (R186). -/
def divUnsigned (a b : Word) : Word :=
  if b = 0#32 then 0xFFFFFFFF#32 else BitVec.ofNat 32 (a.toNat / b.toNat)

/-- Signed remainder, with the sign of the dividend (R187). -/
def remSigned (a b : Word) : Word :=
  if b = 0#32 then a
  else if divOverflow a b then 0#32
  else BitVec.ofInt 32 (a.toInt - b.toInt * Int.tdiv a.toInt b.toInt)

/-- Unsigned remainder (R188). -/
def remUnsigned (a b : Word) : Word :=
  if b = 0#32 then a else BitVec.ofNat 32 (a.toNat % b.toNat)

end Sys2Proof.Machine
end

