-- ==== Sys2Proof/Machine/Sparse.lean ====
section
/-! DEFINITION. Sparse maps from natural numbers with a default value, as lists of pairs in one canonical form. They hold the memory bytes
and the predictor's counters. -/

namespace Sys2Proof.Machine

/-- The value at a key; `d` where the key is not listed. -/
def Sparse.get {β : Type} (d : β) : List (Nat × β) → Nat → β
  | [], _ => d
  | (k, v) :: l, a => if a = k then v else Sparse.get d l a

/-- The list without a key. -/
def Sparse.erase {β : Type} (l : List (Nat × β)) (a : Nat) : List (Nat × β) :=
  l.filter (fun p => p.1 ≠ a)

/-- The pair put before the first larger key. -/
def Sparse.insert {β : Type} : List (Nat × β) → Nat → β → List (Nat × β)
  | [], a, b => [(a, b)]
  | (k, v) :: l, a, b => if a < k then (a, b) :: (k, v) :: l else (k, v) :: Sparse.insert l a b

/-- The map with the value at one key replaced; writing the default removes the entry. -/
def Sparse.set {β : Type} [DecidableEq β] (d : β) (l : List (Nat × β)) (a : Nat) (b : β) : List (Nat × β) :=
  if b = d then Sparse.erase l a else Sparse.insert (Sparse.erase l a) a b

/-- Keys strictly rising. -/
def Sparse.rising {β : Type} : List (Nat × β) → Bool
  | [] => true
  | [_] => true
  | p :: q :: l => decide (p.1 < q.1) && Sparse.rising (q :: l)

/-- The canonical form: keys strictly rising, and no entry equal to the default. -/
def Sparse.canonical {β : Type} [DecidableEq β] (d : β) (l : List (Nat × β)) : Bool :=
  Sparse.rising l && l.all (fun p => decide (p.2 ≠ d))

end Sys2Proof.Machine
end

