-- ==== Sys2Proof/Machine/Predictor.lean ====
section
/-! DEFINITION. The branch predictor observation engine. Spec: `48_branch_predictor.md` R270 to R284. -/

namespace Sys2Proof.Machine

/-- The saturating counter's update (R279). -/
def sat (c : Ctr) (taken : Bool) : Ctr :=
  if taken then ⟨min (c.val + 1) 3, by omega⟩ else ⟨c.val - 1, by omega⟩

/-- A counter predicts taken when it is 2 or 3 (R276, R279). -/
def predictsTaken (c : Ctr) : Bool := decide (2 ≤ c.val)

/-- One more error when the prediction is not the outcome. -/
def errAfter (err : Nat) (pred taken : Bool) : Nat := if pred = taken then err else err + 1

/-- The counter at an index. -/
def Table.ctr (init : Ctr) (t : Table) (i : Nat) : Ctr := Sparse.get init t.cells i

/-- One observation by one table at index `i`: error judged before the update, then the indexed counter moves (R276). -/
def Table.observe (init : Ctr) (i : Nat) (taken : Bool) (t : Table) : Table :=
  { size := t.size
    cells := Sparse.set init t.cells i (sat (t.ctr init i) taken)
    err := errAfter t.err (predictsTaken (t.ctr init i)) taken }

/-- `(u(pc) >> 2) & (n - 1)` (R276). -/
def bimodalIndex (pc : Word) (n : Nat) : Nat := (pc.toNat >>> 2) &&& (n - 1)

/-- `((u(pc) >> 2) ^ u(ghr)) & (n - 1)` (R277). -/
def gshareIndex (pc : Word) (ghr : BitVec 16) (n : Nat) : Nat := ((pc.toNat >>> 2) ^^^ ghr.toNat) &&& (n - 1)

/-- `{ghr[14:0], t}` (R278). -/
def ghrShift (ghr : BitVec 16) (taken : Bool) : BitVec 16 := ghr.extractLsb' 0 15 ++ BitVec.ofBool taken

/-- `u(target) < u(pc)`: the BTFNT scheme's prediction (R275). -/
def btfntPredicts (pc target : Word) : Bool := decide (target.toNat < pc.toNat)

/-- `Observe(pc, target, is_branch, taken)` (R272 to R278): every scheme uses the tables and the history as they were before the call.
`is_branch` is carried and has no effect (R283). -/
def Bank.observe (b : Bank) (pc target : Word) (_isBranch taken : Bool) : Bank :=
  { nCtl := b.nCtl + 1
    errNt := errAfter b.errNt false taken
    errBtfnt := errAfter b.errBtfnt (btfntPredicts pc target) taken
    bimodal := b.bimodal.map (fun t => t.observe b.ctrInit (bimodalIndex pc t.size) taken)
    gshare := b.gshare.map (fun t => t.observe b.ctrInit (gshareIndex pc b.ghr t.size) taken)
    ghr := ghrShift b.ghr taken
    ctrInit := b.ctrInit }

end Sys2Proof.Machine
end

