-- ==== Sys2Proof/Machine/Ops.lean ====
section
/-! DEFINITION. The named operations on the state: registers, memory, the character services, the predictor hand-over, the commit.

Taking an exception: the hardware has none (`60_exceptions.md` R340, R345 to R347). No pc or status is saved, no mode changes, no handler
runs, and there is no return instruction; so there is no such operation here. The three faults of R341 stop a step. -/

namespace Sys2Proof.Machine

/-! ### Registers -/

/-- `x[r]` (R11). -/
def State.reg (s : State) (r : Reg) : Word := s.x.get r

/-- `x[r] <- v` (R11). A write to `x[0]` lands and is gone at the commit (R21). -/
def State.setReg (s : State) (r : Reg) (v : Word) : State := { s with x := s.x.set r.val v r.isLt }

/-! ### Memory -/

/-- The address is in the region. -/
def regionHas (a : Nat) (r : Region) : Bool := decide (r.base ≤ a) && decide (a < r.base + r.size)

/-- The address is in `MAPPED` (R54). -/
def State.isMapped (s : State) (a : Word) : Bool := s.mapped.any (regionHas a.toNat)

/-- `mem[a]`, the byte stored at an address (R52). -/
def State.byteAt (s : State) (a : Word) : Byte := Sparse.get Config.unlistedByte s.mem a.toNat

/-- `mem[a] <- b` (R53). -/
def State.setByte (s : State) (a : Word) (b : Byte) : State := { s with mem := Sparse.set Config.unlistedByte s.mem a.toNat b }

/-- The canonical form of memory, with every key a 32-bit address. -/
def Memory.wf (m : Memory) : Bool :=
  Sparse.canonical Config.unlistedByte m && m.all (fun p => decide (p.1 < 2 ^ 32))

/-- Every byte of the `n` bytes at `a` is mapped. -/
def State.allMapped (s : State) (a : Word) (n : Nat) : Bool :=
  (List.range n).all (fun k => s.isMapped (a + BitVec.ofNat 32 k))

/-- The checks of a data access of `n` bytes: alignment first, then mapping (R52, R53, R57). -/
def State.checkData (s : State) (a : Word) (n : Nat) : Except Fault Unit :=
  if a.toNat % n ≠ 0 then .error (.dataMisaligned a)
  else if s.allMapped a n then .ok ()
  else .error (.unmapped a)

/-- `{mem[a+1], mem[a]}` (R51). -/
def State.halfAt (s : State) (a : Word) : BitVec 16 := s.byteAt (a + 1#32) ++ s.byteAt a

/-- `{mem[a+3], mem[a+2], mem[a+1], mem[a]}` (R51). -/
def State.wordAt (s : State) (a : Word) : Word :=
  wordOfBytes (s.byteAt a) (s.byteAt (a + 1#32)) (s.byteAt (a + 2#32)) (s.byteAt (a + 3#32))

/-- `MemRead(a, 1)` (R52). -/
def State.memRead1 (s : State) (a : Word) : Except Fault Byte := (s.checkData a 1).map (fun _ => s.byteAt a)

/-- `MemRead(a, 2)` (R52). -/
def State.memRead2 (s : State) (a : Word) : Except Fault (BitVec 16) := (s.checkData a 2).map (fun _ => s.halfAt a)

/-- `MemRead(a, 4)` (R52). -/
def State.memRead4 (s : State) (a : Word) : Except Fault Word := (s.checkData a 4).map (fun _ => s.wordAt a)

/-- Two bytes stored, the low one at the lower address (R53). -/
def State.setHalf (s : State) (a : Word) (v : BitVec 16) : State :=
  (s.setByte a (v.extractLsb' 0 8)).setByte (a + 1#32) (v.extractLsb' 8 8)

/-- Four bytes stored, the lowest at the lowest address (R53). -/
def State.setWord (s : State) (a : Word) (v : Word) : State :=
  (((s.setByte a (v.extractLsb' 0 8)).setByte (a + 1#32) (v.extractLsb' 8 8)).setByte (a + 2#32) (v.extractLsb' 16 8)).setByte
    (a + 3#32) (v.extractLsb' 24 8)

/-- `MemWrite(a, 1, v)` (R53). -/
def State.memWrite1 (s : State) (a : Word) (v : Byte) : Except Fault State := (s.checkData a 1).map (fun _ => s.setByte a v)

/-- `MemWrite(a, 2, v)` (R53). -/
def State.memWrite2 (s : State) (a : Word) (v : BitVec 16) : Except Fault State := (s.checkData a 2).map (fun _ => s.setHalf a v)

/-- `MemWrite(a, 4, v)` (R53). -/
def State.memWrite4 (s : State) (a : Word) (v : Word) : Except Fault State := (s.checkData a 4).map (fun _ => s.setWord a v)

/-- `Fetch(pc)` (R56): alignment first, then mapping. -/
def State.fetch (s : State) : Except Fault Word :=
  if s.pc.toNat % 4 ≠ 0 then .error (.fetchMisaligned s.pc)
  else if s.allMapped s.pc 4 then .ok (s.wordAt s.pc)
  else .error (.unmapped s.pc)

/-! ### The standard I/O collaborator (R252, R253, R256) -/

/-- `GetChar()`: the answer, where there is one. -/
def State.getCharValue (s : State) : Word :=
  match s.input[s.inputPos]? with
  | some c => c.setWidth 32
  | none => s.eofValue

/-- `GetChar()`: the input position afterwards; it does not advance at end of input. -/
def State.getCharPos (s : State) : Nat :=
  match s.input[s.inputPos]? with
  | some _ => s.inputPos + 1
  | none => s.inputPos

/-- `GetChar()` is answered: a character is left, or end of input follows the last one (R132, U15). -/
def State.getCharAnswers (s : State) : Bool :=
  match s.input[s.inputPos]?, s.inputTail with
  | some _, _ | none, .endOfInput => true
  | none, .silent => false

/-- `PutChar(b)`. -/
def State.putChar (s : State) (b : Byte) : State := { s with output := s.output ++ [b] }

/-! ### Predictor hand-over and commit -/

/-- Stage 5: `Observe`, with the instruction's own address (R126). -/
def State.observe (s : State) (target : Word) (isBranch taken : Bool) : State :=
  { s with bank := s.bank.observe s.pc target isBranch taken }

/-- Stage 7, one action: `pc <- next_pc`, `x[0] <- 0`, `n_insn <- n_insn + 1` (R127). -/
def State.commit (s : State) (next : Word) : State :=
  { s with pc := next, x := s.x.set 0 0#32, nInsn := s.nInsn + 1 }

/-- Stages 6 and 7 of an instruction that does not assign the `pc` (R124). -/
def State.commitSeq (s : State) : State := s.commit (nextSeq s.pc)

/-! ### Shapes of the execute stage -/

/-- The outcome of a step. -/
abbrev Result := Host.Outcome State Fault Refusal

/-- Writes one register and goes on to the next instruction (R13). -/
def finishReg (s : State) (rd : Reg) (v : Word) : Result := .next (s.setReg rd v).commitSeq

/-- `x[rd] <- f(x[rs1], x[rs2])` (R140, R180). -/
def execRegReg (f : Word → Word → Word) (rd rs1 rs2 : Reg) (s : State) : Result :=
  finishReg s rd (f (s.reg rs1) (s.reg rs2))

/-- `x[rd] <- f(x[rs1], imm)` (R160). -/
def execRegImm (f : Word → Word → Word) (rd rs1 : Reg) (imm : Word) (s : State) : Result :=
  finishReg s rd (f (s.reg rs1) imm)

/-- `x[rd] <- f(x[rs1], u(shamt))` (R160). -/
def execRegShamt (f : Word → Nat → Word) (rd rs1 : Reg) (shamt : BitVec 5) (s : State) : Result :=
  finishReg s rd (f (s.reg rs1) shamt.toNat)

/-- The address of a load or store (R200). -/
def dataAddr (s : State) (rs1 : Reg) (imm : Word) : Word := effAddr (s.reg rs1) imm

/-- A load: `read` is the access with its extension; on a fault nothing is written (R125, R200). -/
def execLoad (read : State → Word → Except Fault Word) (rd rs1 : Reg) (imm : Word) (s : State) : Result :=
  match read s (dataAddr s rs1 imm) with
  | .ok v => finishReg s rd v
  | .error f => .fault f

/-- A store: `write` is the access with its truncation (R125, R200). -/
def execStore (write : State → Word → Word → Except Fault State) (rs1 rs2 : Reg) (imm : Word) (s : State) : Result :=
  match write s (dataAddr s rs1 imm) (s.reg rs2) with
  | .ok t => .next t.commitSeq
  | .error f => .fault f

/-- A conditional branch (R220). -/
def execBranch (taken : Bool) (imm : Word) (s : State) : Result :=
  .next ((s.observe (relTarget s.pc imm) true taken).commit (if taken then relTarget s.pc imm else nextSeq s.pc))

/-- A jump with link: the link value is the address of the next sequential instruction (R227, R228). -/
def execJump (target : Word) (rd : Reg) (s : State) : Result :=
  .next (((s.observe target false true).setReg rd (nextSeq s.pc)).commit target)

end Sys2Proof.Machine
end

