-- ==== Sys2Proof/Machine/AluImmediate.lean ====
section
/-! DEFINITION. Register-immediate ALU instructions. Spec: `42_alu_immediate.md` R160 to R169. -/

namespace Sys2Proof.Machine

/-- ADDI (R161). -/
def execAddi (rd rs1 : Reg) (imm : Word) (s : State) : Result := execRegImm (fun a b => a + b) rd rs1 imm s

/-- SLTI (R162). -/
def execSlti (rd rs1 : Reg) (imm : Word) (s : State) : Result := execRegImm (fun a b => boolWord (condLtSigned a b)) rd rs1 imm s

/-- SLTIU: the sign-extended immediate read as unsigned (R163). -/
def execSltiu (rd rs1 : Reg) (imm : Word) (s : State) : Result := execRegImm (fun a b => boolWord (condLtUnsigned a b)) rd rs1 imm s

/-- XORI (R164). -/
def execXori (rd rs1 : Reg) (imm : Word) (s : State) : Result := execRegImm (fun a b => a ^^^ b) rd rs1 imm s

/-- ORI (R165). -/
def execOri (rd rs1 : Reg) (imm : Word) (s : State) : Result := execRegImm (fun a b => a ||| b) rd rs1 imm s

/-- ANDI (R166). -/
def execAndi (rd rs1 : Reg) (imm : Word) (s : State) : Result := execRegImm (fun a b => a &&& b) rd rs1 imm s

/-- SLLI (R167). -/
def execSlli (rd rs1 : Reg) (shamt : BitVec 5) (s : State) : Result := execRegShamt shiftLeft rd rs1 shamt s

/-- SRLI (R168). -/
def execSrli (rd rs1 : Reg) (shamt : BitVec 5) (s : State) : Result := execRegShamt shiftRightLogical rd rs1 shamt s

/-- SRAI (R169). -/
def execSrai (rd rs1 : Reg) (shamt : BitVec 5) (s : State) : Result := execRegShamt shiftRightArith rd rs1 shamt s

end Sys2Proof.Machine
end

