-- ==== Sys2Proof/Machine/AluRegister.lean ====
section
/-! DEFINITION. Register-register ALU instructions. Spec: `41_alu_register.md` R140 to R151. -/

namespace Sys2Proof.Machine

/-- ADD (R141). -/
def execAdd (rd rs1 rs2 : Reg) (s : State) : Result := execRegReg (fun a b => a + b) rd rs1 rs2 s

/-- SUB (R142). -/
def execSub (rd rs1 rs2 : Reg) (s : State) : Result := execRegReg (fun a b => a - b) rd rs1 rs2 s

/-- SLL (R143). -/
def execSll (rd rs1 rs2 : Reg) (s : State) : Result := execRegReg (fun a b => shiftLeft a (shiftAmount b)) rd rs1 rs2 s

/-- SLT (R144). -/
def execSlt (rd rs1 rs2 : Reg) (s : State) : Result := execRegReg (fun a b => boolWord (condLtSigned a b)) rd rs1 rs2 s

/-- SLTU (R145). -/
def execSltu (rd rs1 rs2 : Reg) (s : State) : Result := execRegReg (fun a b => boolWord (condLtUnsigned a b)) rd rs1 rs2 s

/-- XOR (R146). -/
def execXor (rd rs1 rs2 : Reg) (s : State) : Result := execRegReg (fun a b => a ^^^ b) rd rs1 rs2 s

/-- SRL (R147). -/
def execSrl (rd rs1 rs2 : Reg) (s : State) : Result := execRegReg (fun a b => shiftRightLogical a (shiftAmount b)) rd rs1 rs2 s

/-- SRA (R148). -/
def execSra (rd rs1 rs2 : Reg) (s : State) : Result := execRegReg (fun a b => shiftRightArith a (shiftAmount b)) rd rs1 rs2 s

/-- OR (R149). -/
def execOr (rd rs1 rs2 : Reg) (s : State) : Result := execRegReg (fun a b => a ||| b) rd rs1 rs2 s

/-- AND (R150). -/
def execAnd (rd rs1 rs2 : Reg) (s : State) : Result := execRegReg (fun a b => a &&& b) rd rs1 rs2 s

end Sys2Proof.Machine
end

