-- ==== Sys2Proof/Machine/Control.lean ====
section
/-! DEFINITION. Control-transfer instructions, the eight that the predictor bank observes. Spec: `45_control_transfer.md` R220 to R231.
No target is checked for alignment here (R229). -/

namespace Sys2Proof.Machine

/-- BEQ (R221). -/
def execBeq (rs1 rs2 : Reg) (imm : Word) (s : State) : Result := execBranch (condEq (s.reg rs1) (s.reg rs2)) imm s

/-- BNE (R222). -/
def execBne (rs1 rs2 : Reg) (imm : Word) (s : State) : Result := execBranch (!condEq (s.reg rs1) (s.reg rs2)) imm s

/-- BLT (R223). -/
def execBlt (rs1 rs2 : Reg) (imm : Word) (s : State) : Result := execBranch (condLtSigned (s.reg rs1) (s.reg rs2)) imm s

/-- BGE (R224). -/
def execBge (rs1 rs2 : Reg) (imm : Word) (s : State) : Result := execBranch (!condLtSigned (s.reg rs1) (s.reg rs2)) imm s

/-- BLTU (R225). -/
def execBltu (rs1 rs2 : Reg) (imm : Word) (s : State) : Result := execBranch (condLtUnsigned (s.reg rs1) (s.reg rs2)) imm s

/-- BGEU (R226). -/
def execBgeu (rs1 rs2 : Reg) (imm : Word) (s : State) : Result := execBranch (!condLtUnsigned (s.reg rs1) (s.reg rs2)) imm s

/-- JAL (R227). -/
def execJal (rd : Reg) (imm : Word) (s : State) : Result := execJump (relTarget s.pc imm) rd s

/-- JALR: `x[rs1]` is read before `x[rd]` is written (R22, R228). -/
def execJalr (rd rs1 : Reg) (imm : Word) (s : State) : Result := execJump (jalrTarget (s.reg rs1) imm) rd s

end Sys2Proof.Machine
end

