-- ==== Sys2Proof/Machine/LoadStore.lean ====
section
/-! DEFINITION. Load and store instructions: the extension and truncation are the core's (R58). Spec: `44_load_store.md` R200 to R208. -/

namespace Sys2Proof.Machine

/-- `sext_8(MemRead(ea, 1))` (R201). -/
def readLb (s : State) (ea : Word) : Except Fault Word := (s.memRead1 ea).map (fun v => v.signExtend 32)

/-- `sext_16(MemRead(ea, 2))` (R202). -/
def readLh (s : State) (ea : Word) : Except Fault Word := (s.memRead2 ea).map (fun v => v.signExtend 32)

/-- `MemRead(ea, 4)` (R203). -/
def readLw (s : State) (ea : Word) : Except Fault Word := s.memRead4 ea

/-- `zext_8(MemRead(ea, 1))` (R204). -/
def readLbu (s : State) (ea : Word) : Except Fault Word := (s.memRead1 ea).map (fun v => v.setWidth 32)

/-- `zext_16(MemRead(ea, 2))` (R205). -/
def readLhu (s : State) (ea : Word) : Except Fault Word := (s.memRead2 ea).map (fun v => v.setWidth 32)

/-- `MemWrite(ea, 1, v[7:0])` (R206). -/
def writeSb (s : State) (ea v : Word) : Except Fault State := s.memWrite1 ea (v.extractLsb' 0 8)

/-- `MemWrite(ea, 2, v[15:0])` (R207). -/
def writeSh (s : State) (ea v : Word) : Except Fault State := s.memWrite2 ea (v.extractLsb' 0 16)

/-- `MemWrite(ea, 4, v)` (R208). -/
def writeSw (s : State) (ea v : Word) : Except Fault State := s.memWrite4 ea v

/-- LB (R201). -/
def execLb (rd rs1 : Reg) (imm : Word) (s : State) : Result := execLoad readLb rd rs1 imm s

/-- LH (R202). -/
def execLh (rd rs1 : Reg) (imm : Word) (s : State) : Result := execLoad readLh rd rs1 imm s

/-- LW (R203). -/
def execLw (rd rs1 : Reg) (imm : Word) (s : State) : Result := execLoad readLw rd rs1 imm s

/-- LBU (R204). -/
def execLbu (rd rs1 : Reg) (imm : Word) (s : State) : Result := execLoad readLbu rd rs1 imm s

/-- LHU (R205). -/
def execLhu (rd rs1 : Reg) (imm : Word) (s : State) : Result := execLoad readLhu rd rs1 imm s

/-- SB (R206). -/
def execSb (rs1 rs2 : Reg) (imm : Word) (s : State) : Result := execStore writeSb rs1 rs2 imm s

/-- SH (R207). -/
def execSh (rs1 rs2 : Reg) (imm : Word) (s : State) : Result := execStore writeSh rs1 rs2 imm s

/-- SW (R208). -/
def execSw (rs1 rs2 : Reg) (imm : Word) (s : State) : Result := execStore writeSw rs1 rs2 imm s

end Sys2Proof.Machine
end

