-- ==== Sys2Proof/Machine/MulDiv.lean ====
section
/-! DEFINITION. Multiply and divide instructions. Spec: `43_muldiv.md` R180 to R189. -/

namespace Sys2Proof.Machine

/-- MUL (R181). -/
def execMul (rd rs1 rs2 : Reg) (s : State) : Result := execRegReg mulLow rd rs1 rs2 s

/-- MULH (R182). -/
def execMulh (rd rs1 rs2 : Reg) (s : State) : Result := execRegReg mulHighSS rd rs1 rs2 s

/-- MULHSU: `rs1` signed, `rs2` unsigned (R183). -/
def execMulhsu (rd rs1 rs2 : Reg) (s : State) : Result := execRegReg mulHighSU rd rs1 rs2 s

/-- MULHU (R184). -/
def execMulhu (rd rs1 rs2 : Reg) (s : State) : Result := execRegReg mulHighUU rd rs1 rs2 s

/-- DIV (R185). -/
def execDiv (rd rs1 rs2 : Reg) (s : State) : Result := execRegReg divSigned rd rs1 rs2 s

/-- DIVU (R186). -/
def execDivu (rd rs1 rs2 : Reg) (s : State) : Result := execRegReg divUnsigned rd rs1 rs2 s

/-- REM (R187). -/
def execRem (rd rs1 rs2 : Reg) (s : State) : Result := execRegReg remSigned rd rs1 rs2 s

/-- REMU (R188). -/
def execRemu (rd rs1 rs2 : Reg) (s : State) : Result := execRegReg remUnsigned rd rs1 rs2 s

end Sys2Proof.Machine
end

