-- ==== Sys2Proof/Machine/System.lean ====
section
/-! DEFINITION. ECALL and its services, and the counted no-op of an unknown encoding.
Spec: `47_system.md` R250 to R258; `40_step_cycle.md` R128, R129. -/

namespace Sys2Proof.Machine

/-- Service 1, character input (R252). Without an answer the core is stuck in this step and nothing is changed (R132, U15). -/
def ecallGetChar (s : State) : Result :=
  if s.getCharAnswers then .next ({ s with inputPos := s.getCharPos }.setReg regA0 s.getCharValue).commitSeq
  else .refused .awaitingInput

/-- Service 2, character output: the low 8 bits of `x[10]` (R253). -/
def ecallPutChar (s : State) : Result := .next (s.putChar ((s.reg regA0).extractLsb' 0 8)).commitSeq

/-- Services 3 and 93: the iteration commits as usual, then `run_state <- halted` (R128, R254). The outcome `Halt` of R12 is a next state
that is halted. -/
def ecallHalt (s : State) : Result := .next { s.commitSeq with runState := .halted }

/-- Any other service: "no-op (explicitly not an error)" (R255). -/
def ecallOther (s : State) : Result := .next s.commitSeq

/-- ECALL: the service is selected by all 32 bits of `x[17]` (R251). -/
def execEcall (s : State) : Result :=
  if s.reg regA7 = 1#32 then ecallGetChar s
  else if s.reg regA7 = 2#32 then ecallPutChar s
  else if s.reg regA7 = 3#32 ∨ s.reg regA7 = 93#32 then ecallHalt s
  else ecallOther s

/-- A word of kind `UNKNOWN`: `n_unknown <- n_unknown + 1`, then the commit (R129). -/
def execUnknown (s : State) : Result := .next { s with nUnknown := s.nUnknown + 1 }.commitSeq

end Sys2Proof.Machine
end

