-- ==== Sys2Proof/Machine/UpperImmediate.lean ====
section
/-! DEFINITION. Upper-immediate instructions. Spec: `46_upper_immediate.md` R240, R241. -/

namespace Sys2Proof.Machine

/-- LUI (R240). -/
def execLui (rd : Reg) (imm : Word) (s : State) : Result := finishReg s rd imm

/-- AUIPC (R241). -/
def execAuipc (rd : Reg) (imm : Word) (s : State) : Result := finishReg s rd (s.pc + imm)

end Sys2Proof.Machine
end

