-- ==== Sys2Proof/Machine/Step.lean ====
section
/-! DEFINITION. One step: fetch, decode, execute (`40_step_cycle.md` R120 to R130), and the placing of one instruction for the host. -/

namespace Sys2Proof.Machine

/-- One iteration of the loop body. A halted core has no step (R120); a fetch that faults ends the step (R122); a word of kind `UNKNOWN`
runs as the counted no-op (R123, R129). -/
def step (s : State) : Host.Outcome State Fault Refusal :=
  match s.runState with
  | .halted => .refused .coreHalted
  | .running =>
    match s.fetch with
    | .error f => .fault f
    | .ok w =>
      match decode w with
      | .ok i => exec i s
      | .error _ => execUnknown s

/-- `s` with one instruction word stored where `step` fetches next, at `pc`, and those four bytes mapped if they were not. A program comes
into memory from outside the machine (R384; log 12); this stands for that load. -/
def State.withFetchWord (s : State) (nbits w : Nat) : State :=
  let t := s.setWord s.pc (BitVec.ofNat 32 (w % 2 ^ nbits))
  if s.allMapped s.pc 4 then t else { t with mapped := t.mapped ++ [⟨s.pc.toNat, 4⟩] }

end Sys2Proof.Machine
end

