-- ==== Sys2Proof/Machine/Disasm.lean ====
section
/-! DEFINITION. The disassembler's recognition of instructions and pseudo-instructions (`49_assembler_syntax.md` R300 to R316). It is outside
the hardware (`00_scope.md` R3 d) and nothing of the machine depends on it. The text buffer of R317 is left out. Log 15. -/

namespace Sys2Proof.Machine

/-- An operand of a line (R303, R304). -/
inductive Operand where
  | reg (r : Reg)
  /-- a signed decimal number -/
  | imm (k : Int)
  /-- `imm(register)` -/
  | mem (k : Int) (base : Reg)
  /-- a resolved target address (R306) -/
  | target (a : Word)
deriving DecidableEq, Repr

/-- A line before it is laid out as text: a mnemonic with operands, or the unknown marker (R316). -/
inductive AsmLine where
  | line (mnemonic : String) (ops : List Operand)
  | unknown
deriving DecidableEq, Repr

/-- `op rd, rs1, rs2`. -/
def asmR (m : String) (rd rs1 rs2 : Reg) : AsmLine := .line m [.reg rd, .reg rs1, .reg rs2]

/-- `op rd, rs1, imm`. -/
def asmI (m : String) (rd rs1 : Reg) (v : Word) : AsmLine := .line m [.reg rd, .reg rs1, .imm v.toInt]

/-- `op rd, rs1, shamt`. -/
def asmShift (m : String) (rd rs1 : Reg) (sh : BitVec 5) : AsmLine := .line m [.reg rd, .reg rs1, .imm sh.toNat]

/-- `op rd, imm(rs1)` and `op rs2, imm(rs1)`. -/
def asmMem (m : String) (r base : Reg) (v : Word) : AsmLine := .line m [.reg r, .mem v.toInt base]

/-- `op rd, imm20` with `imm20 = u(w[31:12])`. -/
def asmU (m : String) (rd : Reg) (v : Word) : AsmLine := .line m [.reg rd, .imm ((v.toNat / 4096 : Nat) : Int)]

/-- `op rs1, rs2, target`. -/
def asmB (m : String) (rs1 rs2 : Reg) (t : Word) : AsmLine := .line m [.reg rs1, .reg rs2, .target t]

/-- A branch with its zero-compare forms: `zr` when `rs2 = 0`, `zl` when only `rs1 = 0` (R314). -/
def asmBz (m zr zl : String) (rs1 rs2 : Reg) (t : Word) : AsmLine :=
  if rs2 = 0 then .line zr [.reg rs1, .target t]
  else if rs1 = 0 then .line zl [.reg rs2, .target t]
  else asmB m rs1 rs2 t

/-- The line of an instruction at an address, pseudo-instructions recognised (R304, R306, R310 to R315). -/
def asmOf (addr : Word) : Instr → AsmLine
  | .lui rd imm => asmU "lui" rd imm
  | .auipc rd imm => asmU "auipc" rd imm
  | .jal rd imm => if rd = 0 then .line "jal" [.target (addr + imm)] else .line "jal" [.reg rd, .target (addr + imm)]
  | .jalr rd rs1 imm => if rd = 0 then .line "ret" [] else asmMem "jalr" rd rs1 imm
  | .beq rs1 rs2 imm => asmBz "beq" "beqz" "beqz" rs1 rs2 (addr + imm)
  | .bne rs1 rs2 imm => asmBz "bne" "bnez" "bnez" rs1 rs2 (addr + imm)
  | .blt rs1 rs2 imm => asmBz "blt" "bltz" "bgtz" rs1 rs2 (addr + imm)
  | .bge rs1 rs2 imm => asmBz "bge" "bgez" "blez" rs1 rs2 (addr + imm)
  | .bltu rs1 rs2 imm => asmB "bltu" rs1 rs2 (addr + imm)
  | .bgeu rs1 rs2 imm => asmB "bgeu" rs1 rs2 (addr + imm)
  | .lb rd rs1 imm => asmMem "lb" rd rs1 imm
  | .lh rd rs1 imm => asmMem "lh" rd rs1 imm
  | .lw rd rs1 imm => asmMem "lw" rd rs1 imm
  | .lbu rd rs1 imm => asmMem "lbu" rd rs1 imm
  | .lhu rd rs1 imm => asmMem "lhu" rd rs1 imm
  | .sb rs1 rs2 imm => asmMem "sb" rs2 rs1 imm
  | .sh rs1 rs2 imm => asmMem "sh" rs2 rs1 imm
  | .sw rs1 rs2 imm => asmMem "sw" rs2 rs1 imm
  | .addi rd rs1 imm =>
    if rs1 = 0 then .line "li" [.reg rd, .imm imm.toInt]
    else if imm = 0#32 then .line "mv" [.reg rd, .reg rs1]
    else asmI "addi" rd rs1 imm
  | .slti rd rs1 imm => asmI "slti" rd rs1 imm
  | .sltiu rd rs1 imm => asmI "sltiu" rd rs1 imm
  | .xori rd rs1 imm => if imm = 0xFFFFFFFF#32 then .line "not" [.reg rd, .reg rs1] else asmI "xori" rd rs1 imm
  | .ori rd rs1 imm => asmI "ori" rd rs1 imm
  | .andi rd rs1 imm => if imm = 255#32 then .line "zext.b" [.reg rd, .reg rs1] else asmI "andi" rd rs1 imm
  | .slli rd rs1 sh => asmShift "slli" rd rs1 sh
  | .srli rd rs1 sh => asmShift "srli" rd rs1 sh
  | .srai rd rs1 sh => asmShift "srai" rd rs1 sh
  | .add rd rs1 rs2 => asmR "add" rd rs1 rs2
  | .sub rd rs1 rs2 => if rs1 = 0 then .line "neg" [.reg rd, .reg rs2] else asmR "sub" rd rs1 rs2
  | .sll rd rs1 rs2 => asmR "sll" rd rs1 rs2
  | .slt rd rs1 rs2 => asmR "slt" rd rs1 rs2
  | .sltu rd rs1 rs2 => asmR "sltu" rd rs1 rs2
  | .xor rd rs1 rs2 => asmR "xor" rd rs1 rs2
  | .srl rd rs1 rs2 => asmR "srl" rd rs1 rs2
  | .sra rd rs1 rs2 => asmR "sra" rd rs1 rs2
  | .or rd rs1 rs2 => asmR "or" rd rs1 rs2
  | .and rd rs1 rs2 => asmR "and" rd rs1 rs2
  | .mul rd rs1 rs2 => asmR "mul" rd rs1 rs2
  | .mulh rd rs1 rs2 => asmR "mulh" rd rs1 rs2
  | .mulhsu rd rs1 rs2 => asmR "mulhsu" rd rs1 rs2
  | .mulhu rd rs1 rs2 => asmR "mulhu" rd rs1 rs2
  | .div rd rs1 rs2 => asmR "div" rd rs1 rs2
  | .divu rd rs1 rs2 => asmR "divu" rd rs1 rs2
  | .rem rd rs1 rs2 => asmR "rem" rd rs1 rs2
  | .remu rd rs1 rs2 => asmR "remu" rd rs1 rs2
  | .ecall => .line "ecall" []

/-- The line of a word: total, with the machine's own decode (R300, R301). -/
def disassemble (addr w : Word) : AsmLine :=
  match decode w with
  | .ok i => asmOf addr i
  | .error _ => .unknown

/-- A register as `x<N>` (R303). -/
def regText (r : Reg) : String := "x" ++ toString r.val

/-- The eight base-16 digits of an address, most significant first. -/
def hexNibbles (a : Word) : List Nat := (List.range 8).map (fun k => a.toNat / 16 ^ (7 - k) % 16)

/-- The digits shown: no leading zeros but those that fill up to `least` digits, and at least one digit. -/
def hexDigits (least : Nat) (a : Word) : List Nat :=
  let d := (hexNibbles a).dropWhile (fun n => n == 0)
  List.replicate (max 1 least - d.length) 0 ++ d

/-- The character of a base-16 digit. -/
def hexChar (upper : Bool) (d : Nat) : Char := if upper then (Nat.digitChar d).toUpper else Nat.digitChar d

/-- "In hexadecimal" (R303, R306): base 16; the prefix, the digit count and the case are free (N15). -/
def hexText (a : Word) : String :=
  Config.hexPrefix ++ String.ofList ((hexDigits Config.hexMinDigits a).map (hexChar Config.hexUpper))

/-- The text of an operand; `sym` is the symbol-resolution collaborator (R306). -/
def operandText (sym : Word → Option String) : Operand → String
  | .reg r => regText r
  | .imm k => toString k
  | .mem k base => toString k ++ "(" ++ regText base ++ ")"
  | .target a =>
    match sym a with
    | some name => hexText a ++ " <" ++ name ++ ">"
    | none => hexText a

/-- A mnemonic in its field of 8 columns, the spaces after it (R302). -/
def padMnemonic (m : String) : String := m ++ String.ofList (List.replicate (8 - m.length) ' ')

/-- The line as text; a line without operands is its mnemonic alone. -/
def AsmLine.text (sym : Word → Option String) : AsmLine → String
  | .unknown => Config.unknownMarker
  | .line m [] => m
  | .line m (o :: ops) => padMnemonic m ++ String.intercalate ", " ((o :: ops).map (operandText sym))

end Sys2Proof.Machine
end

