-- ==== Sys2Proof/Machine/Report.lean ====
section
/-! DEFINITION. The statistics report the host gets at the halt (`10_state.md` R38; `70_reset_and_hazards.md` R386). Its text layout is
outside the hardware. -/

namespace Sys2Proof.Machine

/-- The content of the report (R38). -/
structure Report where
  nInsn : Nat
  nCtl : Nat
  errNt : Nat
  errBtfnt : Nat
  /-- (size, errors) of each bimodal table -/
  errBimodal : List (Nat × Nat)
  /-- (size, errors) of each gshare table -/
  errGshare : List (Nat × Nat)
  nUnknown : Nat
deriving DecidableEq, Repr

/-- The size and error count of a table. -/
def Table.score (t : Table) : Nat × Nat := (t.size, t.err)

/-- The report, available when the core is halted (R38). A faulted run has none, since a fault leaves the core running (R130). -/
def State.report (s : State) : Option Report :=
  match s.runState with
  | .running => none
  | .halted =>
    some { nInsn := s.nInsn
           nCtl := s.bank.nCtl
           errNt := s.bank.errNt
           errBtfnt := s.bank.errBtfnt
           errBimodal := s.bank.bimodal.map Table.score
           errGshare := s.bank.gshare.map Table.score
           nUnknown := s.nUnknown }

end Sys2Proof.Machine
end

