-- ==== Sys2Proof/Machine/Trace.lean ====
section
/-! DEFINITION. The optional trace record of a step (`60_exceptions.md` R366; `44_load_store.md` R209). It is computed from the state before
the step, changes nothing, and no rule of the machine reads it. -/

namespace Sys2Proof.Machine

/-- What one record carries (R366, R283). -/
structure TraceRecord where
  /-- the running instruction count -/
  count : Nat
  /-- the address of the instruction -/
  pc : Word
  /-- the raw instruction word -/
  word : Word
  /-- for a control transfer, (`is_branch`, `taken`) -/
  transfer : Option (Bool × Bool)
  /-- for a store, `address <- value` -/
  store : Option (Word × Word)
  /-- for a load, `R[index] <- value` -/
  load : Option (Reg × Word)
deriving DecidableEq, Repr

/-- (`is_branch`, `taken`) of a control transfer (R220 to R228). -/
def transferOf (i : Instr) (s : State) : Option (Bool × Bool) :=
  match i with
  | .beq rs1 rs2 _ => some (true, condEq (s.reg rs1) (s.reg rs2))
  | .bne rs1 rs2 _ => some (true, !condEq (s.reg rs1) (s.reg rs2))
  | .blt rs1 rs2 _ => some (true, condLtSigned (s.reg rs1) (s.reg rs2))
  | .bge rs1 rs2 _ => some (true, !condLtSigned (s.reg rs1) (s.reg rs2))
  | .bltu rs1 rs2 _ => some (true, condLtUnsigned (s.reg rs1) (s.reg rs2))
  | .bgeu rs1 rs2 _ => some (true, !condLtUnsigned (s.reg rs1) (s.reg rs2))
  | .jal .. | .jalr .. => some (false, true)
  | .lui .. | .auipc .. | .lb .. | .lh .. | .lw .. | .lbu .. | .lhu .. | .sb .. | .sh .. | .sw .. => none
  | .addi .. | .slti .. | .sltiu .. | .xori .. | .ori .. | .andi .. | .slli .. | .srli .. | .srai .. => none
  | .add .. | .sub .. | .sll .. | .slt .. | .sltu .. | .xor .. | .srl .. | .sra .. | .or .. | .and .. => none
  | .mul .. | .mulh .. | .mulhsu .. | .mulhu .. | .div .. | .divu .. | .rem .. | .remu .. | .ecall => none

/-- The stored value as the trace shows it: whole, or the low `n` bits; the spec does not say which (R209, N14). -/
def tracedStore (v : Word) (n : Nat) : Word :=
  if Config.traceStoreTruncated then (v.setWidth n).setWidth 32 else v

/-- The address and the shown value of a store. -/
def storeOf (i : Instr) (s : State) : Option (Word × Word) :=
  match i with
  | .sb rs1 rs2 imm => some (dataAddr s rs1 imm, tracedStore (s.reg rs2) 8)
  | .sh rs1 rs2 imm => some (dataAddr s rs1 imm, tracedStore (s.reg rs2) 16)
  | .sw rs1 rs2 imm => some (dataAddr s rs1 imm, tracedStore (s.reg rs2) 32)
  | .lui .. | .auipc .. | .jal .. | .jalr .. | .beq .. | .bne .. | .blt .. | .bge .. | .bltu .. | .bgeu .. => none
  | .lb .. | .lh .. | .lw .. | .lbu .. | .lhu .. => none
  | .addi .. | .slti .. | .sltiu .. | .xori .. | .ori .. | .andi .. | .slli .. | .srli .. | .srai .. => none
  | .add .. | .sub .. | .sll .. | .slt .. | .sltu .. | .xor .. | .srl .. | .sra .. | .or .. | .and .. => none
  | .mul .. | .mulh .. | .mulhsu .. | .mulhu .. | .div .. | .divu .. | .rem .. | .remu .. | .ecall => none

/-- The register and the extended value of a load, where the read succeeds. -/
def loadOf (i : Instr) (s : State) : Option (Reg × Word) :=
  match i with
  | .lb rd rs1 imm => (readLb s (dataAddr s rs1 imm)).toOption.map (fun v => (rd, v))
  | .lh rd rs1 imm => (readLh s (dataAddr s rs1 imm)).toOption.map (fun v => (rd, v))
  | .lw rd rs1 imm => (readLw s (dataAddr s rs1 imm)).toOption.map (fun v => (rd, v))
  | .lbu rd rs1 imm => (readLbu s (dataAddr s rs1 imm)).toOption.map (fun v => (rd, v))
  | .lhu rd rs1 imm => (readLhu s (dataAddr s rs1 imm)).toOption.map (fun v => (rd, v))
  | .lui .. | .auipc .. | .jal .. | .jalr .. | .beq .. | .bne .. | .blt .. | .bge .. | .bltu .. | .bgeu .. => none
  | .sb .. | .sh .. | .sw .. => none
  | .addi .. | .slti .. | .sltiu .. | .xori .. | .ori .. | .andi .. | .slli .. | .srli .. | .srai .. => none
  | .add .. | .sub .. | .sll .. | .slt .. | .sltu .. | .xor .. | .srl .. | .sra .. | .or .. | .and .. => none
  | .mul .. | .mulh .. | .mulhsu .. | .mulhu .. | .div .. | .divu .. | .rem .. | .remu .. | .ecall => none

/-- The record of an unknown word: no transfer, store or load. -/
def traceBase (s : State) (w : Word) : TraceRecord where
  count := s.nInsn + Config.traceFirstCount.val
  pc := s.pc
  word := w
  transfer := none
  store := none
  load := none

/-- The record of an instruction. -/
def traceInstr (s : State) (w : Word) (i : Instr) : TraceRecord :=
  { traceBase s w with transfer := transferOf i s, store := storeOf i s, load := loadOf i s }

/-- The record of the step from a state; none where the step faults ("a faulting step produces no record") or there is no step. -/
def traceOf (s : State) : Option TraceRecord :=
  match step s, s.fetch with
  | .next _, .ok w =>
    match decode w with
    | .ok i => some (traceInstr s w i)
    | .error _ => some (traceBase s w)
  | _, _ => none

end Sys2Proof.Machine
end

