-- ==== Sys2Proof/Safety.lean ====
section
/-! DEFINITION. What claims use: well-formed parameters, the invariant of a state, reachability, safe and halting runs,
frames, who touches what, encoding patterns. -/

namespace Sys2Proof

/-- What an instruction touches beside one register and the `pc`. -/
inductive Shape where
  /-- writes a register from registers, the `pc` and an immediate: the ALU, multiply, divide and upper-immediate instructions -/
  | compute
  /-- the five loads -/
  | load
  /-- the three stores -/
  | store
  /-- the six conditional branches -/
  | branch
  /-- JAL and JALR -/
  | jump
  /-- ECALL -/
  | system
deriving DecidableEq, Repr

/-- The shape of an instruction. -/
def Instr.shape : Instr → Shape
  | .lui .. | .auipc .. => .compute
  | .addi .. | .slti .. | .sltiu .. | .xori .. | .ori .. | .andi .. | .slli .. | .srli .. | .srai .. => .compute
  | .add .. | .sub .. | .sll .. | .slt .. | .sltu .. | .xor .. | .srl .. | .sra .. | .or .. | .and .. => .compute
  | .mul .. | .mulh .. | .mulhsu .. | .mulhu .. | .div .. | .divu .. | .rem .. | .remu .. => .compute
  | .lb .. | .lh .. | .lw .. | .lbu .. | .lhu .. => .load
  | .sb .. | .sh .. | .sw .. => .store
  | .beq .. | .bne .. | .blt .. | .bge .. | .bltu .. | .bgeu .. => .branch
  | .jal .. | .jalr .. => .jump
  | .ecall => .system

/-- A table size: a power of two (R271). -/
def isPow2 (n : Nat) : Bool := decide (n = 2 ^ Nat.log2 n)

/-- A region lies in the 32-bit address space (R50). -/
def Region.wf (r : Region) : Bool := decide (r.base + r.size ≤ 2 ^ 32)

/-- The parameters are well formed, as the host must make them (U27, R384): sizes are powers of two, `MAPPED` and `INIT_MEM` are sets of
32-bit addresses. -/
def Params.wf (p : Params) : Bool :=
  p.bimodalSizes.all isPow2 && p.gshareSizes.all isPow2 && p.mapped.all Region.wf && Machine.Memory.wf p.initMem

namespace Machine

/-- A table is a table of `n` counters, `n` a power of two, in canonical form, and has erred at most once per observation (R39, R271, R282). -/
def Table.wf (init : Ctr) (nCtl : Nat) (t : Table) : Bool :=
  isPow2 t.size && Sparse.canonical init t.cells && t.cells.all (fun p => decide (p.1 < t.size)) && decide (t.err ≤ nCtl)

/-- "For each scheme `err <= n_ctl` at all times" (R282), and every table is well formed. -/
def Bank.wf (b : Bank) : Bool :=
  decide (b.errNt ≤ b.nCtl) && decide (b.errBtfnt ≤ b.nCtl) &&
    b.bimodal.all (Table.wf b.ctrInit b.nCtl) && b.gshare.all (Table.wf b.ctrInit b.nCtl)

/-- "For each scheme `err <= n_ctl`" (R282). -/
def Bank.ErrorsBounded (b : Bank) : Prop :=
  b.errNt ≤ b.nCtl ∧ b.errBtfnt ≤ b.nCtl ∧ (∀ t ∈ b.bimodal, t.err ≤ b.nCtl) ∧ (∀ t ∈ b.gshare, t.err ≤ b.nCtl)

/-- The invariant of the machine: `x[0]` is 0 (R21), the `pc` is even (R27, R229), memory is canonical, the mapped set lies in the address
space, the bank is well formed, every observation and every unknown word is a counted instruction (R33, R34, R36), and the input position
is within the input (R252). -/
structure State.Inv (s : State) : Prop where
  x0 : s.reg 0 = 0#32
  pcEven : s.pc.toNat % 2 = 0
  mem : Memory.wf s.mem = true
  mapped : s.mapped.all Region.wf = true
  bank : s.bank.wf = true
  counts : s.bank.nCtl + s.nUnknown ≤ s.nInsn
  input : s.inputPos ≤ s.input.length

/-- `t` is reached from `s` by steps. -/
inductive Reaches : State → State → Prop where
  | refl (s : State) : Reaches s s
  | tail {s t u : State} : Reaches s t → step t = .next u → Reaches s u

/-- A run that never faults. -/
def SafeRun (s : State) : Prop := ∀ t, Reaches s t → ∀ f, step t ≠ .fault f

/-- A run that ends in the halt, at `t`. -/
def HaltsAt (s t : State) : Prop := Reaches s t ∧ t.runState = .halted

/-- The premise under which a claim is a claim about the original program too: no unknown word was executed (R36). -/
def Faithful (t : State) : Prop := t.nUnknown = 0

/-! ### What a step leaves as it was -/

/-- Every byte of memory reads as before. -/
def SameBytes (s t : State) : Prop := ∀ a : Word, t.byteAt a = s.byteAt a

/-- `x[0]` reads 0 and every other register is as before. -/
def SameRegs (s t : State) : Prop := t.reg 0 = 0#32 ∧ ∀ r : Reg, r ≠ 0 → t.reg r = s.reg r

/-- `x[0]` reads 0 and every other register but `rd` is as before. -/
def SameRegsBut (rd : Reg) (s t : State) : Prop := t.reg 0 = 0#32 ∧ ∀ r : Reg, r ≠ 0 → r ≠ rd → t.reg r = s.reg r

/-- Everything of the state but registers, `pc`, `n_insn`, memory bytes and the bank is as before. -/
structure SameElse (s t : State) : Prop where
  nUnknown : t.nUnknown = s.nUnknown
  runState : t.runState = s.runState
  mapped : t.mapped = s.mapped
  input : t.input = s.input
  inputTail : t.inputTail = s.inputTail
  inputPos : t.inputPos = s.inputPos
  eofValue : t.eofValue = s.eofValue
  output : t.output = s.output

/-- The next sequential instruction is next, and one more instruction is counted. -/
def Advances (s t : State) : Prop := t.pc.toNat = (s.pc.toNat + 4) % 2 ^ 32 ∧ t.nInsn = s.nInsn + 1

/-- The instruction runs from every state, delivers `v s` in `rd` (nowhere when `rd` is 0) and changes nothing else. -/
def WritesOnly (i : Instr) (rd : Reg) (v : State → Word) : Prop :=
  ∀ s : State, ∃ t : State, exec i s = .next t ∧ (rd ≠ 0 → t.reg rd = v s) ∧ SameRegsBut rd s t ∧ Advances s t ∧
    SameBytes s t ∧ t.bank = s.bank ∧ SameElse s t

/-- The `n` bytes at an address are all in `MAPPED`. -/
def BytesMapped (s : State) (a : Word) (n : Nat) : Prop := ∀ k : Nat, k < n → s.isMapped (a + BitVec.ofNat 32 k) = true

/-- The load of `n` bytes runs where its address is a multiple of `n` and its bytes are mapped; it delivers `v s ea` in `rd` and changes
nothing else. -/
def LoadsOnly (i : Instr) (rd rs1 : Reg) (imm : Word) (n : Nat) (v : State → Word → Word) : Prop :=
  ∀ s : State, (dataAddr s rs1 imm).toNat % n = 0 → BytesMapped s (dataAddr s rs1 imm) n →
    ∃ t : State, exec i s = .next t ∧ (rd ≠ 0 → t.reg rd = v s (dataAddr s rs1 imm)) ∧ SameRegsBut rd s t ∧ Advances s t ∧
      SameBytes s t ∧ t.bank = s.bank ∧ SameElse s t

/-- The store of `n` bytes runs where its address is a multiple of `n` and its bytes are mapped; byte `k` of `x[rs2]` is then at the
address plus `k`, every other byte and everything else is as before. -/
def StoresOnly (i : Instr) (rs1 rs2 : Reg) (imm : Word) (n : Nat) : Prop :=
  ∀ s : State, (dataAddr s rs1 imm).toNat % n = 0 → BytesMapped s (dataAddr s rs1 imm) n →
    ∃ t : State, exec i s = .next t ∧
      (∀ k : Nat, k < n → t.byteAt (dataAddr s rs1 imm + BitVec.ofNat 32 k) = (s.reg rs2).extractLsb' (8 * k) 8) ∧
      (∀ a : Word, (∀ k : Nat, k < n → a ≠ dataAddr s rs1 imm + BitVec.ofNat 32 k) → t.byteAt a = s.byteAt a) ∧
      SameRegs s t ∧ Advances s t ∧ t.bank = s.bank ∧ SameElse s t

/-- The branch runs from every state: it goes to its own address plus `imm` where `c` holds, else to the next instruction, and is observed
as a branch with that target, taken exactly where `c` holds; it changes nothing else. -/
def BranchesWhen (i : Instr) (imm : Word) (c : State → Prop) : Prop :=
  ∀ s : State, ∃ (t : State) (taken : Bool), exec i s = .next t ∧ (taken = true ↔ c s) ∧
    (c s → t.pc = BitVec.ofInt 32 ((s.pc.toNat : Int) + imm.toInt)) ∧
    (¬ c s → t.pc.toNat = (s.pc.toNat + 4) % 2 ^ 32) ∧
    t.bank = s.bank.observe s.pc (BitVec.ofInt 32 ((s.pc.toNat : Int) + imm.toInt)) true taken ∧
    t.nInsn = s.nInsn + 1 ∧ SameRegs s t ∧ SameBytes s t ∧ SameElse s t

/-- The jump runs from every state: it goes to `target s`, leaves the address of the next instruction in `rd` (nowhere when `rd` is 0) and
is observed as a taken jump; it changes nothing else. -/
def JumpsTo (i : Instr) (rd : Reg) (target : State → Word) : Prop :=
  ∀ s : State, ∃ t : State, exec i s = .next t ∧ t.pc = target s ∧
    (rd ≠ 0 → (t.reg rd).toNat = (s.pc.toNat + 4) % 2 ^ 32) ∧ SameRegsBut rd s t ∧ t.nInsn = s.nInsn + 1 ∧
    t.bank = s.bank.observe s.pc (target s) false true ∧ SameBytes s t ∧ SameElse s t

/-! ### Who touches what -/

/-- The `rd` field of an instruction that has one (R24, R83). -/
def destOf : Instr → Option Reg
  | .lui rd _ | .auipc rd _ | .jal rd _ | .jalr rd _ _ => some rd
  | .lb rd _ _ | .lh rd _ _ | .lw rd _ _ | .lbu rd _ _ | .lhu rd _ _ => some rd
  | .addi rd _ _ | .slti rd _ _ | .sltiu rd _ _ | .xori rd _ _ | .ori rd _ _ | .andi rd _ _ => some rd
  | .slli rd _ _ | .srli rd _ _ | .srai rd _ _ => some rd
  | .add rd _ _ | .sub rd _ _ | .sll rd _ _ | .slt rd _ _ | .sltu rd _ _ | .xor rd _ _ | .srl rd _ _ | .sra rd _ _ => some rd
  | .or rd _ _ | .and rd _ _ => some rd
  | .mul rd _ _ | .mulh rd _ _ | .mulhsu rd _ _ | .mulhu rd _ _ | .div rd _ _ | .divu rd _ _ | .rem rd _ _ | .remu rd _ _ => some rd
  | .beq .. | .bne .. | .blt .. | .bge .. | .bltu .. | .bgeu .. | .sb .. | .sh .. | .sw .. | .ecall => none

/-- The address and width of an instruction's data access, where it makes one (R50, R200). -/
def accessOf (i : Instr) (s : State) : Option (Word × Nat) :=
  match i with
  | .lb _ rs1 imm | .lbu _ rs1 imm => some (dataAddr s rs1 imm, 1)
  | .lh _ rs1 imm | .lhu _ rs1 imm => some (dataAddr s rs1 imm, 2)
  | .lw _ rs1 imm => some (dataAddr s rs1 imm, 4)
  | .sb rs1 _ imm => some (dataAddr s rs1 imm, 1)
  | .sh rs1 _ imm => some (dataAddr s rs1 imm, 2)
  | .sw rs1 _ imm => some (dataAddr s rs1 imm, 4)
  | .lui .. | .auipc .. | .jal .. | .jalr .. | .beq .. | .bne .. | .blt .. | .bge .. | .bltu .. | .bgeu .. => none
  | .addi .. | .slti .. | .sltiu .. | .xori .. | .ori .. | .andi .. | .slli .. | .srli .. | .srai .. => none
  | .add .. | .sub .. | .sll .. | .slt .. | .sltu .. | .xor .. | .srl .. | .sra .. | .or .. | .and .. => none
  | .mul .. | .mulh .. | .mulhsu .. | .mulhu .. | .div .. | .divu .. | .rem .. | .remu .. | .ecall => none

/-- The extended value of the bytes that a load reads, lowest address first (R51, R201 to R205). -/
def loadedValue (i : Instr) (s : State) : Option Word :=
  match i with
  | .lb _ rs1 imm => some (BitVec.ofInt 32 (s.byteAt (dataAddr s rs1 imm)).toInt)
  | .lh _ rs1 imm =>
    some (BitVec.ofInt 32 ((s.byteAt (dataAddr s rs1 imm + 1#32)).toInt * 256 + (s.byteAt (dataAddr s rs1 imm)).toNat))
  | .lw _ rs1 imm =>
    some (BitVec.ofNat 32 ((s.byteAt (dataAddr s rs1 imm)).toNat + 256 * (s.byteAt (dataAddr s rs1 imm + 1#32)).toNat +
      65536 * (s.byteAt (dataAddr s rs1 imm + 2#32)).toNat + 16777216 * (s.byteAt (dataAddr s rs1 imm + 3#32)).toNat))
  | .lbu _ rs1 imm => some (BitVec.ofNat 32 (s.byteAt (dataAddr s rs1 imm)).toNat)
  | .lhu _ rs1 imm =>
    some (BitVec.ofNat 32 ((s.byteAt (dataAddr s rs1 imm)).toNat + 256 * (s.byteAt (dataAddr s rs1 imm + 1#32)).toNat))
  | .sb .. | .sh .. | .sw .. => none
  | .lui .. | .auipc .. | .jal .. | .jalr .. | .beq .. | .bne .. | .blt .. | .bge .. | .bltu .. | .bgeu .. => none
  | .addi .. | .slti .. | .sltiu .. | .xori .. | .ori .. | .andi .. | .slli .. | .srli .. | .srai .. => none
  | .add .. | .sub .. | .sll .. | .slt .. | .sltu .. | .xor .. | .srl .. | .sra .. | .or .. | .and .. => none
  | .mul .. | .mulh .. | .mulhsu .. | .mulhu .. | .div .. | .divu .. | .rem .. | .remu .. | .ecall => none

/-- The register that a store stores from (R206 to R208). -/
def storedReg : Instr → Option Reg
  | .sb _ rs2 _ | .sh _ rs2 _ | .sw _ rs2 _ => some rs2
  | .lb .. | .lh .. | .lw .. | .lbu .. | .lhu .. => none
  | .lui .. | .auipc .. | .jal .. | .jalr .. | .beq .. | .bne .. | .blt .. | .bge .. | .bltu .. | .bgeu .. => none
  | .addi .. | .slti .. | .sltiu .. | .xori .. | .ori .. | .andi .. | .slli .. | .srli .. | .srai .. => none
  | .add .. | .sub .. | .sll .. | .slt .. | .sltu .. | .xor .. | .srl .. | .sra .. | .or .. | .and .. => none
  | .mul .. | .mulh .. | .mulhsu .. | .mulhu .. | .div .. | .divu .. | .rem .. | .remu .. | .ecall => none

/-- The word a step of the state fetches: running, the `pc` a multiple of 4, its four bytes mapped, and the word stored there. -/
def Fetches (s : State) (w : Word) : Prop :=
  s.runState = .running ∧ s.pc.toNat % 4 = 0 ∧ BytesMapped s s.pc 4 ∧
    w = wordOfBytes (s.byteAt s.pc) (s.byteAt (s.pc + 1#32)) (s.byteAt (s.pc + 2#32)) (s.byteAt (s.pc + 3#32))

/-- The store of `n` bytes runs where its address lies in the four bytes of the next sequential instruction, at a multiple of `n` from their
start, and these are mapped; the next fetch then sees the stored bytes with the untouched ones, and the next step runs what they decode to. -/
def NextFetchSees (i : Instr) (rs1 rs2 : Reg) (imm : Word) (n : Nat) : Prop :=
  ∀ (s : State) (k : Nat), s.runState = .running → s.pc.toNat % 4 = 0 → BytesMapped s (s.pc + 4#32) 4 → k < 4 → k % n = 0 →
    dataAddr s rs1 imm = s.pc + 4#32 + BitVec.ofNat 32 k →
    ∃ (t : State) (w : Word), exec i s = .next t ∧ Fetches t w ∧
      (∀ j : Nat, j < 4 → w.extractLsb' (8 * j) 8 =
        if k ≤ j ∧ j < k + n then (s.reg rs2).extractLsb' (8 * (j - k)) 8 else s.byteAt (s.pc + 4#32 + BitVec.ofNat 32 j)) ∧
      (∀ i' : Instr, decode w = .ok i' → step t = exec i' t) ∧
      (∀ e : Reject, decode w = .error e → step t = execUnknown t)

/-- Two outcomes that agree but for the bank. -/
def AgreeButBank : Result → Result → Prop
  | .next t, .next u => u = { t with bank := u.bank }
  | .fault f, .fault g => f = g
  | .refused r, .refused q => r = q
  | .next _, .fault _ | .next _, .refused _ | .fault _, .next _ | .fault _, .refused _ | .refused _, .next _ | .refused _, .fault _ => False

end Machine

/-! ### Encoding patterns (R83): the words an instruction has, written as the spec writes them -/

/-- `funct7 rs2 rs1 funct3 rd 0110011`. -/
def PatternR (f7 : BitVec 7) (f3 : BitVec 3) (mk : Reg → Reg → Reg → Instr) : Prop :=
  ∀ rs2 rs1 rd : BitVec 5, decode (f7 ++ rs2 ++ rs1 ++ f3 ++ rd ++ 0b0110011#7) = .ok (mk rd.toFin rs1.toFin rs2.toFin)

/-- `imm[11:0] rs1 funct3 rd opcode`. -/
def PatternI (f3 : BitVec 3) (op : BitVec 7) (mk : Reg → Reg → Word → Instr) : Prop :=
  ∀ (imm : BitVec 12) (rs1 rd : BitVec 5), decode (imm ++ rs1 ++ f3 ++ rd ++ op) = .ok (mk rd.toFin rs1.toFin (imm.signExtend 32))

/-- `funct7 shamt rs1 funct3 rd 0010011`. -/
def PatternShift (f7 : BitVec 7) (f3 : BitVec 3) (mk : Reg → Reg → BitVec 5 → Instr) : Prop :=
  ∀ shamt rs1 rd : BitVec 5, decode (f7 ++ shamt ++ rs1 ++ f3 ++ rd ++ 0b0010011#7) = .ok (mk rd.toFin rs1.toFin shamt)

/-- `imm[11:5] rs2 rs1 funct3 imm[4:0] 0100011`. -/
def PatternS (f3 : BitVec 3) (mk : Reg → Reg → Word → Instr) : Prop :=
  ∀ (hi : BitVec 7) (rs2 rs1 lo : BitVec 5),
    decode (hi ++ rs2 ++ rs1 ++ f3 ++ lo ++ 0b0100011#7) = .ok (mk rs1.toFin rs2.toFin ((hi ++ lo).signExtend 32))

/-- `imm[12] imm[10:5] rs2 rs1 funct3 imm[4:1] imm[11] 1100011`. -/
def PatternB (f3 : BitVec 3) (mk : Reg → Reg → Word → Instr) : Prop :=
  ∀ (b12 : BitVec 1) (b10 : BitVec 6) (rs2 rs1 : BitVec 5) (b4 : BitVec 4) (b11 : BitVec 1),
    decode (b12 ++ b10 ++ rs2 ++ rs1 ++ f3 ++ b4 ++ b11 ++ 0b1100011#7) =
      .ok (mk rs1.toFin rs2.toFin ((b12 ++ b11 ++ b10 ++ b4 ++ 0#1).signExtend 32))

/-- `imm[31:12] rd opcode`. -/
def PatternU (op : BitVec 7) (mk : Reg → Word → Instr) : Prop :=
  ∀ (imm : BitVec 20) (rd : BitVec 5), decode (imm ++ rd ++ op) = .ok (mk rd.toFin (imm ++ 0#12))

/-- `imm[20] imm[10:1] imm[11] imm[19:12] rd 1101111`. -/
def PatternJ (mk : Reg → Word → Instr) : Prop :=
  ∀ (b20 : BitVec 1) (b10 : BitVec 10) (b11 : BitVec 1) (b19 : BitVec 8) (rd : BitVec 5),
    decode (b20 ++ b10 ++ b11 ++ b19 ++ rd ++ 0b1101111#7) = .ok (mk rd.toFin ((b20 ++ b19 ++ b11 ++ b10 ++ 0#1).signExtend 32))

/-- The operands of a decoded instruction are the extractor's outputs, each format with its own immediate (R82, R84 to R89). -/
def OperandsFrom (w : Word) : Instr → Prop
  | .lui rd v | .auipc rd v => rd = rdOf w ∧ v = immU w
  | .jal rd v => rd = rdOf w ∧ v = immJ w
  | .jalr rd rs1 v => rd = rdOf w ∧ rs1 = rs1Of w ∧ v = immI w
  | .beq rs1 rs2 v | .bne rs1 rs2 v | .blt rs1 rs2 v | .bge rs1 rs2 v | .bltu rs1 rs2 v | .bgeu rs1 rs2 v =>
    rs1 = rs1Of w ∧ rs2 = rs2Of w ∧ v = immB w
  | .lb rd rs1 v | .lh rd rs1 v | .lw rd rs1 v | .lbu rd rs1 v | .lhu rd rs1 v => rd = rdOf w ∧ rs1 = rs1Of w ∧ v = immI w
  | .sb rs1 rs2 v | .sh rs1 rs2 v | .sw rs1 rs2 v => rs1 = rs1Of w ∧ rs2 = rs2Of w ∧ v = immS w
  | .addi rd rs1 v | .slti rd rs1 v | .sltiu rd rs1 v | .xori rd rs1 v | .ori rd rs1 v | .andi rd rs1 v =>
    rd = rdOf w ∧ rs1 = rs1Of w ∧ v = immI w
  | .slli rd rs1 sh | .srli rd rs1 sh | .srai rd rs1 sh => rd = rdOf w ∧ rs1 = rs1Of w ∧ sh = shamtOf w
  | .add rd rs1 rs2 | .sub rd rs1 rs2 | .sll rd rs1 rs2 | .slt rd rs1 rs2 | .sltu rd rs1 rs2 | .xor rd rs1 rs2 =>
    rd = rdOf w ∧ rs1 = rs1Of w ∧ rs2 = rs2Of w
  | .srl rd rs1 rs2 | .sra rd rs1 rs2 | .or rd rs1 rs2 | .and rd rs1 rs2 => rd = rdOf w ∧ rs1 = rs1Of w ∧ rs2 = rs2Of w
  | .mul rd rs1 rs2 | .mulh rd rs1 rs2 | .mulhsu rd rs1 rs2 | .mulhu rd rs1 rs2 => rd = rdOf w ∧ rs1 = rs1Of w ∧ rs2 = rs2Of w
  | .div rd rs1 rs2 | .divu rd rs1 rs2 | .rem rd rs1 rs2 | .remu rd rs1 rs2 => rd = rdOf w ∧ rs1 = rs1Of w ∧ rs2 = rs2Of w
  | .ecall => w = 0x00000073#32

end Sys2Proof
end

