-- ==== Sys2Proof/Certificates/Slice0/Obligations.lean ====
section
/-! DEFINITION. The statements. "Decision D<n>" is a decision of the spec (`92_eei_decisions.md`); "log <n>" is a choice of the model
(`notes/assumptions/<n>.md`). The frames and patterns are in `Sys2Proof/Safety.lean`. -/

open Sys2Proof Sys2Proof.Machine

/-! ### Reset and the start state -/

/-- The "reset value" column of R48 for every choice of the parameters of R7 (R44 to R47; decisions D4 to D7 and D26), and the parameters
the machine consults afterwards (R380): `MAPPED`, `INPUT` with what follows it, `EOF_VALUE`, `CTR_INIT` are the host's. -/
def Obligations.BootLeavesResetColumn : Prop :=
  ∀ p : Params,
    (State.boot p).reg 0 = 0#32 ∧ (∀ r : Reg, r ≠ 0 → (State.boot p).reg r = p.initX.get r) ∧
    (State.boot p).pc = p.entryPc ∧ (State.boot p).nInsn = 0 ∧ (State.boot p).nUnknown = 0 ∧
    (State.boot p).runState = .running ∧
    (State.boot p).bank.nCtl = 0 ∧ (State.boot p).bank.errNt = 0 ∧ (State.boot p).bank.errBtfnt = 0 ∧
    (State.boot p).bank.bimodal.map Table.size = p.bimodalSizes ∧
    (State.boot p).bank.gshare.map Table.size = p.gshareSizes ∧
    (∀ t ∈ (State.boot p).bank.bimodal ++ (State.boot p).bank.gshare,
      t.err = 0 ∧ ∀ i : Nat, t.ctr (State.boot p).bank.ctrInit i = p.ctrInit) ∧
    (State.boot p).bank.ghr = 0#16 ∧
    (∀ a : Word, (State.boot p).byteAt a = Sparse.get Config.unlistedByte p.initMem a.toNat) ∧
    (State.boot p).inputPos = 0 ∧ (State.boot p).output = [] ∧
    (State.boot p).mapped = p.mapped ∧ (State.boot p).input = p.input ∧ (State.boot p).inputTail = p.inputTail ∧
    (State.boot p).eofValue = p.eofValue ∧ (State.boot p).bank.ctrInit = p.ctrInit

/-- The invariant holds after reset (the reset values are those of log 2 to 8). -/
def Obligations.ResetMeetsInvariant : Prop := State.reset.Inv

/-- The invariant holds at the start of every run whose parameters are well formed and whose entry address is even. -/
def Obligations.BootMeetsInvariant : Prop :=
  ∀ p : Params, p.wf = true → p.entryPc.toNat % 2 = 0 → (State.boot p).Inv

/-! ### Encoding and decoding -/

/-- Words of the spec's worked examples (files `41_` to `47_`), at least one of every family, decode to the instruction they stand for. -/
def Obligations.DecodeSpecExampleWords : Prop :=
  decode 0x002081B3#32 = .ok (.add 3 1 2) ∧ decode 0x4020D1B3#32 = .ok (.sra 3 1 2) ∧
  decode 0x80010093#32 = .ok (.addi 1 2 0xFFFFF800#32) ∧ decode 0x41F15093#32 = .ok (.srai 1 2 31#5) ∧
  decode 0x0220A1B3#32 = .ok (.mulhsu 3 1 2) ∧ decode 0x0220E1B3#32 = .ok (.rem 3 1 2) ∧
  decode 0xFFF02283#32 = .ok (.lw 5 0 0xFFFFFFFF#32) ∧ decode 0x00635283#32 = .ok (.lhu 5 6 6#32) ∧
  decode 0xFE732C23#32 = .ok (.sw 6 7 0xFFFFFFF8#32) ∧ decode 0xFE209CE3#32 = .ok (.bne 1 2 0xFFFFFFF8#32) ∧
  decode 0x800000EF#32 = .ok (.jal 1 0xFFF00000#32) ∧ decode 0x004080E7#32 = .ok (.jalr 1 1 4#32) ∧
  decode 0x123452B7#32 = .ok (.lui 5 0x12345000#32) ∧ decode 0xFFFFF297#32 = .ok (.auipc 5 0xFFFFF000#32) ∧
  decode 0x00000073#32 = .ok .ecall ∧ decode 0x00100073#32 = .error .systemWord ∧ decode 0x0FF0000F#32 = .error .noSuchOpcode

/-- Every well-formed instruction, with every operand it can carry, is what its encoding decodes to (R83, R91). -/
def Obligations.DecodeOfEncodeIsInstruction : Prop :=
  ∀ i : Instr, i.wf = true → decode (encode i) = .ok i

/-- Every word that decodes is the encoding of what it decodes to, and what it decodes to is well formed: no bit of an instruction word is
ignored (R82 to R89, R103). -/
def Obligations.EncodeOfDecodeIsWord : Prop :=
  ∀ (w : Word) (i : Instr), decode w = .ok i → i.wf = true ∧ encode i = w

/-- R91 in its own terms: a word whose bits are placed as R91 places the value's bits gives the value back, format by format. -/
def Obligations.ImmediateRoundTrip : Prop :=
  (∀ (w v : Word), -2048 ≤ v.toInt → v.toInt ≤ 2047 →
    w.extractLsb' 20 12 = v.extractLsb' 0 12 → (immI w).toInt = v.toInt) ∧
  (∀ (w v : Word), -2048 ≤ v.toInt → v.toInt ≤ 2047 →
    w.extractLsb' 25 7 = v.extractLsb' 5 7 → w.extractLsb' 7 5 = v.extractLsb' 0 5 → (immS w).toInt = v.toInt) ∧
  (∀ (w v : Word), -4096 ≤ v.toInt → v.toInt ≤ 4094 → v.toInt % 2 = 0 →
    w.extractLsb' 31 1 = v.extractLsb' 12 1 → w.extractLsb' 25 6 = v.extractLsb' 5 6 →
    w.extractLsb' 8 4 = v.extractLsb' 1 4 → w.extractLsb' 7 1 = v.extractLsb' 11 1 → (immB w).toInt = v.toInt) ∧
  (∀ (w v : Word), v.toInt % 4096 = 0 → w.extractLsb' 12 20 = v.extractLsb' 12 20 → (immU w).toInt = v.toInt) ∧
  (∀ (w v : Word), -1048576 ≤ v.toInt → v.toInt ≤ 1048574 → v.toInt % 2 = 0 →
    w.extractLsb' 31 1 = v.extractLsb' 20 1 → w.extractLsb' 21 10 = v.extractLsb' 1 10 →
    w.extractLsb' 20 1 = v.extractLsb' 11 1 → w.extractLsb' 12 8 = v.extractLsb' 12 8 → (immJ w).toInt = v.toInt)

/-- Every bit of the five immediates by the instruction bit it comes from, their ranges, and which instructions use which
(R84 to R88; the spec marks the positions as general knowledge). -/
def Obligations.ImmediateBitsAndRanges : Prop :=
  (∀ (w : Word) (k : Nat), k < 32 → (immI w).getLsbD k = if k < 11 then w.getLsbD (20 + k) else w.getLsbD 31) ∧
  (∀ (w : Word) (k : Nat), k < 32 → (immS w).getLsbD k =
    if k < 5 then w.getLsbD (7 + k) else if k < 11 then w.getLsbD (20 + k) else w.getLsbD 31) ∧
  (∀ (w : Word) (k : Nat), k < 32 → (immB w).getLsbD k =
    if k = 0 then false else if k < 5 then w.getLsbD (7 + k) else if k < 11 then w.getLsbD (20 + k)
    else if k = 11 then w.getLsbD 7 else w.getLsbD 31) ∧
  (∀ (w : Word) (k : Nat), k < 32 → (immU w).getLsbD k = if k < 12 then false else w.getLsbD k) ∧
  (∀ (w : Word) (k : Nat), k < 32 → (immJ w).getLsbD k =
    if k = 0 then false else if k < 11 then w.getLsbD (20 + k) else if k = 11 then w.getLsbD 20
    else if k < 20 then w.getLsbD k else w.getLsbD 31) ∧
  (∀ w : Word, -2048 ≤ (immI w).toInt ∧ (immI w).toInt ≤ 2047) ∧
  (∀ w : Word, -2048 ≤ (immS w).toInt ∧ (immS w).toInt ≤ 2047) ∧
  (∀ w : Word, -4096 ≤ (immB w).toInt ∧ (immB w).toInt ≤ 4094 ∧ (immB w).toInt % 2 = 0) ∧
  (∀ w : Word, -2147483648 ≤ (immU w).toInt ∧ (immU w).toInt ≤ 2147479552 ∧ (immU w).toInt % 4096 = 0) ∧
  (∀ w : Word, -1048576 ≤ (immJ w).toInt ∧ (immJ w).toInt ≤ 1048574 ∧ (immJ w).toInt % 2 = 0) ∧
  (∀ (w : Word) (i : Instr), decode w = .ok i → OperandsFrom w i)

/-- The decoder agrees with the table of R102 read as masks and matches: 46 rows, pairwise disjoint; a word has the kind of the row it
matches and decodes to an instruction of that kind; a word that matches none is `UNKNOWN` (R101 to R104). -/
def Obligations.DecodeFollowsTable : Prop :=
  decodeTable.length = 46 ∧
  decodeTable.Pairwise (fun r q => ∀ w : Word, ¬ (r.matches w = true ∧ q.matches w = true)) ∧
  (∀ w : Word, ∀ r ∈ decodeTable, r.matches w = true → ∃ i : Instr, decode w = .ok i ∧ i.kind = r.kind) ∧
  (∀ w : Word, (∀ r ∈ decodeTable, r.matches w = false) → kindOf w = .unknown ∧ ∃ e : Reject, decode w = .error e)

/-- "The unknown words are exactly" the classes (a) to (h) of R104; the disassembler prints its marker on exactly these. -/
def Obligations.UnknownWordsExactly : Prop :=
  ∀ (w addr : Word),
    ((∃ e : Reject, decode w = .error e) ↔
      (w.extractLsb' 0 7 ∉ [0b0110111#7, 0b0010111#7, 0b1101111#7, 0b1100111#7, 0b1100011#7, 0b0000011#7, 0b0100011#7, 0b0010011#7,
        0b0110011#7, 0b1110011#7]) ∨
      (w.extractLsb' 0 7 = 0b1100111#7 ∧ w.extractLsb' 12 3 ≠ 0b000#3) ∨
      (w.extractLsb' 0 7 = 0b1100011#7 ∧ w.extractLsb' 12 3 ∈ [0b010#3, 0b011#3]) ∨
      (w.extractLsb' 0 7 = 0b0000011#7 ∧ w.extractLsb' 12 3 ∈ [0b011#3, 0b110#3, 0b111#3]) ∨
      (w.extractLsb' 0 7 = 0b0100011#7 ∧ 3 ≤ (w.extractLsb' 12 3).toNat) ∨
      (w.extractLsb' 0 7 = 0b0010011#7 ∧
        ((w.extractLsb' 12 3 = 0b001#3 ∧ w.extractLsb' 25 7 ≠ 0b0000000#7) ∨
         (w.extractLsb' 12 3 = 0b101#3 ∧ w.extractLsb' 25 7 ∉ [0b0000000#7, 0b0100000#7]))) ∨
      (w.extractLsb' 0 7 = 0b0110011#7 ∧
        (w.extractLsb' 25 7 ∉ [0b0000000#7, 0b0100000#7, 0b0000001#7] ∨
         (w.extractLsb' 25 7 = 0b0100000#7 ∧ w.extractLsb' 12 3 ∉ [0b000#3, 0b101#3]))) ∨
      (w.extractLsb' 0 7 = 0b1110011#7 ∧ w ≠ 0x00000073#32)) ∧
    (disassemble addr w = .unknown ↔ ∃ e : Reject, decode w = .error e)

/-! ### The step -/

/-- A running core whose four bytes at the `pc` are mapped and decode to an instruction runs that instruction; nothing is added around
`exec`, which holds the commit (R122 to R127). -/
def Obligations.StepRunsDecodedInstruction : Prop :=
  (∀ (s : State) (i : Instr) (rest : List Byte), s.runState = .running → s.pc.toNat % 4 = 0 → BytesMapped s s.pc 4 →
    decodeBytes ([s.byteAt s.pc, s.byteAt (s.pc + 1#32), s.byteAt (s.pc + 2#32), s.byteAt (s.pc + 3#32)] ++ rest) = .ok (i, rest) →
    step s = exec i s) ∧
  (∀ (s : State) (w : Word) (i : Instr), Fetches s w → decode w = .ok i → step s = exec i s)

/-- Placing the encoding of a well-formed instruction at an aligned `pc` makes the very next step run it, and the placing changes only the
four bytes at the `pc` (and, where they were not mapped, maps them). The placing is the model's (log 12). -/
def Obligations.PlacedInstructionRuns : Prop :=
  ∀ (s t : State) (i : Instr), i.wf = true → s.runState = .running → s.pc.toNat % 4 = 0 →
    t = s.withFetchWord 32 (encode i).toNat →
    step t = exec i t ∧ t.x = s.x ∧ t.pc = s.pc ∧ t.nInsn = s.nInsn ∧ t.nUnknown = s.nUnknown ∧ t.runState = s.runState ∧
    t.bank = s.bank ∧ t.input = s.input ∧ t.inputTail = s.inputTail ∧ t.inputPos = s.inputPos ∧ t.eofValue = s.eofValue ∧
    t.output = s.output ∧ (∀ a : Word, (∀ k : Nat, k < 4 → a ≠ s.pc + BitVec.ofNat 32 k) → t.byteAt a = s.byteAt a ∧ t.isMapped a = s.isMapped a) ∧
    (BytesMapped s s.pc 4 → t.mapped = s.mapped)

/-- A word of kind `UNKNOWN` is a counted no-op (R129; decision D16). -/
def Obligations.UnknownIsCountedNoOp : Prop :=
  ∀ (s : State) (w : Word) (e : Reject), Fetches s w → decode w = .error e →
    ∃ t : State, step s = .next t ∧ t.nUnknown = s.nUnknown + 1 ∧ Advances s t ∧ SameRegs s t ∧ SameBytes s t ∧ t.bank = s.bank ∧
      t.runState = .running ∧ t.mapped = s.mapped ∧ t.input = s.input ∧ t.inputTail = s.inputTail ∧ t.inputPos = s.inputPos ∧
      t.eofValue = s.eofValue ∧ t.output = s.output

/-- The words of EBREAK, FENCE, FENCE.I, the CSR instructions, MRET, SRET, WFI and every other word of the opcodes SYSTEM and MISC-MEM but
ECALL's are unknown encodings (R257, R258; decisions D2, D17). -/
def Obligations.SystemWordsAreUnknown : Prop :=
  (∀ w : Word, w.extractLsb' 0 7 = 0b1110011#7 → w ≠ 0x00000073#32 → decode w = .error .systemWord) ∧
  (∀ w : Word, w.extractLsb' 0 7 = 0b0001111#7 → decode w = .error .noSuchOpcode) ∧
  (∀ (s : State) (w : Word), w = 0x00100073#32 ∨ w = 0x0FF0000F#32 → Fetches s w →
    ∃ t : State, step s = .next t ∧ t.nUnknown = s.nUnknown + 1 ∧ t.runState = .running)

/-- When a step faults, and with which fault: the order of R342, the conditions of the table of R341 (decisions D11, D13 to D15). No other
instruction and no other condition raises one. -/
def Obligations.FaultsExactly : Prop :=
  ∀ (s : State) (f : Fault), step s = .fault f ↔ s.runState = .running ∧
    ((s.pc.toNat % 4 ≠ 0 ∧ f = .fetchMisaligned s.pc) ∨
     (s.pc.toNat % 4 = 0 ∧ ¬ BytesMapped s s.pc 4 ∧ f = .unmapped s.pc) ∨
     (∃ (w : Word) (i : Instr) (ea : Word) (n : Nat), Fetches s w ∧ decode w = .ok i ∧ accessOf i s = some (ea, n) ∧
       ((ea.toNat % n ≠ 0 ∧ f = .dataMisaligned ea) ∨ (ea.toNat % n = 0 ∧ ¬ BytesMapped s ea n ∧ f = .unmapped ea))))

/-- No step completes exactly in `halted` (R120) and in a character read that the collaborator never answers (R132; "stuck in that step",
U15); the model then refuses by name (log 1, 13). -/
def Obligations.RefusesExactlyWhenHaltedOrWaiting : Prop :=
  ∀ (s : State) (r : Refusal), step s = .refused r ↔
    (s.runState = .halted ∧ r = .coreHalted) ∨
    (Fetches s 0x00000073#32 ∧ s.reg 17 = 1#32 ∧ s.input.length ≤ s.inputPos ∧ s.inputTail = .silent ∧ r = .awaitingInput)

/-- `n_insn` counts every step that does not fault; `n_unknown` counts exactly the unknown words and is never cleared (R33, R36; decisions
D16, D23). -/
def Obligations.EveryStepIsCounted : Prop :=
  ∀ (s t : State), step s = .next t →
    t.nInsn = s.nInsn + 1 ∧
    ∃ w : Word, Fetches s w ∧ (∀ i : Instr, decode w = .ok i → t.nUnknown = s.nUnknown) ∧
      (∀ e : Reject, decode w = .error e → t.nUnknown = s.nUnknown + 1)

/-! ### Whole-machine rules -/

/-- Every step that goes on keeps the invariant: `x[0]` reads 0, the `pc` is even, memory keeps its canonical form, the mapped set its
bounds, the bank its form and bounds, the counters their order, the input position its range. -/
def Obligations.StepKeepsInvariant : Prop :=
  ∀ s t : State, s.Inv → step s = .next t → t.Inv

/-- "Register 0 equals 0 after every simulator loop iteration" (R21), from every state; and a register that changes is the `rd` of the
instruction, or `x[10]` under ECALL service 1 (R24). -/
def Obligations.RegistersChangeOnlyAtDestination : Prop :=
  ∀ s t : State, step s = .next t → t.reg 0 = 0#32 ∧
    ∀ r : Reg, r ≠ 0 → t.reg r ≠ s.reg r →
      ∃ (w : Word) (i : Instr), Fetches s w ∧ decode w = .ok i ∧ (destOf i = some r ∨ (i = .ecall ∧ r = 10 ∧ s.reg 17 = 1#32))

/-- A byte that a step changes is one that a store of this step stores to (R53, R66). -/
def Obligations.MemoryChangesOnlyByStores : Prop :=
  ∀ (s t : State) (a : Word), step s = .next t → t.byteAt a ≠ s.byteAt a →
    ∃ (w : Word) (i : Instr) (ea : Word) (n k : Nat), Fetches s w ∧ decode w = .ok i ∧ i.shape = .store ∧
      accessOf i s = some (ea, n) ∧ k < n ∧ a = ea + BitVec.ofNat 32 k

/-- The parameters of a run are not written by any step (R7, R380). -/
def Obligations.ParametersNeverChange : Prop :=
  ∀ s t : State, step s = .next t →
    t.mapped = s.mapped ∧ t.input = s.input ∧ t.inputTail = s.inputTail ∧ t.eofValue = s.eofValue ∧ t.bank.ctrInit = s.bank.ctrInit ∧
    t.bank.bimodal.map Table.size = s.bank.bimodal.map Table.size ∧ t.bank.gshare.map Table.size = s.bank.gshare.map Table.size

/-- The input position and the output "are touched by ECALL and by nothing else" (R256), by services 1 and 2. -/
def Obligations.InputOutputOnlyByEcall : Prop :=
  ∀ s t : State, step s = .next t →
    (t.output = s.output ∧ t.inputPos = s.inputPos) ∨
    (Fetches s 0x00000073#32 ∧ s.reg 17 = 1#32 ∧ t.output = s.output ∧ t.inputPos = s.inputPos + 1) ∨
    (Fetches s 0x00000073#32 ∧ s.reg 17 = 2#32 ∧ t.inputPos = s.inputPos ∧ t.output = s.output ++ [(s.reg 10).extractLsb' 0 8])

/-- R231: the eight control transfers call `Observe` once per execution, taken or not; ECALL, unknown encodings and all others never. That
jumps count follows an assumption which the source flags as open. -/
def Obligations.OnlyControlTransfersAreObserved : Prop :=
  ∀ (s t : State) (w : Word), step s = .next t → Fetches s w →
    (∀ i : Instr, decode w = .ok i →
      i.kind ∈ [Kind.beq, Kind.bne, Kind.blt, Kind.bge, Kind.bltu, Kind.bgeu, Kind.jal, Kind.jalr] →
      ∃ (target : Word) (isBranch taken : Bool), t.bank = s.bank.observe s.pc target isBranch taken) ∧
    (∀ i : Instr, decode w = .ok i →
      i.kind ∉ [Kind.beq, Kind.bne, Kind.blt, Kind.bge, Kind.bltu, Kind.bgeu, Kind.jal, Kind.jalr] → t.bank = s.bank) ∧
    (∀ e : Reject, decode w = .error e → t.bank = s.bank)

/-- R281: two runs that start alike but for the bank stay alike but for the bank, for any number of steps, and stop alike. -/
def Obligations.BankNeverInfluencesExecution : Prop :=
  ∀ (k : Nat) (s : State) (b : Bank), AgreeButBank (Host.Core.run core k s) (Host.Core.run core k { s with bank := b })

/-! ### Register-register ALU -/

/-- R141, R142. -/
def Obligations.AddSubResults : Prop :=
  PatternR 0b0000000#7 0b000#3 .add ∧ PatternR 0b0100000#7 0b000#3 .sub ∧
  ∀ rd rs1 rs2 : Reg,
    WritesOnly (.add rd rs1 rs2) rd (fun s => BitVec.ofNat 32 ((s.reg rs1).toNat + (s.reg rs2).toNat)) ∧
    WritesOnly (.sub rd rs1 rs2) rd (fun s => BitVec.ofInt 32 (((s.reg rs1).toNat : Int) - ((s.reg rs2).toNat : Int)))

/-- R146, R149, R150: bit by bit. -/
def Obligations.BitwiseResults : Prop :=
  PatternR 0b0000000#7 0b100#3 .xor ∧ PatternR 0b0000000#7 0b110#3 .or ∧ PatternR 0b0000000#7 0b111#3 .and ∧
  ∀ rd rs1 rs2 : Reg, ∃ f g h : State → Word,
    WritesOnly (.xor rd rs1 rs2) rd f ∧ WritesOnly (.or rd rs1 rs2) rd g ∧ WritesOnly (.and rd rs1 rs2) rd h ∧
    ∀ (s : State) (k : Nat), k < 32 →
      (f s).getLsbD k = ((s.reg rs1).getLsbD k != (s.reg rs2).getLsbD k) ∧
      (g s).getLsbD k = ((s.reg rs1).getLsbD k || (s.reg rs2).getLsbD k) ∧
      (h s).getLsbD k = ((s.reg rs1).getLsbD k && (s.reg rs2).getLsbD k)

/-- R144, R145. -/
def Obligations.SetLessThanResults : Prop :=
  PatternR 0b0000000#7 0b010#3 .slt ∧ PatternR 0b0000000#7 0b011#3 .sltu ∧
  ∀ rd rs1 rs2 : Reg,
    WritesOnly (.slt rd rs1 rs2) rd (fun s => if (s.reg rs1).toInt < (s.reg rs2).toInt then 0x00000001#32 else 0x00000000#32) ∧
    WritesOnly (.sltu rd rs1 rs2) rd (fun s => if (s.reg rs1).toNat < (s.reg rs2).toNat then 0x00000001#32 else 0x00000000#32)

/-- R143, R147, R148: the amount is the low five bits of `x[rs2]` (decision D19). -/
def Obligations.RegisterShiftResults : Prop :=
  PatternR 0b0000000#7 0b001#3 .sll ∧ PatternR 0b0000000#7 0b101#3 .srl ∧ PatternR 0b0100000#7 0b101#3 .sra ∧
  ∀ rd rs1 rs2 : Reg,
    WritesOnly (.sll rd rs1 rs2) rd (fun s => BitVec.ofNat 32 ((s.reg rs1).toNat * 2 ^ ((s.reg rs2).toNat % 32))) ∧
    WritesOnly (.srl rd rs1 rs2) rd (fun s => BitVec.ofNat 32 ((s.reg rs1).toNat / 2 ^ ((s.reg rs2).toNat % 32))) ∧
    WritesOnly (.sra rd rs1 rs2) rd (fun s => BitVec.ofInt 32 ((s.reg rs1).toInt / 2 ^ ((s.reg rs2).toNat % 32)))

/-! ### Register-immediate ALU -/

/-- R161, R164, R165, R166. -/
def Obligations.ImmediateArithmeticResults : Prop :=
  PatternI 0b000#3 0b0010011#7 .addi ∧ PatternI 0b100#3 0b0010011#7 .xori ∧ PatternI 0b110#3 0b0010011#7 .ori ∧
  PatternI 0b111#3 0b0010011#7 .andi ∧
  ∀ (rd rs1 : Reg) (imm : Word),
    WritesOnly (.addi rd rs1 imm) rd (fun s => BitVec.ofInt 32 ((s.reg rs1).toInt + imm.toInt)) ∧
    ∃ f g h : State → Word,
      WritesOnly (.xori rd rs1 imm) rd f ∧ WritesOnly (.ori rd rs1 imm) rd g ∧ WritesOnly (.andi rd rs1 imm) rd h ∧
      ∀ (s : State) (k : Nat), k < 32 →
        (f s).getLsbD k = ((s.reg rs1).getLsbD k != imm.getLsbD k) ∧
        (g s).getLsbD k = ((s.reg rs1).getLsbD k || imm.getLsbD k) ∧
        (h s).getLsbD k = ((s.reg rs1).getLsbD k && imm.getLsbD k)

/-- R162, R163: the unsigned comparison too takes the sign-extended immediate (the spec marks this as general knowledge). -/
def Obligations.ImmediateSetLessThanResults : Prop :=
  PatternI 0b010#3 0b0010011#7 .slti ∧ PatternI 0b011#3 0b0010011#7 .sltiu ∧
  ∀ (rd rs1 : Reg) (imm : Word),
    WritesOnly (.slti rd rs1 imm) rd (fun s => if (s.reg rs1).toInt < imm.toInt then 1#32 else 0#32) ∧
    WritesOnly (.sltiu rd rs1 imm) rd (fun s => if (s.reg rs1).toNat < imm.toNat then 1#32 else 0#32)

/-- R167, R168, R169. -/
def Obligations.ImmediateShiftResults : Prop :=
  PatternShift 0b0000000#7 0b001#3 .slli ∧ PatternShift 0b0000000#7 0b101#3 .srli ∧ PatternShift 0b0100000#7 0b101#3 .srai ∧
  (∀ (f7 : BitVec 7) (shamt rs1 rd : BitVec 5), f7 ≠ 0b0000000#7 →
    decode (f7 ++ shamt ++ rs1 ++ 0b001#3 ++ rd ++ 0b0010011#7) = .error .opImmFunct7) ∧
  ∀ (rd rs1 : Reg) (shamt : BitVec 5),
    WritesOnly (.slli rd rs1 shamt) rd (fun s => BitVec.ofNat 32 ((s.reg rs1).toNat * 2 ^ shamt.toNat)) ∧
    WritesOnly (.srli rd rs1 shamt) rd (fun s => BitVec.ofNat 32 ((s.reg rs1).toNat / 2 ^ shamt.toNat)) ∧
    WritesOnly (.srai rd rs1 shamt) rd (fun s => BitVec.ofInt 32 ((s.reg rs1).toInt / 2 ^ shamt.toNat))

/-! ### Multiply and divide -/

/-- R181: the low half, by either reading (the unsigned one is the spec's derivation). -/
def Obligations.MultiplyLowResult : Prop :=
  PatternR 0b0000001#7 0b000#3 .mul ∧
  ∀ rd rs1 rs2 : Reg,
    WritesOnly (.mul rd rs1 rs2) rd (fun s => BitVec.ofInt 32 ((s.reg rs1).toInt * (s.reg rs2).toInt)) ∧
    WritesOnly (.mul rd rs1 rs2) rd (fun s => BitVec.ofNat 32 ((s.reg rs1).toNat * (s.reg rs2).toNat))

/-- R182, R183, R184: the high half is the exact product divided by 2^32, rounded down, which is bits 63..32 of the product; the product's
ranges are the ones those rules give. Which operand of MULHSU is the signed one the spec marks as general knowledge. -/
def Obligations.MultiplyHighResults : Prop :=
  PatternR 0b0000001#7 0b001#3 .mulh ∧ PatternR 0b0000001#7 0b010#3 .mulhsu ∧ PatternR 0b0000001#7 0b011#3 .mulhu ∧
  (∀ p : Int, (BitVec.ofInt 64 p).extractLsb' 32 32 = BitVec.ofInt 32 (p / 2 ^ 32)) ∧
  (∀ a b : Word, -2 ^ 62 + 2 ^ 31 ≤ a.toInt * b.toInt ∧ a.toInt * b.toInt ≤ 2 ^ 62 ∧
    -2 ^ 63 + 2 ^ 31 ≤ a.toInt * (b.toNat : Int) ∧ a.toInt * (b.toNat : Int) ≤ 2 ^ 63 - 2 ^ 32 - 2 ^ 31 + 1 ∧
    a.toNat * b.toNat < 2 ^ 64) ∧
  ∀ rd rs1 rs2 : Reg,
    WritesOnly (.mulh rd rs1 rs2) rd (fun s => BitVec.ofInt 32 ((s.reg rs1).toInt * (s.reg rs2).toInt / 2 ^ 32)) ∧
    WritesOnly (.mulhsu rd rs1 rs2) rd (fun s => BitVec.ofInt 32 ((s.reg rs1).toInt * ((s.reg rs2).toNat : Int) / 2 ^ 32)) ∧
    WritesOnly (.mulhu rd rs1 rs2) rd (fun s => BitVec.ofNat 32 ((s.reg rs1).toNat * (s.reg rs2).toNat / 2 ^ 32))

/-- R185 to R188 with the table of R189 (decision D18): the quotient of the magnitudes, with a sign where the signs differ; the remainder of
the magnitudes, with the dividend's sign; and the named results for a zero divisor and for overflow. -/
def Obligations.DivideResults : Prop :=
  PatternR 0b0000001#7 0b100#3 .div ∧ PatternR 0b0000001#7 0b101#3 .divu ∧ PatternR 0b0000001#7 0b110#3 .rem ∧
  PatternR 0b0000001#7 0b111#3 .remu ∧
  ∀ rd rs1 rs2 : Reg,
    WritesOnly (.div rd rs1 rs2) rd (fun s =>
      if s.reg rs2 = 0#32 then 0xFFFFFFFF#32
      else if s.reg rs1 = 0x80000000#32 ∧ s.reg rs2 = 0xFFFFFFFF#32 then 0x80000000#32
      else if ((s.reg rs1).toInt < 0 ↔ (s.reg rs2).toInt < 0)
        then BitVec.ofInt 32 (((s.reg rs1).toInt.natAbs / (s.reg rs2).toInt.natAbs : Nat) : Int)
        else BitVec.ofInt 32 (-(((s.reg rs1).toInt.natAbs / (s.reg rs2).toInt.natAbs : Nat) : Int))) ∧
    WritesOnly (.divu rd rs1 rs2) rd (fun s =>
      if s.reg rs2 = 0#32 then 0xFFFFFFFF#32 else BitVec.ofNat 32 ((s.reg rs1).toNat / (s.reg rs2).toNat)) ∧
    WritesOnly (.rem rd rs1 rs2) rd (fun s =>
      if s.reg rs2 = 0#32 then s.reg rs1
      else if s.reg rs1 = 0x80000000#32 ∧ s.reg rs2 = 0xFFFFFFFF#32 then 0#32
      else if (s.reg rs1).toInt < 0
        then BitVec.ofInt 32 (-(((s.reg rs1).toInt.natAbs % (s.reg rs2).toInt.natAbs : Nat) : Int))
        else BitVec.ofInt 32 (((s.reg rs1).toInt.natAbs % (s.reg rs2).toInt.natAbs : Nat) : Int)) ∧
    WritesOnly (.remu rd rs1 rs2) rd (fun s =>
      if s.reg rs2 = 0#32 then s.reg rs1 else BitVec.ofNat 32 ((s.reg rs1).toNat % (s.reg rs2).toNat))

/-- R189: `x[rs1] = quotient * x[rs2] + remainder` modulo 2^32 for DIV with REM and for DIVU with REMU, zero divisor and overflow included;
R187: the signed remainder is zero or has the dividend's sign, and is smaller than a divisor that is not zero (decision D18). -/
def Obligations.DivisionIdentity : Prop :=
  ∀ (s : State) (q r rs1 rs2 : Reg), q ≠ 0 → r ≠ 0 →
    (∃ t u : State, exec (.div q rs1 rs2) s = .next t ∧ exec (.rem r rs1 rs2) s = .next u ∧
      s.reg rs1 = t.reg q * s.reg rs2 + u.reg r ∧
      (s.reg rs2 ≠ 0#32 → (u.reg r).toInt.natAbs < (s.reg rs2).toInt.natAbs) ∧
      ((u.reg r).toInt ≠ 0 → ((u.reg r).toInt < 0 ↔ (s.reg rs1).toInt < 0))) ∧
    (∃ t u : State, exec (.divu q rs1 rs2) s = .next t ∧ exec (.remu r rs1 rs2) s = .next u ∧
      s.reg rs1 = t.reg q * s.reg rs2 + u.reg r ∧
      (s.reg rs2 ≠ 0#32 → (u.reg r).toNat < (s.reg rs2).toNat))

/-! ### Loads and stores -/

/-- R200 to R205: one addressing mode; bytes assembled lowest address first (decision D12); the load runs where its address is aligned and
its bytes are mapped (decisions D13, D15). -/
def Obligations.LoadResults : Prop :=
  PatternI 0b000#3 0b0000011#7 .lb ∧ PatternI 0b001#3 0b0000011#7 .lh ∧ PatternI 0b010#3 0b0000011#7 .lw ∧
  PatternI 0b100#3 0b0000011#7 .lbu ∧ PatternI 0b101#3 0b0000011#7 .lhu ∧
  (∀ (s : State) (rs1 : Reg) (imm : Word), dataAddr s rs1 imm = BitVec.ofInt 32 (((s.reg rs1).toNat : Int) + imm.toInt)) ∧
  ∀ (rd rs1 : Reg) (imm : Word),
    LoadsOnly (.lb rd rs1 imm) rd rs1 imm 1 (fun s ea => BitVec.ofInt 32 (s.byteAt ea).toInt) ∧
    LoadsOnly (.lh rd rs1 imm) rd rs1 imm 2 (fun s ea =>
      BitVec.ofInt 32 (((s.byteAt (ea + 1#32)).toInt) * 256 + (s.byteAt ea).toNat)) ∧
    LoadsOnly (.lw rd rs1 imm) rd rs1 imm 4 (fun s ea =>
      BitVec.ofNat 32 ((s.byteAt ea).toNat + 256 * (s.byteAt (ea + 1#32)).toNat + 65536 * (s.byteAt (ea + 2#32)).toNat +
        16777216 * (s.byteAt (ea + 3#32)).toNat)) ∧
    LoadsOnly (.lbu rd rs1 imm) rd rs1 imm 1 (fun s ea => BitVec.ofNat 32 (s.byteAt ea).toNat) ∧
    LoadsOnly (.lhu rd rs1 imm) rd rs1 imm 2 (fun s ea =>
      BitVec.ofNat 32 ((s.byteAt ea).toNat + 256 * (s.byteAt (ea + 1#32)).toNat))

/-- R200, R206 to R208: a store truncates to its width, changes exactly its bytes, lowest byte at the lowest address (decision D12), and runs
where its address is aligned and its bytes are mapped (decisions D13, D15). -/
def Obligations.StoreResults : Prop :=
  PatternS 0b000#3 .sb ∧ PatternS 0b001#3 .sh ∧ PatternS 0b010#3 .sw ∧
  (∀ (s : State) (rs1 : Reg) (imm : Word), dataAddr s rs1 imm = BitVec.ofInt 32 (((s.reg rs1).toNat : Int) + imm.toInt)) ∧
  ∀ (rs1 rs2 : Reg) (imm : Word),
    StoresOnly (.sb rs1 rs2 imm) rs1 rs2 imm 1 ∧ StoresOnly (.sh rs1 rs2 imm) rs1 rs2 imm 2 ∧
    StoresOnly (.sw rs1 rs2 imm) rs1 rs2 imm 4

/-- R55, R57, R200: what a load or store that cannot run answers, the misalignment first (decisions D13, D15). `accessOf` is the address and
width of the instruction's access; a byte access is never misaligned. -/
def Obligations.DataAccessFaults : Prop :=
  ∀ (i : Instr) (s : State) (ea : Word) (n : Nat), accessOf i s = some (ea, n) →
    (ea.toNat % n ≠ 0 → exec i s = .fault (.dataMisaligned ea)) ∧
    (ea.toNat % n = 0 → ¬ BytesMapped s ea n → exec i s = .fault (.unmapped ea))

/-- R51: after a word is stored, its bytes, halves and the word read back as slices of it (decision D12). -/
def Obligations.StoreThenLoadSeesSameBytes : Prop :=
  ∀ (s : State) (rs1 rs2 : Reg) (imm : Word), (dataAddr s rs1 imm).toNat % 4 = 0 → BytesMapped s (dataAddr s rs1 imm) 4 →
    ∃ t : State, exec (.sw rs1 rs2 imm) s = .next t ∧
      (∀ i : Nat, i < 4 → t.memRead1 (dataAddr s rs1 imm + BitVec.ofNat 32 i) = .ok ((s.reg rs2).extractLsb' (8 * i) 8)) ∧
      (∀ k : Nat, k < 2 → t.memRead2 (dataAddr s rs1 imm + BitVec.ofNat 32 (2 * k)) = .ok ((s.reg rs2).extractLsb' (16 * k) 16)) ∧
      t.memRead4 (dataAddr s rs1 imm) = .ok (s.reg rs2)

/-- R65: "A store to the address of the very next instruction is seen by that next fetch" (the spec's derivation), for every store and every
place it can take in that instruction's four bytes; a whole stored word is the very word fetched. -/
def Obligations.StoreIsSeenByNextFetch : Prop :=
  (∀ (rs1 rs2 : Reg) (imm : Word),
    NextFetchSees (.sb rs1 rs2 imm) rs1 rs2 imm 1 ∧ NextFetchSees (.sh rs1 rs2 imm) rs1 rs2 imm 2 ∧
    NextFetchSees (.sw rs1 rs2 imm) rs1 rs2 imm 4) ∧
  ∀ (s t : State) (rs1 rs2 : Reg) (imm : Word), s.runState = .running → s.pc.toNat % 4 = 0 → dataAddr s rs1 imm = s.pc + 4#32 →
    exec (.sw rs1 rs2 imm) s = .next t → Fetches t (s.reg rs2)

/-! ### Control transfer -/

/-- R221 to R224. That a branch hands its target to `Observe` whether or not it is taken is the spec's own choice (R220, decisions D27, D34). -/
def Obligations.EqualityAndSignedBranches : Prop :=
  PatternB 0b000#3 .beq ∧ PatternB 0b001#3 .bne ∧ PatternB 0b100#3 .blt ∧ PatternB 0b101#3 .bge ∧
  ∀ (rs1 rs2 : Reg) (imm : Word),
    BranchesWhen (.beq rs1 rs2 imm) imm (fun s => s.reg rs1 = s.reg rs2) ∧
    BranchesWhen (.bne rs1 rs2 imm) imm (fun s => s.reg rs1 ≠ s.reg rs2) ∧
    BranchesWhen (.blt rs1 rs2 imm) imm (fun s => (s.reg rs1).toInt < (s.reg rs2).toInt) ∧
    BranchesWhen (.bge rs1 rs2 imm) imm (fun s => (s.reg rs1).toInt ≥ (s.reg rs2).toInt)

/-- R225, R226 (decision D2); the hand-over to `Observe` as for the other branches (R220, decisions D27, D34). -/
def Obligations.UnsignedBranches : Prop :=
  PatternB 0b110#3 .bltu ∧ PatternB 0b111#3 .bgeu ∧
  ∀ (rs1 rs2 : Reg) (imm : Word),
    BranchesWhen (.bltu rs1 rs2 imm) imm (fun s => (s.reg rs1).toNat < (s.reg rs2).toNat) ∧
    BranchesWhen (.bgeu rs1 rs2 imm) imm (fun s => (s.reg rs1).toNat ≥ (s.reg rs2).toNat)

/-- R227: the link value is the address of the next instruction (the spec marks this as general knowledge); a jump is observed as taken. -/
def Obligations.JalResult : Prop :=
  PatternJ .jal ∧
  ∀ (rd : Reg) (imm : Word), JumpsTo (.jal rd imm) rd (fun s => BitVec.ofInt 32 ((s.pc.toNat : Int) + imm.toInt))

/-- R228: bit 0 of the sum is cleared (decision D20), and `x[rs1]` is read before `x[rd]` is written (R22, decision D21). -/
def Obligations.JalrResult : Prop :=
  PatternI 0b000#3 0b1100111#7 .jalr ∧
  ∀ (rd rs1 : Reg) (imm : Word),
    JumpsTo (.jalr rd rs1 imm) rd (fun s => BitVec.ofNat 32 (((s.reg rs1).toNat + imm.toNat) % 2 ^ 32 / 2 * 2))

/-- R229: no control transfer checks its target; the misaligned `pc` is committed with the link write and the count, and the next fetch
faults (decision D14). -/
def Obligations.MisalignedTargetStopsNextFetch : Prop :=
  ∀ (s : State) (rd rs1 : Reg) (imm : Word), s.runState = .running →
    ((BitVec.ofInt 32 ((s.pc.toNat : Int) + imm.toInt)).toNat % 4 ≠ 0 →
      ∃ t : State, exec (.jal rd imm) s = .next t ∧ t.pc = BitVec.ofInt 32 ((s.pc.toNat : Int) + imm.toInt) ∧
        (rd ≠ 0 → (t.reg rd).toNat = (s.pc.toNat + 4) % 2 ^ 32) ∧ t.nInsn = s.nInsn + 1 ∧ t.bank.nCtl = s.bank.nCtl + 1 ∧
        step t = .fault (.fetchMisaligned t.pc)) ∧
    ((BitVec.ofInt 32 ((s.pc.toNat : Int) + imm.toInt)).toNat % 4 ≠ 0 →
      ∃ t : State, exec (.beq rs1 rs1 imm) s = .next t ∧ t.pc = BitVec.ofInt 32 ((s.pc.toNat : Int) + imm.toInt) ∧
        t.nInsn = s.nInsn + 1 ∧ t.bank.nCtl = s.bank.nCtl + 1 ∧ step t = .fault (.fetchMisaligned t.pc)) ∧
    ((((s.reg rs1).toNat + imm.toNat) % 2 ^ 32 / 2 * 2) % 4 ≠ 0 →
      ∃ t : State, exec (.jalr rd rs1 imm) s = .next t ∧ t.pc.toNat = ((s.reg rs1).toNat + imm.toNat) % 2 ^ 32 / 2 * 2 ∧
        (rd ≠ 0 → (t.reg rd).toNat = (s.pc.toNat + 4) % 2 ^ 32) ∧ t.nInsn = s.nInsn + 1 ∧ t.bank.nCtl = s.bank.nCtl + 1 ∧
        step t = .fault (.fetchMisaligned t.pc))

/-! ### Upper immediate -/

/-- R240, R241 (the spec marks both definitions as general knowledge). -/
def Obligations.UpperImmediateResults : Prop :=
  PatternU 0b0110111#7 .lui ∧ PatternU 0b0010111#7 .auipc ∧
  ∀ (rd : Reg) (imm : Word),
    WritesOnly (.lui rd imm) rd (fun _ => imm) ∧
    WritesOnly (.auipc rd imm) rd (fun s => BitVec.ofNat 32 (s.pc.toNat + imm.toNat))

/-! ### ECALL -/

/-- R251, R252, service 1 (decisions D8, D9, D25): the next character zero-extended and the position advanced, or the sentinel at end of
input and the position kept; and no step where no answer comes (R132, U15). That an answer which comes is there at once is the model's
(log 13). -/
def Obligations.EcallReadsCharacter : Prop :=
  (∀ s : State, s.reg 17 = 1#32 → s.inputPos < s.input.length ∨ s.inputTail = .endOfInput →
    ∃ t : State, exec .ecall s = .next t ∧
      (∀ c : Byte, s.input[s.inputPos]? = some c → t.reg 10 = BitVec.ofNat 32 c.toNat ∧ t.inputPos = s.inputPos + 1) ∧
      (s.input.length ≤ s.inputPos → t.reg 10 = s.eofValue ∧ t.inputPos = s.inputPos) ∧
      SameRegsBut 10 s t ∧ Advances s t ∧ SameBytes s t ∧ t.bank = s.bank ∧ t.nUnknown = s.nUnknown ∧ t.runState = s.runState ∧
      t.mapped = s.mapped ∧ t.input = s.input ∧ t.inputTail = s.inputTail ∧ t.eofValue = s.eofValue ∧ t.output = s.output) ∧
  ∀ s : State, s.reg 17 = 1#32 → s.input.length ≤ s.inputPos → s.inputTail = .silent → exec .ecall s = .refused .awaitingInput

/-- R251, R253, service 2 (decisions D24, D25): the low 8 bits of `x[10]` are appended to the output. -/
def Obligations.EcallWritesCharacter : Prop :=
  ∀ s : State, s.reg 17 = 2#32 →
    ∃ t : State, exec .ecall s = .next t ∧ t.output = s.output ++ [BitVec.ofNat 8 (s.reg 10).toNat] ∧
      SameRegs s t ∧ Advances s t ∧ SameBytes s t ∧ t.bank = s.bank ∧ t.nUnknown = s.nUnknown ∧ t.runState = s.runState ∧
      t.mapped = s.mapped ∧ t.input = s.input ∧ t.inputTail = s.inputTail ∧ t.inputPos = s.inputPos ∧ t.eofValue = s.eofValue

/-- R254: services 3 and 93 commit as usual and halt, whatever `x[10]` holds, and "this is the only way a run halts". ECALL's one word is
R250's (marked general knowledge, matched whole by decision D17), the comparison of all 32 bits R251's (decision D25), the commit of the
halting ECALL decision D22. -/
def Obligations.EcallHalts : Prop :=
  decode 0x00000073#32 = .ok .ecall ∧
  (∀ s : State, s.reg 17 = 3#32 ∨ s.reg 17 = 93#32 →
    ∃ t : State, exec .ecall s = .next t ∧ t.runState = .halted ∧
      SameRegs s t ∧ Advances s t ∧ SameBytes s t ∧ t.bank = s.bank ∧ t.nUnknown = s.nUnknown ∧
      t.mapped = s.mapped ∧ t.input = s.input ∧ t.inputTail = s.inputTail ∧ t.inputPos = s.inputPos ∧ t.eofValue = s.eofValue ∧
      t.output = s.output) ∧
  (∀ s t : State, step s = .next t → t.runState = .halted → Fetches s 0x00000073#32 ∧ (s.reg 17 = 3#32 ∨ s.reg 17 = 93#32))

/-- R255: any other service number, all 32 bits compared, changes nothing but `pc` and `n_insn`. -/
def Obligations.EcallOtherIsNoOp : Prop :=
  ∀ s : State, s.reg 17 ≠ 1#32 → s.reg 17 ≠ 2#32 → s.reg 17 ≠ 3#32 → s.reg 17 ≠ 93#32 →
    ∃ t : State, exec .ecall s = .next t ∧ SameRegs s t ∧ Advances s t ∧ SameBytes s t ∧ t.bank = s.bank ∧ SameElse s t

/-- R38: the report is there exactly when the core is halted, and holds the statistics; `n_unknown` is the spec's addition. -/
def Obligations.ReportExactlyWhenHalted : Prop :=
  (∀ s : State, s.runState = .running → s.report = none) ∧
  (∀ s : State, s.runState = .halted → ∃ r : Report, s.report = some r ∧
    r.nInsn = s.nInsn ∧ r.nCtl = s.bank.nCtl ∧ r.errNt = s.bank.errNt ∧ r.errBtfnt = s.bank.errBtfnt ∧
    r.errBimodal = s.bank.bimodal.map (fun t => (t.size, t.err)) ∧ r.errGshare = s.bank.gshare.map (fun t => (t.size, t.err)) ∧
    r.nUnknown = s.nUnknown)

/-! ### The predictor bank -/

/-- R273, R274, R278: the count, the not-taken scheme, the history register bit by bit. -/
def Obligations.ObserveCountsAndShiftsHistory : Prop :=
  ∀ (b : Bank) (pc target : Word) (isBranch taken : Bool),
    (b.observe pc target isBranch taken).nCtl = b.nCtl + 1 ∧
    (b.observe pc target isBranch taken).errNt = (if taken = true then b.errNt + 1 else b.errNt) ∧
    (b.observe pc target isBranch taken).ghr.getLsbD 0 = taken ∧
    (∀ k : Nat, k < 15 → (b.observe pc target isBranch taken).ghr.getLsbD (k + 1) = b.ghr.getLsbD k) ∧
    (b.observe pc target isBranch taken).ghr.toNat = (2 * b.ghr.toNat + taken.toNat) % 65536

/-- R275: BTFNT predicts taken exactly for a lower target, compared unsigned (decision D27). -/
def Obligations.ObserveJudgesBtfnt : Prop :=
  ∀ (b : Bank) (pc target : Word) (isBranch taken : Bool),
    ((target.toNat < pc.toNat ↔ taken = true) → (b.observe pc target isBranch taken).errBtfnt = b.errBtfnt) ∧
    (¬ (target.toNat < pc.toNat ↔ taken = true) → (b.observe pc target isBranch taken).errBtfnt = b.errBtfnt + 1)

/-- R276: every bimodal table of a power-of-two size indexes with `pc[log2(n)+1 : 2]`, errs by its old counter, moves that counter alone. -/
def Obligations.ObserveUpdatesBimodal : Prop :=
  ∀ (b : Bank) (pc target : Word) (isBranch taken : Bool) (k m i : Nat) (t : Table), b.bimodal[k]? = some t → t.size = 2 ^ m →
    i = pc.toNat / 4 % t.size →
    ∃ u : Table, (b.observe pc target isBranch taken).bimodal[k]? = some u ∧ u.size = t.size ∧
      u.err = (if (2 ≤ (t.ctr b.ctrInit i).val ↔ taken = true) then t.err else t.err + 1) ∧
      (u.ctr b.ctrInit i).val =
        (if taken = true then min ((t.ctr b.ctrInit i).val + 1) 3 else (t.ctr b.ctrInit i).val - 1) ∧
      ∀ j : Nat, j ≠ i → u.ctr b.ctrInit j = t.ctr b.ctrInit j

/-- R277: every gshare table of a power-of-two size, the same with the history of before the call folded into the index. -/
def Obligations.ObserveUpdatesGshare : Prop :=
  ∀ (b : Bank) (pc target : Word) (isBranch taken : Bool) (k m i : Nat) (t : Table), b.gshare[k]? = some t → t.size = 2 ^ m →
    i = (pc.toNat / 4 ^^^ b.ghr.toNat) % t.size →
    ∃ u : Table, (b.observe pc target isBranch taken).gshare[k]? = some u ∧ u.size = t.size ∧
      u.err = (if (2 ≤ (t.ctr b.ctrInit i).val ↔ taken = true) then t.err else t.err + 1) ∧
      (u.ctr b.ctrInit i).val =
        (if taken = true then min ((t.ctr b.ctrInit i).val + 1) 3 else (t.ctr b.ctrInit i).val - 1) ∧
      ∀ j : Nat, j ≠ i → u.ctr b.ctrInit j = t.ctr b.ctrInit j

/-- R279: the counter's formula, its eight transitions, and when it predicts taken. -/
def Obligations.SaturatingCounter : Prop :=
  (∀ (c : Ctr) (taken : Bool), ((sat c taken).val : Int) = if taken = true then min ((c.val : Int) + 1) 3 else max ((c.val : Int) - 1) 0) ∧
  (∀ c : Ctr, predictsTaken c = true ↔ c = 2 ∨ c = 3) ∧
  sat 0 true = 1 ∧ sat 0 false = 0 ∧ sat 1 true = 2 ∧ sat 1 false = 0 ∧ sat 2 true = 3 ∧ sat 2 false = 1 ∧ sat 3 true = 3 ∧ sat 3 false = 2

/-- R282: each statistic of the bank is changed only by `Observe`, only by adding 0 or 1, and no scheme errs more often than it observes. -/
def Obligations.StatisticsAreMonotone : Prop :=
  (∀ s t : State, step s = .next t →
    (s.bank.nCtl ≤ t.bank.nCtl ∧ t.bank.nCtl ≤ s.bank.nCtl + 1) ∧ (s.bank.errNt ≤ t.bank.errNt ∧ t.bank.errNt ≤ s.bank.errNt + 1) ∧
    (s.bank.errBtfnt ≤ t.bank.errBtfnt ∧ t.bank.errBtfnt ≤ s.bank.errBtfnt + 1) ∧
    List.Forall₂ (fun a b => a.err ≤ b.err ∧ b.err ≤ a.err + 1) s.bank.bimodal t.bank.bimodal ∧
    List.Forall₂ (fun a b => a.err ≤ b.err ∧ b.err ≤ a.err + 1) s.bank.gshare t.bank.gshare ∧
    (t.bank ≠ s.bank → ∃ (target : Word) (isBranch taken : Bool), t.bank = s.bank.observe s.pc target isBranch taken)) ∧
  (∀ p : Params, (State.boot p).bank.ErrorsBounded) ∧
  (∀ s t : State, s.bank.ErrorsBounded → step s = .next t → t.bank.ErrorsBounded)

/-! ### The trace -/

/-- R366: a record exactly for a step that goes on (decision D11), with what it carries (R283, R209): the address, the word; for a control
transfer whether it is a branch and the outcome handed to `Observe`; for a store the address and the stored value, of which the bytes stored
are the low ones; for a load, one to register 0 too, the destination and the extended value read; for an unknown word none of these. Whether
the count starts at 0 or 1, and whether a stored value is shown truncated, are free values (log 14): the statement holds for both. -/
def Obligations.TraceRecordsTheStep : Prop :=
  (∀ s : State, (∃ r : TraceRecord, traceOf s = some r) ↔ ∃ t : State, step s = .next t) ∧
  (∀ (s t : State) (w : Word) (r : TraceRecord), step s = .next t → Fetches s w → traceOf s = some r →
    r.pc = s.pc ∧ r.word = w ∧ (r.count = s.nInsn ∨ r.count = s.nInsn + 1) ∧
    (r.transfer = none → t.bank = s.bank) ∧
    (∀ e : Reject, decode w = .error e → r.transfer = none ∧ r.store = none ∧ r.load = none) ∧
    (∀ i : Instr, decode w = .ok i →
      (r.transfer.isSome = true ↔ i.shape = .branch ∨ i.shape = .jump) ∧
      (r.store.isSome = true ↔ i.shape = .store) ∧ (r.load.isSome = true ↔ i.shape = .load) ∧
      (∀ isBranch taken : Bool, r.transfer = some (isBranch, taken) → (isBranch = true ↔ i.shape = .branch) ∧
        ∃ target : Word, t.bank = s.bank.observe s.pc target isBranch taken) ∧
      (∀ (rd : Reg) (v : Word), r.load = some (rd, v) → destOf i = some rd ∧ loadedValue i s = some v ∧ (rd ≠ 0 → t.reg rd = v)) ∧
      (∀ (a v : Word), r.store = some (a, v) → ∃ (n : Nat) (rs2 : Reg), accessOf i s = some (a, n) ∧ storedReg i = some rs2 ∧
        (v = s.reg rs2 ∨ v.toNat = (s.reg rs2).toNat % 2 ^ (8 * n)) ∧
        ∀ k : Nat, k < n → t.byteAt (a + BitVec.ofNat 32 k) = v.extractLsb' (8 * k) 8)))
end

