-- ==== Sys2Proof/Laws/Decode.lean ====
section
/-! SUPPORT. The extractor on the formats: every field of a packed word comes back (R83, R91), an immediate in its range comes back whole
(R84 to R90), and what a decoded instruction's fields are. -/

namespace Sys2Proof

/-! ### Fields of each format -/

@[simp] theorem opcodeOf_packR (f7 : BitVec 7) (rs2 rs1 : Reg) (f3 : BitVec 3) (rd : Reg) (op : BitVec 7) :
    opcodeOf (packR f7 rs2 rs1 f3 rd op) = op := by
  apply BitVec.eq_of_getLsbD_eq; intro i hi
  simp only [opcodeOf, packR, BitVec.getLsbD_extractLsb', BitVec.getLsbD_append]
  interval_cases i <;> simp

@[simp] theorem funct3Of_packR (f7 : BitVec 7) (rs2 rs1 : Reg) (f3 : BitVec 3) (rd : Reg) (op : BitVec 7) :
    funct3Of (packR f7 rs2 rs1 f3 rd op) = f3 := by
  apply BitVec.eq_of_getLsbD_eq; intro i hi
  simp only [funct3Of, packR, BitVec.getLsbD_extractLsb', BitVec.getLsbD_append]
  interval_cases i <;> simp

@[simp] theorem funct7Of_packR (f7 : BitVec 7) (rs2 rs1 : Reg) (f3 : BitVec 3) (rd : Reg) (op : BitVec 7) :
    funct7Of (packR f7 rs2 rs1 f3 rd op) = f7 := by
  apply BitVec.eq_of_getLsbD_eq; intro i hi
  simp only [funct7Of, packR, BitVec.getLsbD_extractLsb', BitVec.getLsbD_append]
  interval_cases i <;> simp

@[simp] theorem rdOf_packR (f7 : BitVec 7) (rs2 rs1 : Reg) (f3 : BitVec 3) (rd : Reg) (op : BitVec 7) :
    rdOf (packR f7 rs2 rs1 f3 rd op) = rd := by
  have h : (packR f7 rs2 rs1 f3 rd op).extractLsb' 7 5 = regBits rd := by
    apply BitVec.eq_of_getLsbD_eq; intro i hi
    simp only [packR, BitVec.getLsbD_extractLsb', BitVec.getLsbD_append]
    interval_cases i <;> simp
  rw [rdOf, h]; rfl

@[simp] theorem rs1Of_packR (f7 : BitVec 7) (rs2 rs1 : Reg) (f3 : BitVec 3) (rd : Reg) (op : BitVec 7) :
    rs1Of (packR f7 rs2 rs1 f3 rd op) = rs1 := by
  have h : (packR f7 rs2 rs1 f3 rd op).extractLsb' 15 5 = regBits rs1 := by
    apply BitVec.eq_of_getLsbD_eq; intro i hi
    simp only [packR, BitVec.getLsbD_extractLsb', BitVec.getLsbD_append]
    interval_cases i <;> simp
  rw [rs1Of, h]; rfl

@[simp] theorem rs2Of_packR (f7 : BitVec 7) (rs2 rs1 : Reg) (f3 : BitVec 3) (rd : Reg) (op : BitVec 7) :
    rs2Of (packR f7 rs2 rs1 f3 rd op) = rs2 := by
  have h : (packR f7 rs2 rs1 f3 rd op).extractLsb' 20 5 = regBits rs2 := by
    apply BitVec.eq_of_getLsbD_eq; intro i hi
    simp only [packR, BitVec.getLsbD_extractLsb', BitVec.getLsbD_append]
    interval_cases i <;> simp
  rw [rs2Of, h]; rfl


@[simp] theorem opcodeOf_packI (v : Word) (rs1 : Reg) (f3 : BitVec 3) (rd : Reg) (op : BitVec 7) :
    opcodeOf (packI v rs1 f3 rd op) = op := by
  apply BitVec.eq_of_getLsbD_eq; intro i hi
  simp only [opcodeOf, packI, BitVec.getLsbD_extractLsb', BitVec.getLsbD_append]
  interval_cases i <;> simp

@[simp] theorem funct3Of_packI (v : Word) (rs1 : Reg) (f3 : BitVec 3) (rd : Reg) (op : BitVec 7) :
    funct3Of (packI v rs1 f3 rd op) = f3 := by
  apply BitVec.eq_of_getLsbD_eq; intro i hi
  simp only [funct3Of, packI, BitVec.getLsbD_extractLsb', BitVec.getLsbD_append]
  interval_cases i <;> simp

@[simp] theorem rdOf_packI (v : Word) (rs1 : Reg) (f3 : BitVec 3) (rd : Reg) (op : BitVec 7) :
    rdOf (packI v rs1 f3 rd op) = rd := by
  have h : (packI v rs1 f3 rd op).extractLsb' 7 5 = regBits rd := by
    apply BitVec.eq_of_getLsbD_eq; intro i hi
    simp only [packI, BitVec.getLsbD_extractLsb', BitVec.getLsbD_append]
    interval_cases i <;> simp
  rw [rdOf, h]; rfl

@[simp] theorem rs1Of_packI (v : Word) (rs1 : Reg) (f3 : BitVec 3) (rd : Reg) (op : BitVec 7) :
    rs1Of (packI v rs1 f3 rd op) = rs1 := by
  have h : (packI v rs1 f3 rd op).extractLsb' 15 5 = regBits rs1 := by
    apply BitVec.eq_of_getLsbD_eq; intro i hi
    simp only [packI, BitVec.getLsbD_extractLsb', BitVec.getLsbD_append]
    interval_cases i <;> simp
  rw [rs1Of, h]; rfl


@[simp] theorem opcodeOf_packShift (f7 : BitVec 7) (sh : BitVec 5) (rs1 : Reg) (f3 : BitVec 3) (rd : Reg) (op : BitVec 7) :
    opcodeOf (packShift f7 sh rs1 f3 rd op) = op := by
  apply BitVec.eq_of_getLsbD_eq; intro i hi
  simp only [opcodeOf, packShift, BitVec.getLsbD_extractLsb', BitVec.getLsbD_append]
  interval_cases i <;> simp

@[simp] theorem funct3Of_packShift (f7 : BitVec 7) (sh : BitVec 5) (rs1 : Reg) (f3 : BitVec 3) (rd : Reg) (op : BitVec 7) :
    funct3Of (packShift f7 sh rs1 f3 rd op) = f3 := by
  apply BitVec.eq_of_getLsbD_eq; intro i hi
  simp only [funct3Of, packShift, BitVec.getLsbD_extractLsb', BitVec.getLsbD_append]
  interval_cases i <;> simp

@[simp] theorem funct7Of_packShift (f7 : BitVec 7) (sh : BitVec 5) (rs1 : Reg) (f3 : BitVec 3) (rd : Reg) (op : BitVec 7) :
    funct7Of (packShift f7 sh rs1 f3 rd op) = f7 := by
  apply BitVec.eq_of_getLsbD_eq; intro i hi
  simp only [funct7Of, packShift, BitVec.getLsbD_extractLsb', BitVec.getLsbD_append]
  interval_cases i <;> simp

@[simp] theorem rdOf_packShift (f7 : BitVec 7) (sh : BitVec 5) (rs1 : Reg) (f3 : BitVec 3) (rd : Reg) (op : BitVec 7) :
    rdOf (packShift f7 sh rs1 f3 rd op) = rd := by
  have h : (packShift f7 sh rs1 f3 rd op).extractLsb' 7 5 = regBits rd := by
    apply BitVec.eq_of_getLsbD_eq; intro i hi
    simp only [packShift, BitVec.getLsbD_extractLsb', BitVec.getLsbD_append]
    interval_cases i <;> simp
  rw [rdOf, h]; rfl

@[simp] theorem rs1Of_packShift (f7 : BitVec 7) (sh : BitVec 5) (rs1 : Reg) (f3 : BitVec 3) (rd : Reg) (op : BitVec 7) :
    rs1Of (packShift f7 sh rs1 f3 rd op) = rs1 := by
  have h : (packShift f7 sh rs1 f3 rd op).extractLsb' 15 5 = regBits rs1 := by
    apply BitVec.eq_of_getLsbD_eq; intro i hi
    simp only [packShift, BitVec.getLsbD_extractLsb', BitVec.getLsbD_append]
    interval_cases i <;> simp
  rw [rs1Of, h]; rfl

@[simp] theorem shamtOf_packShift (f7 : BitVec 7) (sh : BitVec 5) (rs1 : Reg) (f3 : BitVec 3) (rd : Reg) (op : BitVec 7) :
    shamtOf (packShift f7 sh rs1 f3 rd op) = sh := by
  apply BitVec.eq_of_getLsbD_eq; intro i hi
  simp only [shamtOf, packShift, BitVec.getLsbD_extractLsb', BitVec.getLsbD_append]
  interval_cases i <;> simp


@[simp] theorem opcodeOf_packS (v : Word) (rs2 rs1 : Reg) (f3 : BitVec 3) (op : BitVec 7) :
    opcodeOf (packS v rs2 rs1 f3 op) = op := by
  apply BitVec.eq_of_getLsbD_eq; intro i hi
  simp only [opcodeOf, packS, BitVec.getLsbD_extractLsb', BitVec.getLsbD_append]
  interval_cases i <;> simp

@[simp] theorem funct3Of_packS (v : Word) (rs2 rs1 : Reg) (f3 : BitVec 3) (op : BitVec 7) :
    funct3Of (packS v rs2 rs1 f3 op) = f3 := by
  apply BitVec.eq_of_getLsbD_eq; intro i hi
  simp only [funct3Of, packS, BitVec.getLsbD_extractLsb', BitVec.getLsbD_append]
  interval_cases i <;> simp

@[simp] theorem rs1Of_packS (v : Word) (rs2 rs1 : Reg) (f3 : BitVec 3) (op : BitVec 7) :
    rs1Of (packS v rs2 rs1 f3 op) = rs1 := by
  have h : (packS v rs2 rs1 f3 op).extractLsb' 15 5 = regBits rs1 := by
    apply BitVec.eq_of_getLsbD_eq; intro i hi
    simp only [packS, BitVec.getLsbD_extractLsb', BitVec.getLsbD_append]
    interval_cases i <;> simp
  rw [rs1Of, h]; rfl

@[simp] theorem rs2Of_packS (v : Word) (rs2 rs1 : Reg) (f3 : BitVec 3) (op : BitVec 7) :
    rs2Of (packS v rs2 rs1 f3 op) = rs2 := by
  have h : (packS v rs2 rs1 f3 op).extractLsb' 20 5 = regBits rs2 := by
    apply BitVec.eq_of_getLsbD_eq; intro i hi
    simp only [packS, BitVec.getLsbD_extractLsb', BitVec.getLsbD_append]
    interval_cases i <;> simp
  rw [rs2Of, h]; rfl


@[simp] theorem opcodeOf_packB (v : Word) (rs2 rs1 : Reg) (f3 : BitVec 3) (op : BitVec 7) :
    opcodeOf (packB v rs2 rs1 f3 op) = op := by
  apply BitVec.eq_of_getLsbD_eq; intro i hi
  simp only [opcodeOf, packB, BitVec.getLsbD_extractLsb', BitVec.getLsbD_append]
  interval_cases i <;> simp

@[simp] theorem funct3Of_packB (v : Word) (rs2 rs1 : Reg) (f3 : BitVec 3) (op : BitVec 7) :
    funct3Of (packB v rs2 rs1 f3 op) = f3 := by
  apply BitVec.eq_of_getLsbD_eq; intro i hi
  simp only [funct3Of, packB, BitVec.getLsbD_extractLsb', BitVec.getLsbD_append]
  interval_cases i <;> simp

@[simp] theorem rs1Of_packB (v : Word) (rs2 rs1 : Reg) (f3 : BitVec 3) (op : BitVec 7) :
    rs1Of (packB v rs2 rs1 f3 op) = rs1 := by
  have h : (packB v rs2 rs1 f3 op).extractLsb' 15 5 = regBits rs1 := by
    apply BitVec.eq_of_getLsbD_eq; intro i hi
    simp only [packB, BitVec.getLsbD_extractLsb', BitVec.getLsbD_append]
    interval_cases i <;> simp
  rw [rs1Of, h]; rfl

@[simp] theorem rs2Of_packB (v : Word) (rs2 rs1 : Reg) (f3 : BitVec 3) (op : BitVec 7) :
    rs2Of (packB v rs2 rs1 f3 op) = rs2 := by
  have h : (packB v rs2 rs1 f3 op).extractLsb' 20 5 = regBits rs2 := by
    apply BitVec.eq_of_getLsbD_eq; intro i hi
    simp only [packB, BitVec.getLsbD_extractLsb', BitVec.getLsbD_append]
    interval_cases i <;> simp
  rw [rs2Of, h]; rfl


@[simp] theorem opcodeOf_packU (v : Word) (rd : Reg) (op : BitVec 7) :
    opcodeOf (packU v rd op) = op := by
  apply BitVec.eq_of_getLsbD_eq; intro i hi
  simp only [opcodeOf, packU, BitVec.getLsbD_extractLsb', BitVec.getLsbD_append]
  interval_cases i <;> simp

@[simp] theorem rdOf_packU (v : Word) (rd : Reg) (op : BitVec 7) :
    rdOf (packU v rd op) = rd := by
  have h : (packU v rd op).extractLsb' 7 5 = regBits rd := by
    apply BitVec.eq_of_getLsbD_eq; intro i hi
    simp only [packU, BitVec.getLsbD_extractLsb', BitVec.getLsbD_append]
    interval_cases i <;> simp
  rw [rdOf, h]; rfl


@[simp] theorem opcodeOf_packJ (v : Word) (rd : Reg) (op : BitVec 7) :
    opcodeOf (packJ v rd op) = op := by
  apply BitVec.eq_of_getLsbD_eq; intro i hi
  simp only [opcodeOf, packJ, BitVec.getLsbD_extractLsb', BitVec.getLsbD_append]
  interval_cases i <;> simp

@[simp] theorem rdOf_packJ (v : Word) (rd : Reg) (op : BitVec 7) :
    rdOf (packJ v rd op) = rd := by
  have h : (packJ v rd op).extractLsb' 7 5 = regBits rd := by
    apply BitVec.eq_of_getLsbD_eq; intro i hi
    simp only [packJ, BitVec.getLsbD_extractLsb', BitVec.getLsbD_append]
    interval_cases i <;> simp
  rw [rdOf, h]; rfl

/-! ### Immediates -/

/-- A word in the signed range of `n` bits is its own low `n` bits, sign-extended (R90). -/
theorem signExtend_low (v : Word) (n : Nat) (hn : 0 < n) (hn' : n ≤ 32) (lo : -(2 ^ (n - 1) : Int) ≤ v.toInt)
    (hi : v.toInt < 2 ^ (n - 1)) : (v.extractLsb' 0 n).signExtend 32 = v := by
  apply BitVec.eq_of_toInt_eq
  rw [BitVec.toInt_signExtend_of_le hn', BitVec.toInt_eq_toNat_bmod, BitVec.extractLsb'_toNat]
  have hp : (2 : Nat) ^ n = 2 * 2 ^ (n - 1) := by
    rw [← Nat.pow_succ']; congr 1; omega
  have e : ((v.toNat >>> 0 % 2 ^ n : Nat) : Int).bmod (2 ^ n) = v.toInt.bmod (2 ^ n) := by
    rw [BitVec.toInt_eq_toNat_bmod v, Nat.shiftRight_zero, Int.bmod_bmod_of_dvd (pow_dvd_pow 2 hn')]
    simpa using Int.emod_bmod (v.toNat : Int) (2 ^ n)
  rw [e]
  apply Int.bmod_eq_of_le
  · rw [hp]; push_cast; omega
  · rw [hp]; push_cast; omega

theorem fitsI_signExtend (v : Word) (h : fitsI v = true) : (v.extractLsb' 0 12).signExtend 32 = v := by
  simp only [fitsI, Bool.and_eq_true, decide_eq_true_eq] at h
  exact signExtend_low v 12 (by omega) (by omega) (by norm_num; omega) (by norm_num; omega)

theorem fitsB_signExtend (v : Word) (h : fitsB v = true) : (v.extractLsb' 0 13).signExtend 32 = v := by
  simp only [fitsB, Bool.and_eq_true, decide_eq_true_eq] at h
  exact signExtend_low v 13 (by omega) (by omega) (by norm_num; omega) (by norm_num; omega)

theorem fitsJ_signExtend (v : Word) (h : fitsJ v = true) : (v.extractLsb' 0 21).signExtend 32 = v := by
  simp only [fitsJ, Bool.and_eq_true, decide_eq_true_eq] at h
  exact signExtend_low v 21 (by omega) (by omega) (by norm_num; omega) (by norm_num; omega)

/-- Bit 0 of an even word. -/
theorem getLsbD_zero_of_even (v : Word) (h : v.toNat % 2 = 0) : v.getLsbD 0 = false := by
  rw [BitVec.getLsbD, Nat.testBit_zero]; simp [h]

/-- The low 12 bits of a multiple of 4096. -/
theorem getLsbD_of_fitsU (v : Word) (h : fitsU v = true) (k : Nat) (hk : k < 12) : v.getLsbD k = false := by
  have e : v.toNat % 2 ^ 12 = 0 := by simpa [fitsU] using h
  have := Nat.testBit_mod_two_pow v.toNat 12 k
  rw [e] at this
  simpa [hk, BitVec.getLsbD] using this.symm

/-- R91, format I. -/
theorem immI_packI (v : Word) (rs1 : Reg) (f3 : BitVec 3) (rd : Reg) (op : BitVec 7) (h : fitsI v = true) :
    immI (packI v rs1 f3 rd op) = v := by
  have e : (packI v rs1 f3 rd op).extractLsb' 20 12 = v.extractLsb' 0 12 := by
    apply BitVec.eq_of_getLsbD_eq; intro i hi
    simp only [packI, BitVec.getLsbD_extractLsb', BitVec.getLsbD_append]
    interval_cases i <;> simp
  rw [immI, e, fitsI_signExtend v h]

/-- R91, format S. -/
theorem immS_packS (v : Word) (rs2 rs1 : Reg) (f3 : BitVec 3) (op : BitVec 7) (h : fitsI v = true) :
    immS (packS v rs2 rs1 f3 op) = v := by
  have e : (packS v rs2 rs1 f3 op).extractLsb' 25 7 ++ (packS v rs2 rs1 f3 op).extractLsb' 7 5 = v.extractLsb' 0 12 := by
    apply BitVec.eq_of_getLsbD_eq; intro i hi
    simp only [packS, BitVec.getLsbD_extractLsb', BitVec.getLsbD_append]
    interval_cases i <;> simp
  rw [immS, e]; exact fitsI_signExtend v h

/-- R91, format B. -/
theorem immB_packB (v : Word) (rs2 rs1 : Reg) (f3 : BitVec 3) (op : BitVec 7) (h : fitsB v = true) :
    immB (packB v rs2 rs1 f3 op) = v := by
  have h0 : v.getLsbD 0 = false := by
    simp only [fitsB, Bool.and_eq_true, decide_eq_true_eq] at h
    exact getLsbD_zero_of_even v h.1.1
  have e : (packB v rs2 rs1 f3 op).extractLsb' 31 1 ++ (packB v rs2 rs1 f3 op).extractLsb' 7 1 ++
      (packB v rs2 rs1 f3 op).extractLsb' 25 6 ++ (packB v rs2 rs1 f3 op).extractLsb' 8 4 ++ 0#1 = v.extractLsb' 0 13 := by
    apply BitVec.eq_of_getLsbD_eq; intro i hi
    simp only [packB, BitVec.getLsbD_extractLsb', BitVec.getLsbD_append]
    interval_cases i <;> simp_all
  rw [immB, e]; exact fitsB_signExtend v h

/-- R91, format U. -/
theorem immU_packU (v : Word) (rd : Reg) (op : BitVec 7) (h : fitsU v = true) : immU (packU v rd op) = v := by
  have h0 := getLsbD_of_fitsU v h
  apply BitVec.eq_of_getLsbD_eq; intro i hi
  simp only [immU, packU, BitVec.getLsbD_extractLsb', BitVec.getLsbD_append]
  by_cases c : i < 12
  · simp [c, h0 i c]
  · have c1 : ¬ 12 + (i - 12) < 7 := by omega
    have c2 : ¬ 12 + (i - 12) - 7 < 5 := by omega
    have c3 : i - 12 < 20 := by omega
    have c4 : 12 + (i - 12) - 7 - 5 < 20 := by omega
    have c5 : 12 + (12 + (i - 12) - 7 - 5) = i := by omega
    simp only [c, c1, c2, c3, c4, c5, if_false, decide_true, Bool.true_and]

/-- R91, format J. -/
theorem immJ_packJ (v : Word) (rd : Reg) (op : BitVec 7) (h : fitsJ v = true) : immJ (packJ v rd op) = v := by
  have h0 : v.getLsbD 0 = false := by
    simp only [fitsJ, Bool.and_eq_true, decide_eq_true_eq] at h
    exact getLsbD_zero_of_even v h.1.1
  have e : (packJ v rd op).extractLsb' 31 1 ++ (packJ v rd op).extractLsb' 12 8 ++ (packJ v rd op).extractLsb' 20 1 ++
      (packJ v rd op).extractLsb' 21 10 ++ 0#1 = v.extractLsb' 0 21 := by
    apply BitVec.eq_of_getLsbD_eq; intro i hi
    simp only [packJ, BitVec.getLsbD_extractLsb', BitVec.getLsbD_append]
    interval_cases i <;> simp_all
  rw [immJ, e]; exact fitsJ_signExtend v h

/-- A word whose bit 0 is clear is even. -/
theorem even_of_getLsbD_zero (v : Word) (h : v.getLsbD 0 = false) : v.toNat % 2 = 0 := by
  rw [BitVec.getLsbD, Nat.testBit_zero] at h
  simpa using h

/-- "Bit 0 is always 0" (R86). -/
theorem immB_even (w : Word) : (immB w).toNat % 2 = 0 := by
  apply even_of_getLsbD_zero
  simp only [immB, BitVec.getLsbD_signExtend, BitVec.getLsbD_append]
  simp

/-- "Bit 0 is always 0" (R88). -/
theorem immJ_even (w : Word) : (immJ w).toNat % 2 = 0 := by
  apply even_of_getLsbD_zero
  simp only [immJ, BitVec.getLsbD_signExtend, BitVec.getLsbD_append]
  simp

/-! ### Decoding -/

/-- A decoded instruction's kind is the word's kind. -/
theorem kind_of_decode (w : Word) (i : Instr) (h : decode w = .ok i) : i.kind = kindOf w := by
  unfold decode at h
  split at h <;> first | (cases h; rw [‹kindOf w = _›]; rfl) | cases h

/-- The decoder rejects exactly the words of kind `UNKNOWN`, under the name of their class. -/
theorem decode_error_iff (w : Word) (e : Reject) : decode w = .error e ↔ kindOf w = .unknown ∧ e = rejectOf w := by
  constructor
  · intro h
    unfold decode at h
    split at h <;> cases h
    exact ⟨‹_›, rfl⟩
  · rintro ⟨h, rfl⟩
    simp [decode, h]

/-- The branch and JAL immediates the decoder delivers are even. -/
theorem decode_imm_even (w : Word) (i : Instr) (h : decode w = .ok i) :
    match i with
    | .beq _ _ v | .bne _ _ v | .blt _ _ v | .bge _ _ v | .bltu _ _ v | .bgeu _ _ v | .jal _ v => v.toNat % 2 = 0
    | _ => True := by
  unfold decode at h
  split at h <;> first | (cases h; first | trivial | exact immB_even w | exact immJ_even w) | cases h

end Sys2Proof
end

