-- ==== Sys2Proof/Laws/Disasm.lean ====
section
/-! SUPPORT. A target address is written in base 16 (R303, R306), whatever the free digit count. -/

namespace Sys2Proof.Machine

/-- The number that base-16 digits spell, most significant first. -/
def hexValue (ds : List Nat) : Nat := ds.foldl (fun n d => 16 * n + d) 0

@[simp] theorem hexValue_zero_cons (ds : List Nat) : hexValue (0 :: ds) = hexValue ds := rfl

theorem hexValue_zeros_append (n : Nat) (ds : List Nat) : hexValue (List.replicate n 0 ++ ds) = hexValue ds := by
  induction n with
  | zero => rfl
  | succ n ih => rw [List.replicate_succ, List.cons_append, hexValue_zero_cons, ih]

theorem hexValue_dropZeros (ds : List Nat) : hexValue (ds.dropWhile (fun n => n == 0)) = hexValue ds := by
  induction ds with
  | nil => rfl
  | cons d ds ih =>
    by_cases h : d = 0
    · subst h; simpa [List.dropWhile_cons] using ih
    · simp [h]

theorem hexValue_nibbles (a : Word) : hexValue (hexNibbles a) = a.toNat := by
  have := a.isLt
  simp [hexValue, hexNibbles, List.range, List.range.loop]
  omega

/-- The digits shown spell the address. -/
theorem hexDigits_value (least : Nat) (a : Word) : hexValue (hexDigits least a) = a.toNat := by
  rw [hexDigits, hexValue_zeros_append, hexValue_dropZeros, hexValue_nibbles]

/-- Every digit shown is a base-16 digit. -/
theorem hexDigits_lt (least : Nat) (a : Word) : ∀ d ∈ hexDigits least a, d < 16 := by
  intro d hd
  rcases List.mem_append.mp hd with h | h
  · rw [(List.mem_replicate.mp h).2]; decide
  · obtain ⟨k, -, rfl⟩ := List.mem_map.mp ((List.dropWhile_sublist _).subset h)
    exact Nat.mod_lt _ (by decide)

/-- As many digits as the free count asks for, and at least one. -/
theorem hexDigits_length (least : Nat) (a : Word) : max 1 least ≤ (hexDigits least a).length := by
  simp only [hexDigits, List.length_append, List.length_replicate]
  omega

/-- Different digits have different characters, in either case. -/
theorem hexChar_inj (upper : Bool) : ∀ d < 16, ∀ e < 16, hexChar upper d = hexChar upper e → d = e := by
  cases upper <;> decide

end Sys2Proof.Machine
end

