-- ==== Sys2Proof/Laws/Sparse.lean ====
section
/-! SUPPORT. Sparse maps: read after write, writes leave other keys alone, every write keeps the canonical form. The first two hold of every
list, canonical or not. -/

namespace Sys2Proof.Machine

variable {β : Type}

theorem Sparse.get_erase_same (d : β) (l : List (Nat × β)) (a : Nat) : Sparse.get d (Sparse.erase l a) a = d := by
  induction l with
  | nil => rfl
  | cons p l ih =>
    obtain ⟨k, v⟩ := p
    by_cases h : k = a
    · simpa [Sparse.erase, h] using ih
    · have h' : ¬ a = k := fun e => h e.symm
      simpa [Sparse.erase, Sparse.get, h, h'] using ih

theorem Sparse.get_erase_ne (d : β) (l : List (Nat × β)) (a c : Nat) (hc : c ≠ a) :
    Sparse.get d (Sparse.erase l a) c = Sparse.get d l c := by
  induction l with
  | nil => rfl
  | cons p l ih =>
    obtain ⟨k, v⟩ := p
    by_cases h : k = a
    · have : ¬ c = k := fun e => hc (e.trans h)
      simpa [Sparse.erase, Sparse.get, h, this, hc] using ih
    · by_cases e : c = k
      · simp [Sparse.erase, Sparse.get, h, e]
      · simpa [Sparse.erase, Sparse.get, h, e] using ih

/-- The key is not listed. -/
theorem Sparse.not_mem_erase (l : List (Nat × β)) (a : Nat) : ∀ p ∈ Sparse.erase l a, p.1 ≠ a := by
  intro p hp
  simpa [Sparse.erase] using (List.mem_filter.mp hp).2

theorem Sparse.get_insert_same (d : β) (l : List (Nat × β)) (a : Nat) (b : β) (h : ∀ p ∈ l, p.1 ≠ a) :
    Sparse.get d (Sparse.insert l a b) a = b := by
  induction l with
  | nil => simp [Sparse.insert, Sparse.get]
  | cons p l ih =>
    obtain ⟨k, v⟩ := p
    have hk : ¬ a = k := fun e => h (k, v) (by simp) e.symm
    have hl := ih (fun q hq => h q (List.mem_cons_of_mem _ hq))
    by_cases lt : a < k
    · simp [Sparse.insert, Sparse.get, lt]
    · simpa [Sparse.insert, Sparse.get, lt, hk] using hl

theorem Sparse.get_insert_ne (d : β) (l : List (Nat × β)) (a c : Nat) (b : β) (hc : c ≠ a) :
    Sparse.get d (Sparse.insert l a b) c = Sparse.get d l c := by
  induction l with
  | nil => simp [Sparse.insert, Sparse.get, hc]
  | cons p l ih =>
    obtain ⟨k, v⟩ := p
    by_cases lt : a < k
    · simp [Sparse.insert, Sparse.get, lt, hc]
    · by_cases e : c = k
      · simp [Sparse.insert, Sparse.get, lt, e]
      · simpa [Sparse.insert, Sparse.get, lt, e] using ih

/-- Read after write at the same key. -/
@[simp] theorem Sparse.get_set_same [DecidableEq β] (d : β) (l : List (Nat × β)) (a : Nat) (b : β) :
    Sparse.get d (Sparse.set d l a b) a = b := by
  by_cases h : b = d
  · simp [Sparse.set, h, Sparse.get_erase_same]
  · simp [Sparse.set, h, Sparse.get_insert_same d _ a b (Sparse.not_mem_erase l a)]

/-- A write leaves every other key alone. -/
theorem Sparse.get_set_ne [DecidableEq β] (d : β) (l : List (Nat × β)) (a c : Nat) (b : β) (hc : c ≠ a) :
    Sparse.get d (Sparse.set d l a b) c = Sparse.get d l c := by
  by_cases h : b = d
  · simp [Sparse.set, h, Sparse.get_erase_ne _ _ _ _ hc]
  · simp [Sparse.set, h, Sparse.get_insert_ne _ _ _ _ _ hc, Sparse.get_erase_ne _ _ _ _ hc]

/-! ### Canonical form -/

theorem Sparse.rising_iff_pairwise (l : List (Nat × β)) : Sparse.rising l = true ↔ l.Pairwise (fun p q => p.1 < q.1) := by
  induction l with
  | nil => simp [Sparse.rising]
  | cons p l ih =>
    cases l with
    | nil => simp [Sparse.rising]
    | cons q l =>
      rw [Sparse.rising, Bool.and_eq_true, ih, List.pairwise_cons (l := q :: l), decide_eq_true_eq]
      constructor
      · rintro ⟨hpq, hl⟩
        refine ⟨fun r hr => ?_, hl⟩
        rcases List.mem_cons.mp hr with rfl | hr
        · exact hpq
        · exact lt_trans hpq ((List.pairwise_cons.mp hl).1 r hr)
      · rintro ⟨hall, hl⟩
        exact ⟨hall q (by simp), hl⟩

theorem Sparse.canonical_iff [DecidableEq β] (d : β) (l : List (Nat × β)) :
    Sparse.canonical d l = true ↔ l.Pairwise (fun p q => p.1 < q.1) ∧ ∀ p ∈ l, p.2 ≠ d := by
  simp [Sparse.canonical, Sparse.rising_iff_pairwise]

theorem Sparse.mem_insert (l : List (Nat × β)) (a : Nat) (b : β) (p : Nat × β) :
    p ∈ Sparse.insert l a b ↔ p = (a, b) ∨ p ∈ l := by
  induction l with
  | nil => simp [Sparse.insert]
  | cons q l ih =>
    obtain ⟨k, v⟩ := q
    by_cases lt : a < k
    · simp [Sparse.insert, lt]
    · simp only [Sparse.insert, lt, if_false, List.mem_cons, ih]
      tauto

/-- What a write can list: an old pair, or the written one. -/
theorem Sparse.mem_set [DecidableEq β] (d : β) (l : List (Nat × β)) (a : Nat) (b : β) (p : Nat × β)
    (hp : p ∈ Sparse.set d l a b) : (p = (a, b) ∧ b ≠ d) ∨ p ∈ l := by
  by_cases h : b = d
  · simp only [Sparse.set, h, if_true, Sparse.erase] at hp
    exact .inr (List.mem_filter.mp hp).1
  · simp only [Sparse.set, h, if_false] at hp
    rcases (Sparse.mem_insert _ _ _ _).mp hp with e | e
    · exact .inl ⟨e, h⟩
    · exact .inr (List.mem_filter.mp e).1

theorem Sparse.pairwise_insert (l : List (Nat × β)) (a : Nat) (b : β) (hl : l.Pairwise (fun p q => p.1 < q.1))
    (hne : ∀ p ∈ l, p.1 ≠ a) : (Sparse.insert l a b).Pairwise (fun p q => p.1 < q.1) := by
  induction l with
  | nil => simp [Sparse.insert]
  | cons q l ih =>
    obtain ⟨k, v⟩ := q
    obtain ⟨hk, hl'⟩ := List.pairwise_cons.mp hl
    by_cases lt : a < k
    · simp only [Sparse.insert, lt, if_true]
      refine List.pairwise_cons.mpr ⟨fun p hp => ?_, hl⟩
      rcases List.mem_cons.mp hp with rfl | hp
      · exact lt
      · exact lt_trans lt (hk p hp)
    · simp only [Sparse.insert, lt, if_false]
      refine List.pairwise_cons.mpr ⟨fun p hp => ?_, ih hl' (fun p hp => hne p (List.mem_cons_of_mem _ hp))⟩
      rcases (Sparse.mem_insert _ _ _ _).mp hp with rfl | hp
      · have : k ≠ a := hne (k, v) (by simp)
        show k < a
        omega
      · exact hk p hp

/-- A write keeps the canonical form. -/
theorem Sparse.canonical_set [DecidableEq β] (d : β) (l : List (Nat × β)) (a : Nat) (b : β) (h : Sparse.canonical d l = true) :
    Sparse.canonical d (Sparse.set d l a b) = true := by
  rw [Sparse.canonical_iff] at h ⊢
  obtain ⟨hp, hd⟩ := h
  have he : (Sparse.erase l a).Pairwise (fun p q => p.1 < q.1) := hp.filter _
  refine ⟨?_, fun p hp => ?_⟩
  · by_cases e : b = d
    · simpa [Sparse.set, e] using he
    · simpa [Sparse.set, e] using Sparse.pairwise_insert _ a b he (Sparse.not_mem_erase l a)
  · rcases Sparse.mem_set d l a b p hp with ⟨rfl, hb⟩ | hm
    · exact hb
    · exact hd p hm

theorem Sparse.get_of_forall_ne (d : β) (l : List (Nat × β)) (a : Nat) (h : ∀ p ∈ l, p.1 ≠ a) : Sparse.get d l a = d := by
  induction l with
  | nil => rfl
  | cons p l ih =>
    obtain ⟨k, v⟩ := p
    have hk : ¬ a = k := fun e => h (k, v) (by simp) e.symm
    simpa [Sparse.get, hk] using ih (fun q hq => h q (List.mem_cons_of_mem _ hq))

/-- Two canonical lists that read alike at every key are the same list: equal contents are equal data. -/
theorem Sparse.canonical_ext [DecidableEq β] (d : β) (l m : List (Nat × β)) (hl : Sparse.canonical d l = true)
    (hm : Sparse.canonical d m = true) (h : ∀ a, Sparse.get d l a = Sparse.get d m a) : l = m := by
  rw [Sparse.canonical_iff] at hl hm
  obtain ⟨pl, dl⟩ := hl
  obtain ⟨pm, dm⟩ := hm
  induction l generalizing m with
  | nil =>
    cases m with
    | nil => rfl
    | cons q m =>
      have := h q.1
      simp only [Sparse.get, if_true] at this
      exact absurd this.symm (dm q (by simp))
  | cons p l ih =>
    cases m with
    | nil =>
      have := h p.1
      simp only [Sparse.get, if_true] at this
      exact absurd this (dl p (by simp))
    | cons q m =>
      obtain ⟨k, v⟩ := p
      obtain ⟨k', v'⟩ := q
      obtain ⟨hk, pl'⟩ := List.pairwise_cons.mp pl
      obtain ⟨hk', pm'⟩ := List.pairwise_cons.mp pm
      have notl : ∀ a, a ≤ k → ∀ p ∈ l, p.1 ≠ a := fun a ha p hp e => by have := hk p hp; omega
      have notm : ∀ a, a ≤ k' → ∀ p ∈ m, p.1 ≠ a := fun a ha p hp e => by have := hk' p hp; omega
      have keq : k = k' := by
        rcases lt_trichotomy k k' with lt | e | gt
        · have := h k
          have ne : ¬ k = k' := by omega
          simp only [Sparse.get, if_true, ne, if_false] at this
          rw [Sparse.get_of_forall_ne d m k (notm k (by omega))] at this
          exact absurd this (dl (k, v) (by simp))
        · exact e
        · have := h k'
          have ne : ¬ k' = k := by omega
          simp only [Sparse.get, if_true, ne, if_false] at this
          rw [Sparse.get_of_forall_ne d l k' (notl k' (by omega))] at this
          exact absurd this.symm (dm (k', v') (by simp))
      subst keq
      have veq : v = v' := by simpa [Sparse.get] using h k
      subst veq
      congr 1
      refine ih m (fun a => ?_) pl' (fun p hp => dl p (List.mem_cons_of_mem _ hp)) pm' (fun p hp => dm p (List.mem_cons_of_mem _ hp))
      by_cases e : a = k
      · subst e
        rw [Sparse.get_of_forall_ne d l a (notl a le_rfl), Sparse.get_of_forall_ne d m a (notm a le_rfl)]
      · simpa [Sparse.get, e] using h a

end Sys2Proof.Machine
end

