-- ==== Sys2Proof/Laws/State.lean ====
section
/-! SUPPORT. One lemma per field per update of the state, so that no later proof unfolds a record update. -/

namespace Sys2Proof.Machine

variable (s : State)

/-! ### `setReg` -/

@[simp] theorem State.setReg_x (r : Reg) (v : Word) : (s.setReg r v).x = s.x.set r.val v r.isLt := rfl
@[simp] theorem State.setReg_pc (r : Reg) (v : Word) : (s.setReg r v).pc = s.pc := rfl
@[simp] theorem State.setReg_nInsn (r : Reg) (v : Word) : (s.setReg r v).nInsn = s.nInsn := rfl
@[simp] theorem State.setReg_nUnknown (r : Reg) (v : Word) : (s.setReg r v).nUnknown = s.nUnknown := rfl
@[simp] theorem State.setReg_runState (r : Reg) (v : Word) : (s.setReg r v).runState = s.runState := rfl
@[simp] theorem State.setReg_bank (r : Reg) (v : Word) : (s.setReg r v).bank = s.bank := rfl
@[simp] theorem State.setReg_mapped (r : Reg) (v : Word) : (s.setReg r v).mapped = s.mapped := rfl
@[simp] theorem State.setReg_mem (r : Reg) (v : Word) : (s.setReg r v).mem = s.mem := rfl
@[simp] theorem State.setReg_input (r : Reg) (v : Word) : (s.setReg r v).input = s.input := rfl
@[simp] theorem State.setReg_inputTail (r : Reg) (v : Word) : (s.setReg r v).inputTail = s.inputTail := rfl
@[simp] theorem State.setReg_inputPos (r : Reg) (v : Word) : (s.setReg r v).inputPos = s.inputPos := rfl
@[simp] theorem State.setReg_eofValue (r : Reg) (v : Word) : (s.setReg r v).eofValue = s.eofValue := rfl
@[simp] theorem State.setReg_output (r : Reg) (v : Word) : (s.setReg r v).output = s.output := rfl

/-! ### `setByte` -/

@[simp] theorem State.setByte_x (a : Word) (b : Byte) : (s.setByte a b).x = s.x := rfl
@[simp] theorem State.setByte_pc (a : Word) (b : Byte) : (s.setByte a b).pc = s.pc := rfl
@[simp] theorem State.setByte_nInsn (a : Word) (b : Byte) : (s.setByte a b).nInsn = s.nInsn := rfl
@[simp] theorem State.setByte_nUnknown (a : Word) (b : Byte) : (s.setByte a b).nUnknown = s.nUnknown := rfl
@[simp] theorem State.setByte_runState (a : Word) (b : Byte) : (s.setByte a b).runState = s.runState := rfl
@[simp] theorem State.setByte_bank (a : Word) (b : Byte) : (s.setByte a b).bank = s.bank := rfl
@[simp] theorem State.setByte_mapped (a : Word) (b : Byte) : (s.setByte a b).mapped = s.mapped := rfl
@[simp] theorem State.setByte_mem (a : Word) (b : Byte) : (s.setByte a b).mem = Sparse.set Config.unlistedByte s.mem a.toNat b := rfl
@[simp] theorem State.setByte_input (a : Word) (b : Byte) : (s.setByte a b).input = s.input := rfl
@[simp] theorem State.setByte_inputTail (a : Word) (b : Byte) : (s.setByte a b).inputTail = s.inputTail := rfl
@[simp] theorem State.setByte_inputPos (a : Word) (b : Byte) : (s.setByte a b).inputPos = s.inputPos := rfl
@[simp] theorem State.setByte_eofValue (a : Word) (b : Byte) : (s.setByte a b).eofValue = s.eofValue := rfl
@[simp] theorem State.setByte_output (a : Word) (b : Byte) : (s.setByte a b).output = s.output := rfl

/-! ### `setHalf` -/

@[simp] theorem State.setHalf_x (a : Word) (v : BitVec 16) : (s.setHalf a v).x = s.x := by simp [State.setHalf]
@[simp] theorem State.setHalf_pc (a : Word) (v : BitVec 16) : (s.setHalf a v).pc = s.pc := by simp [State.setHalf]
@[simp] theorem State.setHalf_nInsn (a : Word) (v : BitVec 16) : (s.setHalf a v).nInsn = s.nInsn := by simp [State.setHalf]
@[simp] theorem State.setHalf_nUnknown (a : Word) (v : BitVec 16) : (s.setHalf a v).nUnknown = s.nUnknown := by simp [State.setHalf]
@[simp] theorem State.setHalf_runState (a : Word) (v : BitVec 16) : (s.setHalf a v).runState = s.runState := by simp [State.setHalf]
@[simp] theorem State.setHalf_bank (a : Word) (v : BitVec 16) : (s.setHalf a v).bank = s.bank := by simp [State.setHalf]
@[simp] theorem State.setHalf_mapped (a : Word) (v : BitVec 16) : (s.setHalf a v).mapped = s.mapped := by simp [State.setHalf]
@[simp] theorem State.setHalf_input (a : Word) (v : BitVec 16) : (s.setHalf a v).input = s.input := by simp [State.setHalf]
@[simp] theorem State.setHalf_inputTail (a : Word) (v : BitVec 16) : (s.setHalf a v).inputTail = s.inputTail := by simp [State.setHalf]
@[simp] theorem State.setHalf_inputPos (a : Word) (v : BitVec 16) : (s.setHalf a v).inputPos = s.inputPos := by simp [State.setHalf]
@[simp] theorem State.setHalf_eofValue (a : Word) (v : BitVec 16) : (s.setHalf a v).eofValue = s.eofValue := by simp [State.setHalf]
@[simp] theorem State.setHalf_output (a : Word) (v : BitVec 16) : (s.setHalf a v).output = s.output := by simp [State.setHalf]

/-! ### `setWord` -/

@[simp] theorem State.setWord_x (a v : Word) : (s.setWord a v).x = s.x := by simp [State.setWord]
@[simp] theorem State.setWord_pc (a v : Word) : (s.setWord a v).pc = s.pc := by simp [State.setWord]
@[simp] theorem State.setWord_nInsn (a v : Word) : (s.setWord a v).nInsn = s.nInsn := by simp [State.setWord]
@[simp] theorem State.setWord_nUnknown (a v : Word) : (s.setWord a v).nUnknown = s.nUnknown := by simp [State.setWord]
@[simp] theorem State.setWord_runState (a v : Word) : (s.setWord a v).runState = s.runState := by simp [State.setWord]
@[simp] theorem State.setWord_bank (a v : Word) : (s.setWord a v).bank = s.bank := by simp [State.setWord]
@[simp] theorem State.setWord_mapped (a v : Word) : (s.setWord a v).mapped = s.mapped := by simp [State.setWord]
@[simp] theorem State.setWord_input (a v : Word) : (s.setWord a v).input = s.input := by simp [State.setWord]
@[simp] theorem State.setWord_inputTail (a v : Word) : (s.setWord a v).inputTail = s.inputTail := by simp [State.setWord]
@[simp] theorem State.setWord_inputPos (a v : Word) : (s.setWord a v).inputPos = s.inputPos := by simp [State.setWord]
@[simp] theorem State.setWord_eofValue (a v : Word) : (s.setWord a v).eofValue = s.eofValue := by simp [State.setWord]
@[simp] theorem State.setWord_output (a v : Word) : (s.setWord a v).output = s.output := by simp [State.setWord]

/-! ### `putChar` -/

@[simp] theorem State.putChar_x (b : Byte) : (s.putChar b).x = s.x := rfl
@[simp] theorem State.putChar_pc (b : Byte) : (s.putChar b).pc = s.pc := rfl
@[simp] theorem State.putChar_nInsn (b : Byte) : (s.putChar b).nInsn = s.nInsn := rfl
@[simp] theorem State.putChar_nUnknown (b : Byte) : (s.putChar b).nUnknown = s.nUnknown := rfl
@[simp] theorem State.putChar_runState (b : Byte) : (s.putChar b).runState = s.runState := rfl
@[simp] theorem State.putChar_bank (b : Byte) : (s.putChar b).bank = s.bank := rfl
@[simp] theorem State.putChar_mapped (b : Byte) : (s.putChar b).mapped = s.mapped := rfl
@[simp] theorem State.putChar_mem (b : Byte) : (s.putChar b).mem = s.mem := rfl
@[simp] theorem State.putChar_input (b : Byte) : (s.putChar b).input = s.input := rfl
@[simp] theorem State.putChar_inputTail (b : Byte) : (s.putChar b).inputTail = s.inputTail := rfl
@[simp] theorem State.putChar_inputPos (b : Byte) : (s.putChar b).inputPos = s.inputPos := rfl
@[simp] theorem State.putChar_eofValue (b : Byte) : (s.putChar b).eofValue = s.eofValue := rfl
@[simp] theorem State.putChar_output (b : Byte) : (s.putChar b).output = s.output ++ [b] := rfl

/-! ### `observe` -/

@[simp] theorem State.observe_x (target : Word) (isBranch taken : Bool) : (s.observe target isBranch taken).x = s.x := rfl
@[simp] theorem State.observe_pc (target : Word) (isBranch taken : Bool) : (s.observe target isBranch taken).pc = s.pc := rfl
@[simp] theorem State.observe_nInsn (target : Word) (isBranch taken : Bool) : (s.observe target isBranch taken).nInsn = s.nInsn := rfl
@[simp] theorem State.observe_nUnknown (target : Word) (isBranch taken : Bool) : (s.observe target isBranch taken).nUnknown = s.nUnknown := rfl
@[simp] theorem State.observe_runState (target : Word) (isBranch taken : Bool) : (s.observe target isBranch taken).runState = s.runState := rfl
@[simp] theorem State.observe_bank (target : Word) (isBranch taken : Bool) : (s.observe target isBranch taken).bank = s.bank.observe s.pc target isBranch taken := rfl
@[simp] theorem State.observe_mapped (target : Word) (isBranch taken : Bool) : (s.observe target isBranch taken).mapped = s.mapped := rfl
@[simp] theorem State.observe_mem (target : Word) (isBranch taken : Bool) : (s.observe target isBranch taken).mem = s.mem := rfl
@[simp] theorem State.observe_input (target : Word) (isBranch taken : Bool) : (s.observe target isBranch taken).input = s.input := rfl
@[simp] theorem State.observe_inputTail (target : Word) (isBranch taken : Bool) : (s.observe target isBranch taken).inputTail = s.inputTail := rfl
@[simp] theorem State.observe_inputPos (target : Word) (isBranch taken : Bool) : (s.observe target isBranch taken).inputPos = s.inputPos := rfl
@[simp] theorem State.observe_eofValue (target : Word) (isBranch taken : Bool) : (s.observe target isBranch taken).eofValue = s.eofValue := rfl
@[simp] theorem State.observe_output (target : Word) (isBranch taken : Bool) : (s.observe target isBranch taken).output = s.output := rfl

/-! ### `commit` -/

@[simp] theorem State.commit_x (next : Word) : (s.commit next).x = s.x.set 0 0#32 := rfl
@[simp] theorem State.commit_pc (next : Word) : (s.commit next).pc = next := rfl
@[simp] theorem State.commit_nInsn (next : Word) : (s.commit next).nInsn = s.nInsn + 1 := rfl
@[simp] theorem State.commit_nUnknown (next : Word) : (s.commit next).nUnknown = s.nUnknown := rfl
@[simp] theorem State.commit_runState (next : Word) : (s.commit next).runState = s.runState := rfl
@[simp] theorem State.commit_bank (next : Word) : (s.commit next).bank = s.bank := rfl
@[simp] theorem State.commit_mapped (next : Word) : (s.commit next).mapped = s.mapped := rfl
@[simp] theorem State.commit_mem (next : Word) : (s.commit next).mem = s.mem := rfl
@[simp] theorem State.commit_input (next : Word) : (s.commit next).input = s.input := rfl
@[simp] theorem State.commit_inputTail (next : Word) : (s.commit next).inputTail = s.inputTail := rfl
@[simp] theorem State.commit_inputPos (next : Word) : (s.commit next).inputPos = s.inputPos := rfl
@[simp] theorem State.commit_eofValue (next : Word) : (s.commit next).eofValue = s.eofValue := rfl
@[simp] theorem State.commit_output (next : Word) : (s.commit next).output = s.output := rfl

/-! ### `commitSeq` -/

@[simp] theorem State.commitSeq_x : (s.commitSeq).x = s.x.set 0 0#32 := rfl
@[simp] theorem State.commitSeq_pc : (s.commitSeq).pc = nextSeq s.pc := rfl
@[simp] theorem State.commitSeq_nInsn : (s.commitSeq).nInsn = s.nInsn + 1 := rfl
@[simp] theorem State.commitSeq_nUnknown : (s.commitSeq).nUnknown = s.nUnknown := rfl
@[simp] theorem State.commitSeq_runState : (s.commitSeq).runState = s.runState := rfl
@[simp] theorem State.commitSeq_bank : (s.commitSeq).bank = s.bank := rfl
@[simp] theorem State.commitSeq_mapped : (s.commitSeq).mapped = s.mapped := rfl
@[simp] theorem State.commitSeq_mem : (s.commitSeq).mem = s.mem := rfl
@[simp] theorem State.commitSeq_input : (s.commitSeq).input = s.input := rfl
@[simp] theorem State.commitSeq_inputTail : (s.commitSeq).inputTail = s.inputTail := rfl
@[simp] theorem State.commitSeq_inputPos : (s.commitSeq).inputPos = s.inputPos := rfl
@[simp] theorem State.commitSeq_eofValue : (s.commitSeq).eofValue = s.eofValue := rfl
@[simp] theorem State.commitSeq_output : (s.commitSeq).output = s.output := rfl

/-! ### Registers through the updates -/

@[simp] theorem State.reg_setReg_same (r : Reg) (v : Word) : (s.setReg r v).reg r = v := by
  simp [State.reg, State.setReg, Vector.get_eq_getElem]

theorem State.reg_setReg_ne (r q : Reg) (v : Word) (h : q ≠ r) : (s.setReg r v).reg q = s.reg q := by
  have : ¬ r.val = q.val := fun e => h (Fin.ext e.symm)
  simp [State.reg, State.setReg, Vector.get_eq_getElem, this]

@[simp] theorem State.reg_commit_zero (n : Word) : (s.commit n).reg 0 = 0#32 := by
  simp [State.reg, State.commit, Vector.get_eq_getElem]

theorem State.reg_commit_ne (n : Word) (q : Reg) (h : q ≠ 0) : (s.commit n).reg q = s.reg q := by
  have : ¬ 0 = q.val := fun e => h (Fin.ext e.symm)
  simp [State.reg, State.commit, Vector.get_eq_getElem, this]

/-- The register file after the commit: `x[0]` is 0, the others are as they were (R127). -/
theorem State.reg_commit (n : Word) (q : Reg) : (s.commit n).reg q = if q = 0 then 0#32 else s.reg q := by
  by_cases h : q = 0
  · subst h; simp
  · simp [h, State.reg_commit_ne]

/-- A register after a write to another or to itself. -/
theorem State.reg_setReg (r q : Reg) (v : Word) : (s.setReg r v).reg q = if q = r then v else s.reg q := by
  by_cases h : q = r
  · subst h; simp
  · simp [h, State.reg_setReg_ne]

@[simp] theorem State.reg_setByte (a : Word) (b : Byte) (q : Reg) : (s.setByte a b).reg q = s.reg q := rfl
@[simp] theorem State.reg_setHalf (a : Word) (v : BitVec 16) (q : Reg) : (s.setHalf a v).reg q = s.reg q := by simp [State.setHalf]
@[simp] theorem State.reg_setWord (a v : Word) (q : Reg) : (s.setWord a v).reg q = s.reg q := by simp [State.setWord]
@[simp] theorem State.reg_putChar (b : Byte) (q : Reg) : (s.putChar b).reg q = s.reg q := rfl
@[simp] theorem State.reg_observe (t : Word) (i k : Bool) (q : Reg) : (s.observe t i k).reg q = s.reg q := rfl

/-! ### Memory reads through the updates that do not write memory -/

@[simp] theorem State.byteAt_setReg (r : Reg) (v a : Word) : (s.setReg r v).byteAt a = s.byteAt a := rfl
@[simp] theorem State.byteAt_commit (n a : Word) : (s.commit n).byteAt a = s.byteAt a := rfl
@[simp] theorem State.byteAt_commitSeq (a : Word) : s.commitSeq.byteAt a = s.byteAt a := rfl
@[simp] theorem State.byteAt_observe (t : Word) (i k : Bool) (a : Word) : (s.observe t i k).byteAt a = s.byteAt a := rfl
@[simp] theorem State.byteAt_putChar (b : Byte) (a : Word) : (s.putChar b).byteAt a = s.byteAt a := rfl

/-! ### The mapped set is read from one field only -/

theorem State.isMapped_congr {s t : State} (h : t.mapped = s.mapped) (a : Word) : t.isMapped a = s.isMapped a := by
  simp [State.isMapped, h]

theorem State.allMapped_congr {s t : State} (h : t.mapped = s.mapped) (a : Word) (n : Nat) : t.allMapped a n = s.allMapped a n := by
  simp [State.allMapped, State.isMapped_congr h]

@[simp] theorem State.allMapped_setByte (a c : Word) (b : Byte) (n : Nat) : (s.setByte a b).allMapped c n = s.allMapped c n := rfl
@[simp] theorem State.allMapped_setWord (a c v : Word) (n : Nat) : (s.setWord a v).allMapped c n = s.allMapped c n := by simp [State.setWord]
@[simp] theorem State.allMapped_commit (m c : Word) (n : Nat) : (s.commit m).allMapped c n = s.allMapped c n := rfl

end Sys2Proof.Machine
end

