-- ==== Sys2Proof/Laws/Ops.lean ====
section
/-! SUPPORT. What the shared operations on memory can do: one lemma each for reads after writes, the checks of an access, the fetch. -/

namespace Sys2Proof.Machine

variable (s : State)

/-! ### Bytes -/

/-- A byte after a byte write (R53). -/
theorem State.byteAt_setByte (a c : Word) (b : Byte) : (s.setByte a b).byteAt c = if c = a then b else s.byteAt c := by
  by_cases h : c = a
  · subst h; simp [State.byteAt]
  · have : c.toNat ≠ a.toNat := fun e => h (BitVec.eq_of_toNat_eq e)
    simp [State.byteAt, h, Sparse.get_set_ne _ _ _ _ _ this]

/-- The memory bytes of two states with the same list. -/
theorem State.byteAt_congr {s t : State} (h : t.mem = s.mem) (a : Word) : t.byteAt a = s.byteAt a := by
  simp [State.byteAt, h]

theorem State.wordAt_congr {s t : State} (h : ∀ a, t.byteAt a = s.byteAt a) (a : Word) : t.wordAt a = s.wordAt a := by
  simp [State.wordAt, h]

/-- Memory after a half is stored. -/
theorem State.byteAt_setHalf (a c : Word) (v : BitVec 16) :
    (s.setHalf a v).byteAt c = if c = a + 1#32 then v.extractLsb' 8 8 else if c = a then v.extractLsb' 0 8 else s.byteAt c := by
  simp [State.setHalf, State.byteAt_setByte]

/-- Memory after a word is stored. -/
theorem State.byteAt_setWord (a c v : Word) :
    (s.setWord a v).byteAt c =
      if c = a + 3#32 then v.extractLsb' 24 8 else if c = a + 2#32 then v.extractLsb' 16 8
      else if c = a + 1#32 then v.extractLsb' 8 8 else if c = a then v.extractLsb' 0 8 else s.byteAt c := by
  simp [State.setWord, State.byteAt_setByte]

/-- Four bytes of a word put together again are the word. -/
theorem wordOfBytes_extract (v : Word) :
    wordOfBytes (v.extractLsb' 0 8) (v.extractLsb' 8 8) (v.extractLsb' 16 8) (v.extractLsb' 24 8) = v := by
  apply BitVec.eq_of_getLsbD_eq
  intro i hi
  simp only [wordOfBytes, BitVec.getLsbD_append, BitVec.getLsbD_extractLsb']
  by_cases h1 : i < 8
  · simp [h1]
  · by_cases h2 : i < 16
    · have e : i - 8 < 8 := by omega
      have e' : 8 + (i - 8) = i := by omega
      simp [h1, e, e']
    · by_cases h3 : i < 24
      · have e0 : ¬ i - 8 < 8 := by omega
        have e : i - 8 - 8 < 8 := by omega
        have e' : 16 + (i - 8 - 8) = i := by omega
        simp [h1, e0, e, e']
      · have e0 : ¬ i - 8 < 8 := by omega
        have e1 : ¬ i - 8 - 8 < 8 := by omega
        have e : i - 8 - 8 - 8 < 8 := by omega
        have e' : 24 + (i - 8 - 8 - 8) = i := by omega
        simp [h1, e0, e1, e, e']

/-- Distinct offsets below 4 give distinct addresses. -/
theorem word_add_ne (a : Word) (i j : Nat) (hi : i < 4) (hj : j < 4) (h : i ≠ j) :
    a + BitVec.ofNat 32 i ≠ a + BitVec.ofNat 32 j := by
  intro e
  have e' := congrArg BitVec.toNat e
  simp only [BitVec.toNat_add, BitVec.toNat_ofNat] at e'
  have := a.isLt
  omega

/-- A word read after the same word was stored at the address. -/
theorem State.wordAt_setWord (a v : Word) : (s.setWord a v).wordAt a = v := by
  have h01 : ¬ a = a + 1#32 := by simp
  have h02 : ¬ a = a + 2#32 := by simp
  have h03 : ¬ a = a + 3#32 := by simp
  have h12 : ¬ a + 1#32 = a + 2#32 := word_add_ne a 1 2 (by omega) (by omega) (by omega)
  have h13 : ¬ a + 1#32 = a + 3#32 := word_add_ne a 1 3 (by omega) (by omega) (by omega)
  have h23 : ¬ a + 2#32 = a + 3#32 := word_add_ne a 2 3 (by omega) (by omega) (by omega)
  simp only [State.wordAt, State.byteAt_setWord, h01, h02, h03, h12, h13, h23, if_true, if_false]
  exact wordOfBytes_extract v

/-! ### The canonical form of memory -/

theorem Memory.wf_iff (m : Memory) :
    Memory.wf m = true ↔ Sparse.canonical Config.unlistedByte m = true ∧ ∀ p ∈ m, p.1 < 2 ^ 32 := by
  simp [Memory.wf]

/-- A byte write keeps the canonical form. -/
theorem State.wf_setByte (a : Word) (b : Byte) (h : Memory.wf s.mem = true) : Memory.wf (s.setByte a b).mem = true := by
  rw [Memory.wf_iff] at h ⊢
  refine ⟨Sparse.canonical_set _ _ _ _ h.1, fun p hp => ?_⟩
  rcases Sparse.mem_set _ _ _ _ p hp with ⟨rfl, -⟩ | hm
  · exact a.isLt
  · exact h.2 p hm

theorem State.wf_setHalf (a : Word) (v : BitVec 16) (h : Memory.wf s.mem = true) : Memory.wf (s.setHalf a v).mem = true :=
  State.wf_setByte _ _ _ (State.wf_setByte _ _ _ h)

theorem State.wf_setWord (a v : Word) (h : Memory.wf s.mem = true) : Memory.wf (s.setWord a v).mem = true :=
  State.wf_setByte _ _ _ (State.wf_setByte _ _ _ (State.wf_setByte _ _ _ (State.wf_setByte _ _ _ h)))

/-! ### The checks of a data access (R52 to R57) -/

theorem State.checkData_ok (a : Word) (n : Nat) (hal : a.toNat % n = 0) (hm : s.allMapped a n = true) : s.checkData a n = .ok () := by
  simp [State.checkData, hal, hm]

theorem State.checkData_misaligned (a : Word) (n : Nat) (h : a.toNat % n ≠ 0) : s.checkData a n = .error (.dataMisaligned a) := by
  simp [State.checkData, h]

theorem State.checkData_unmapped (a : Word) (n : Nat) (hal : a.toNat % n = 0) (hm : s.allMapped a n = false) :
    s.checkData a n = .error (.unmapped a) := by
  simp [State.checkData, hal, hm]

/-- Everything the checks can answer. -/
theorem State.checkData_cases (a : Word) (n : Nat) :
    (a.toNat % n ≠ 0 ∧ s.checkData a n = .error (.dataMisaligned a)) ∨
    (a.toNat % n = 0 ∧ s.allMapped a n = false ∧ s.checkData a n = .error (.unmapped a)) ∨
    (a.toNat % n = 0 ∧ s.allMapped a n = true ∧ s.checkData a n = .ok ()) := by
  by_cases h : a.toNat % n = 0
  · cases hm : s.allMapped a n
    · exact .inr (.inl ⟨h, rfl, s.checkData_unmapped a n h hm⟩)
    · exact .inr (.inr ⟨h, rfl, s.checkData_ok a n h hm⟩)
  · exact .inl ⟨h, s.checkData_misaligned a n h⟩

/-! ### The fetch (R56) -/

theorem State.fetch_ok (hal : s.pc.toNat % 4 = 0) (hm : s.allMapped s.pc 4 = true) : s.fetch = .ok (s.wordAt s.pc) := by
  simp [State.fetch, hal, hm]

theorem State.fetch_misaligned (h : s.pc.toNat % 4 ≠ 0) : s.fetch = .error (.fetchMisaligned s.pc) := by
  simp [State.fetch, h]

theorem State.fetch_unmapped (hal : s.pc.toNat % 4 = 0) (hm : s.allMapped s.pc 4 = false) : s.fetch = .error (.unmapped s.pc) := by
  simp [State.fetch, hal, hm]

/-- Everything the fetch can answer. -/
theorem State.fetch_cases :
    (s.pc.toNat % 4 ≠ 0 ∧ s.fetch = .error (.fetchMisaligned s.pc)) ∨
    (s.pc.toNat % 4 = 0 ∧ s.allMapped s.pc 4 = false ∧ s.fetch = .error (.unmapped s.pc)) ∨
    (s.pc.toNat % 4 = 0 ∧ s.allMapped s.pc 4 = true ∧ s.fetch = .ok (s.wordAt s.pc)) := by
  by_cases h : s.pc.toNat % 4 = 0
  · cases hm : s.allMapped s.pc 4
    · exact .inr (.inl ⟨h, rfl, s.fetch_unmapped h hm⟩)
    · exact .inr (.inr ⟨h, rfl, s.fetch_ok h hm⟩)
  · exact .inl ⟨h, s.fetch_misaligned h⟩

/-! ### The shapes of the execute stage -/

/-- A load that reads `v` writes it and goes on. -/
theorem execLoad_ok (read : State → Word → Except Fault Word) (rd rs1 : Reg) (imm v : Word)
    (h : read s (dataAddr s rs1 imm) = .ok v) : execLoad read rd rs1 imm s = finishReg s rd v := by
  simp [execLoad, h]

/-- A load whose read faults is that fault. -/
theorem execLoad_error (read : State → Word → Except Fault Word) (rd rs1 : Reg) (imm : Word) (f : Fault)
    (h : read s (dataAddr s rs1 imm) = .error f) : execLoad read rd rs1 imm s = .fault f := by
  simp [execLoad, h]

/-- A store whose write gives `t` goes on from `t`. -/
theorem execStore_ok (write : State → Word → Word → Except Fault State) (rs1 rs2 : Reg) (imm : Word) (t : State)
    (h : write s (dataAddr s rs1 imm) (s.reg rs2) = .ok t) : execStore write rs1 rs2 imm s = .next t.commitSeq := by
  simp [execStore, h]

/-- A store whose write faults is that fault. -/
theorem execStore_error (write : State → Word → Word → Except Fault State) (rs1 rs2 : Reg) (imm : Word) (f : Fault)
    (h : write s (dataAddr s rs1 imm) (s.reg rs2) = .error f) : execStore write rs1 rs2 imm s = .fault f := by
  simp [execStore, h]

end Sys2Proof.Machine
end

