-- ==== Sys2Proof/Laws/Predictor.lean ====
section
/-! SUPPORT. The predictor bank: the fields after an observation, indices within the table, the well-formedness every observation keeps. -/

namespace Sys2Proof.Machine

variable (b : Bank) (pc target : Word) (ib tk : Bool)

@[simp] theorem Bank.observe_nCtl : (b.observe pc target ib tk).nCtl = b.nCtl + 1 := rfl
@[simp] theorem Bank.observe_errNt : (b.observe pc target ib tk).errNt = errAfter b.errNt false tk := rfl
@[simp] theorem Bank.observe_errBtfnt :
    (b.observe pc target ib tk).errBtfnt = errAfter b.errBtfnt (btfntPredicts pc target) tk := rfl
@[simp] theorem Bank.observe_bimodal : (b.observe pc target ib tk).bimodal =
    b.bimodal.map (fun t => t.observe b.ctrInit (bimodalIndex pc t.size) tk) := rfl
@[simp] theorem Bank.observe_gshare : (b.observe pc target ib tk).gshare =
    b.gshare.map (fun t => t.observe b.ctrInit (gshareIndex pc b.ghr t.size) tk) := rfl
@[simp] theorem Bank.observe_ghr : (b.observe pc target ib tk).ghr = ghrShift b.ghr tk := rfl
@[simp] theorem Bank.observe_ctrInit : (b.observe pc target ib tk).ctrInit = b.ctrInit := rfl

@[simp] theorem Table.observe_size (init : Ctr) (i : Nat) (t : Table) : (t.observe init i tk).size = t.size := rfl
@[simp] theorem Table.observe_err (init : Ctr) (i : Nat) (t : Table) :
    (t.observe init i tk).err = errAfter t.err (predictsTaken (t.ctr init i)) tk := rfl

/-- The counters after an observation: only the indexed one moves (R276). -/
theorem Table.ctr_observe (init : Ctr) (i j : Nat) (t : Table) :
    (t.observe init i tk).ctr init j = if j = i then sat (t.ctr init i) tk else t.ctr init j := by
  by_cases h : j = i
  · subst h; simp [Table.ctr, Table.observe]
  · simp [Table.ctr, Table.observe, h, Sparse.get_set_ne _ _ _ _ _ h]

/-- An error count grows by 0 or 1. -/
theorem errAfter_bounds (e : Nat) (p t : Bool) : e ≤ errAfter e p t ∧ errAfter e p t ≤ e + 1 := by
  unfold errAfter; split <;> omega

/-- A bimodal index lies in its table (R276). -/
theorem bimodalIndex_lt (pc : Word) (n : Nat) (h : 0 < n) : bimodalIndex pc n < n := by
  have : bimodalIndex pc n ≤ n - 1 := Nat.and_le_right
  omega

/-- A gshare index lies in its table (R277). -/
theorem gshareIndex_lt (pc : Word) (g : BitVec 16) (n : Nat) (h : 0 < n) : gshareIndex pc g n < n := by
  have : gshareIndex pc g n ≤ n - 1 := Nat.and_le_right
  omega

theorem isPow2_pos (n : Nat) (h : isPow2 n = true) : 0 < n := by
  have e : n = 2 ^ Nat.log2 n := by simpa [isPow2] using h
  rw [e]; positivity

theorem Table.wf_iff (init : Ctr) (k : Nat) (t : Table) : t.wf init k = true ↔
    isPow2 t.size = true ∧ Sparse.canonical init t.cells = true ∧ (∀ p ∈ t.cells, p.1 < t.size) ∧ t.err ≤ k := by
  simp [Table.wf, and_assoc]

/-- An observation at an index of the table keeps the table well formed. -/
theorem Table.wf_observe (init : Ctr) (i k : Nat) (t : Table) (h : t.wf init k = true) (hi : i < t.size) :
    (t.observe init i tk).wf init (k + 1) = true := by
  rw [Table.wf_iff] at h ⊢
  obtain ⟨hp, hc, hb, he⟩ := h
  refine ⟨hp, Sparse.canonical_set _ _ _ _ hc, fun p hm => ?_, ?_⟩
  · rcases Sparse.mem_set _ _ _ _ p hm with ⟨rfl, -⟩ | hm
    · exact hi
    · exact hb p hm
  · have := (errAfter_bounds t.err (predictsTaken (t.ctr init i)) tk).2
    simp only [Table.observe_err]
    omega

theorem Bank.wf_iff : b.wf = true ↔ b.errNt ≤ b.nCtl ∧ b.errBtfnt ≤ b.nCtl ∧
    (∀ t ∈ b.bimodal, t.wf b.ctrInit b.nCtl = true) ∧ (∀ t ∈ b.gshare, t.wf b.ctrInit b.nCtl = true) := by
  simp [Bank.wf, and_assoc]

/-- Every observation keeps the bank well formed (R282). -/
theorem Bank.wf_observe (h : b.wf = true) : (b.observe pc target ib tk).wf = true := by
  rw [Bank.wf_iff] at h ⊢
  obtain ⟨h1, h2, h3, h4⟩ := h
  refine ⟨?_, ?_, ?_, ?_⟩
  · have := (errAfter_bounds b.errNt false tk).2
    simp only [Bank.observe_errNt, Bank.observe_nCtl]; omega
  · have := (errAfter_bounds b.errBtfnt (btfntPredicts pc target) tk).2
    simp only [Bank.observe_errBtfnt, Bank.observe_nCtl]; omega
  · intro t ht
    obtain ⟨u, hu, rfl⟩ := List.mem_map.mp ht
    have hw := h3 u hu
    have hpos := isPow2_pos _ ((Table.wf_iff _ _ _).mp hw).1
    exact Table.wf_observe tk _ _ _ u hw (bimodalIndex_lt pc _ hpos)
  · intro t ht
    obtain ⟨u, hu, rfl⟩ := List.mem_map.mp ht
    have hw := h4 u hu
    have hpos := isPow2_pos _ ((Table.wf_iff _ _ _).mp hw).1
    exact Table.wf_observe tk _ _ _ u hw (gshareIndex_lt pc _ _ hpos)

/-- The history register bit by bit (R278). -/
theorem getLsbD_ghrShift (g : BitVec 16) (k : Nat) (hk : k < 16) :
    (ghrShift g tk).getLsbD k = if k = 0 then tk else g.getLsbD (k - 1) := by
  simp only [ghrShift, BitVec.getLsbD_append, BitVec.getLsbD_extractLsb', BitVec.getLsbD_ofBool]
  by_cases h : k = 0
  · subst h; simp
  · have h1 : ¬ k < 1 := by omega
    have h2 : k - 1 < 15 := by omega
    simp [h, h1, h2]

end Sys2Proof.Machine
end

