-- ==== Sys2Proof/Laws/Exec.lean ====
section
/-! SUPPORT. Once and for all: what an access, an instruction and a step can answer. -/

namespace Sys2Proof.Machine

/-! ### Accesses: they succeed exactly when aligned and mapped -/

section Accesses
variable (s : State) (a v : Word)

theorem except_map_ok {α β : Type} {e : Except Fault α} {f : α → β} {y : β} :
    e.map f = .ok y ↔ ∃ x, e = .ok x ∧ f x = y := by
  cases e <;> simp [Except.map]

theorem except_map_error {α β : Type} {e : Except Fault α} {f : α → β} {g : Fault} :
    e.map f = .error g ↔ e = .error g := by
  cases e <;> simp [Except.map]

/-- The checks succeed when the address is aligned and every byte is mapped. -/
theorem State.checkData_ok_iff (n : Nat) (u : Unit) : s.checkData a n = .ok u ↔ a.toNat % n = 0 ∧ s.allMapped a n = true := by
  rcases s.checkData_cases a n with ⟨h, e⟩ | ⟨h, hm, e⟩ | ⟨h, hm, e⟩ <;> simp [*]

/-- The checks fail with the misalignment first. -/
theorem State.checkData_error_iff (n : Nat) (f : Fault) : s.checkData a n = .error f ↔
    (a.toNat % n ≠ 0 ∧ f = .dataMisaligned a) ∨ (a.toNat % n = 0 ∧ s.allMapped a n = false ∧ f = .unmapped a) := by
  rcases s.checkData_cases a n with ⟨h, e⟩ | ⟨h, hm, e⟩ | ⟨h, hm, e⟩ <;> simp [*] <;> exact eq_comm

end Accesses

/-! ### Shapes -/

theorem finishReg_next (s t : State) (rd : Reg) (v : Word) : finishReg s rd v = .next t ↔ t = (s.setReg rd v).commitSeq := by
  simp [finishReg, eq_comm]

/-- A load goes on exactly when its read succeeds. -/
theorem execLoad_next {read : State → Word → Except Fault Word} {rd rs1 : Reg} {imm : Word} {s t : State}
    (h : execLoad read rd rs1 imm s = .next t) :
    ∃ v, read s (dataAddr s rs1 imm) = .ok v ∧ t = (s.setReg rd v).commitSeq := by
  unfold execLoad at h
  split at h
  · exact ⟨_, ‹_›, (finishReg_next _ _ _ _).mp h⟩
  · cases h

/-- A store goes on exactly when its write succeeds. -/
theorem execStore_next {write : State → Word → Word → Except Fault State} {rs1 rs2 : Reg} {imm : Word} {s t : State}
    (h : execStore write rs1 rs2 imm s = .next t) :
    ∃ u, write s (dataAddr s rs1 imm) (s.reg rs2) = .ok u ∧ t = u.commitSeq := by
  unfold execStore at h
  split at h
  · exact ⟨_, ‹_›, by simpa [eq_comm] using h⟩
  · cases h

/-- What a store's write leaves: the old state with one, two or four bytes replaced. -/
def StoreEffect (s u : State) : Prop :=
  (∃ a b, u = s.setByte a b) ∨ (∃ a v, u = s.setHalf a v) ∨ (∃ a v, u = s.setWord a v)

theorem StoreEffect.wf {s u : State} (h : StoreEffect s u) (hw : Memory.wf s.mem = true) : Memory.wf u.mem = true := by
  rcases h with ⟨a, b, rfl⟩ | ⟨a, v, rfl⟩ | ⟨a, v, rfl⟩
  · exact s.wf_setByte a b hw
  · exact s.wf_setHalf a v hw
  · exact s.wf_setWord a v hw

/-- A store's write changes memory and nothing else. -/
theorem StoreEffect.frame {s u : State} (h : StoreEffect s u) : ∃ m, u = { s with mem := m } := by
  rcases h with ⟨a, b, rfl⟩ | ⟨a, v, rfl⟩ | ⟨a, v, rfl⟩ <;> exact ⟨_, rfl⟩

theorem writeSb_effect {s u : State} {a v : Word} (h : writeSb s a v = .ok u) : StoreEffect s u := by
  obtain ⟨-, -, rfl⟩ := except_map_ok.mp h
  exact .inl ⟨_, _, rfl⟩

theorem writeSh_effect {s u : State} {a v : Word} (h : writeSh s a v = .ok u) : StoreEffect s u := by
  obtain ⟨-, -, rfl⟩ := except_map_ok.mp h
  exact .inr (.inl ⟨_, _, rfl⟩)

theorem writeSw_effect {s u : State} {a v : Word} (h : writeSw s a v = .ok u) : StoreEffect s u := by
  obtain ⟨-, -, rfl⟩ := except_map_ok.mp h
  exact .inr (.inr ⟨_, _, rfl⟩)

/-- Everything ECALL can do (R251 to R255). -/
theorem execEcall_cases (s : State) :
    (s.reg regA7 = 1#32 ∧ execEcall s = ecallGetChar s) ∨
    (s.reg regA7 = 2#32 ∧ execEcall s = ecallPutChar s) ∨
    ((s.reg regA7 = 3#32 ∨ s.reg regA7 = 93#32) ∧ execEcall s = ecallHalt s) ∨
    (s.reg regA7 ≠ 1#32 ∧ s.reg regA7 ≠ 2#32 ∧ s.reg regA7 ≠ 3#32 ∧ s.reg regA7 ≠ 93#32 ∧ execEcall s = ecallOther s) := by
  unfold execEcall
  split_ifs with h1 h2 h3
  · exact .inl ⟨h1, rfl⟩
  · exact .inr (.inl ⟨h2, rfl⟩)
  · exact .inr (.inr (.inl ⟨h3, rfl⟩))
  · push Not at h3
    exact .inr (.inr (.inr ⟨h1, h2, h3.1, h3.2, rfl⟩))

/-- A character is answered where one is left or end of input follows the last one. -/
theorem State.getCharAnswers_iff (s : State) :
    s.getCharAnswers = true ↔ s.inputPos < s.input.length ∨ s.inputTail = .endOfInput := by
  unfold State.getCharAnswers
  cases h : s.input[s.inputPos]? with
  | some c =>
    obtain ⟨hlt, -⟩ := List.getElem?_eq_some_iff.mp h
    simp [hlt]
  | none =>
    have hge := List.getElem?_eq_none_iff.mp h
    cases s.inputTail <;> simp [hge]

/-- Service 1 goes on only with an answer. -/
theorem ecallGetChar_next {s t : State} (h : ecallGetChar s = .next t) : s.getCharAnswers = true ∧
    t = ({ s with inputPos := s.getCharPos }.setReg regA0 s.getCharValue).commitSeq := by
  unfold ecallGetChar at h
  split at h
  · exact ⟨‹_›, (Host.Outcome.next.inj h).symm⟩
  · cases h

/-- Service 1 refuses exactly without an answer. -/
theorem ecallGetChar_refused {s : State} {r : Refusal} :
    ecallGetChar s = .refused r ↔ s.getCharAnswers = false ∧ r = .awaitingInput := by
  unfold ecallGetChar
  cases s.getCharAnswers <;> simp [eq_comm]

/-! ### Instructions -/

/-- The state an ECALL goes to, by service. -/
def EcallEffect (s t : State) : Prop :=
  (s.reg regA7 = 1#32 ∧ s.getCharAnswers = true ∧
    t = ({ s with inputPos := s.getCharPos }.setReg regA0 s.getCharValue).commitSeq) ∨
  (s.reg regA7 = 2#32 ∧ t = (s.putChar ((s.reg regA0).extractLsb' 0 8)).commitSeq) ∨
  ((s.reg regA7 = 3#32 ∨ s.reg regA7 = 93#32) ∧ t = { s.commitSeq with runState := .halted }) ∨
  (s.reg regA7 ≠ 1#32 ∧ s.reg regA7 ≠ 2#32 ∧ s.reg regA7 ≠ 3#32 ∧ s.reg regA7 ≠ 93#32 ∧ t = s.commitSeq)

/-- Everything an instruction can do when it goes on, by its shape. -/
theorem exec_next {i : Instr} {s t : State} (h : exec i s = .next t) :
    ((i.shape = .compute ∨ i.shape = .load) ∧ ∃ rd v, destOf i = some rd ∧ t = (s.setReg rd v).commitSeq) ∨
    (i.shape = .store ∧ ∃ u, StoreEffect s u ∧ t = u.commitSeq) ∨
    (i.shape = .branch ∧ ∃ tk imm,
      t = (s.observe (relTarget s.pc imm) true tk).commit (if tk then relTarget s.pc imm else nextSeq s.pc)) ∨
    (i.shape = .jump ∧ ∃ rd target, destOf i = some rd ∧
      t = ((s.observe target false true).setReg rd (nextSeq s.pc)).commit target) ∨
    (i = .ecall ∧ EcallEffect s t) := by
  have compute : ∀ {rd v}, destOf i = some rd → finishReg s rd v = .next t →
      ∃ rd v, destOf i = some rd ∧ t = (s.setReg rd v).commitSeq :=
    fun d e => ⟨_, _, d, (finishReg_next _ _ _ _).mp e⟩
  have load : ∀ {read rd rs1 imm}, destOf i = some rd → execLoad read rd rs1 imm s = .next t →
      ∃ rd v, destOf i = some rd ∧ t = (s.setReg rd v).commitSeq :=
    fun d e => let ⟨v, _, e⟩ := execLoad_next e; ⟨_, v, d, e⟩
  have branch : ∀ {tk imm}, execBranch tk imm s = .next t → ∃ tk imm,
      t = (s.observe (relTarget s.pc imm) true tk).commit (if tk then relTarget s.pc imm else nextSeq s.pc) :=
    fun e => ⟨_, _, (Host.Outcome.next.inj e).symm⟩
  have jump : ∀ {target rd}, destOf i = some rd → execJump target rd s = .next t →
      ∃ rd target, destOf i = some rd ∧ t = ((s.observe target false true).setReg rd (nextSeq s.pc)).commit target :=
    fun d e => ⟨_, _, d, (Host.Outcome.next.inj e).symm⟩
  cases i with
  | lui | auipc => exact .inl ⟨.inl rfl, compute rfl h⟩
  | addi | slti | sltiu | xori | ori | andi | slli | srli | srai => exact .inl ⟨.inl rfl, compute rfl h⟩
  | add | sub | sll | slt | sltu | xor | srl | sra | or | and => exact .inl ⟨.inl rfl, compute rfl h⟩
  | mul | mulh | mulhsu | mulhu | div | divu | rem | remu => exact .inl ⟨.inl rfl, compute rfl h⟩
  | lb | lh | lw | lbu | lhu => exact .inl ⟨.inr rfl, load rfl h⟩
  | sb => obtain ⟨u, hu, e⟩ := execStore_next h; exact .inr (.inl ⟨rfl, u, writeSb_effect hu, e⟩)
  | sh => obtain ⟨u, hu, e⟩ := execStore_next h; exact .inr (.inl ⟨rfl, u, writeSh_effect hu, e⟩)
  | sw => obtain ⟨u, hu, e⟩ := execStore_next h; exact .inr (.inl ⟨rfl, u, writeSw_effect hu, e⟩)
  | beq | bne | blt | bge | bltu | bgeu => exact .inr (.inr (.inl ⟨rfl, branch h⟩))
  | jal | jalr => exact .inr (.inr (.inr (.inl ⟨rfl, jump rfl h⟩)))
  | ecall =>
    refine .inr (.inr (.inr (.inr ⟨rfl, ?_⟩)))
    change execEcall s = .next t at h
    rcases execEcall_cases s with ⟨h1, e⟩ | ⟨h1, e⟩ | ⟨h1, e⟩ | ⟨h1, h2, h3, h4, e⟩ <;> rw [e] at h
    · obtain ⟨ha, e⟩ := ecallGetChar_next h
      exact .inl ⟨h1, ha, e⟩
    · exact .inr (.inl ⟨h1, (Host.Outcome.next.inj h).symm⟩)
    · exact .inr (.inr (.inl ⟨h1, (Host.Outcome.next.inj h).symm⟩))
    · exact .inr (.inr (.inr ⟨h1, h2, h3, h4, (Host.Outcome.next.inj h).symm⟩))

/-- A load never refuses. -/
theorem execLoad_ne_refused {read : State → Word → Except Fault Word} {rd rs1 : Reg} {imm : Word} {s : State} {r : Refusal} :
    execLoad read rd rs1 imm s ≠ .refused r := by
  unfold execLoad
  split <;> nofun

/-- A store never refuses. -/
theorem execStore_ne_refused {write : State → Word → Word → Except Fault State} {rs1 rs2 : Reg} {imm : Word} {s : State} {r : Refusal} :
    execStore write rs1 rs2 imm s ≠ .refused r := by
  unfold execStore
  split <;> nofun

/-- The one refusal of an instruction: a character read without an answer. -/
theorem exec_refused {i : Instr} {s : State} {r : Refusal} (h : exec i s = .refused r) :
    i = .ecall ∧ s.reg regA7 = 1#32 ∧ s.getCharAnswers = false ∧ r = .awaitingInput := by
  cases i with
  | lb | lh | lw | lbu | lhu => exact absurd h execLoad_ne_refused
  | sb | sh | sw => exact absurd h execStore_ne_refused
  | ecall =>
    change execEcall s = .refused r at h
    rcases execEcall_cases s with ⟨h1, e⟩ | ⟨-, e⟩ | ⟨-, e⟩ | ⟨-, -, -, -, e⟩ <;> rw [e] at h
    · exact ⟨rfl, h1, ecallGetChar_refused.mp h⟩
    · cases h
    · cases h
    · cases h
  | _ => cases h

/-! ### Steps -/

/-- A step that goes on is an instruction's or an unknown word's. -/
theorem step_next {s t : State} (h : step s = .next t) : s.runState = .running ∧ ∃ w, s.fetch = .ok w ∧
    ((∃ i, decode w = .ok i ∧ exec i s = .next t) ∨
     (∃ e, decode w = .error e ∧ t = { s with nUnknown := s.nUnknown + 1 }.commitSeq)) := by
  unfold step at h
  split at h
  · cases h
  · refine ⟨‹_›, ?_⟩
    split at h
    · cases h
    · refine ⟨_, ‹_›, ?_⟩
      split at h
      · exact .inl ⟨_, ‹_›, h⟩
      · exact .inr ⟨_, ‹_›, (Host.Outcome.next.inj h).symm⟩

/-- A running core with a word fetched and decoded runs the instruction. -/
theorem step_of_decode {s : State} {w : Word} {i : Instr} (hr : s.runState = .running) (hf : s.fetch = .ok w)
    (hd : decode w = .ok i) : step s = exec i s := by
  simp [step, hr, hf, hd]

/-- A running core whose fetch faults stops with that fault. -/
theorem step_of_fetch_error {s : State} {f : Fault} (hr : s.runState = .running) (hf : s.fetch = .error f) : step s = .fault f := by
  simp [step, hr, hf]

end Sys2Proof.Machine
end

