-- ==== Sys2Proof/Laws/PerInstr.lean ====
section
/-! SUPPORT. Statements made instruction by instruction. Family `EncodingHasKind`: the word an instruction encodes to is of the
instruction's own kind whatever its operands, even one the encoding cannot carry (R103: an operand field never reaches a fixed field). -/

namespace Sys2Proof

theorem kindOf_lui (v : Word) (rd : Reg) : kindOf (packU v rd 0b0110111#7) = .lui := by simp [kindOf]

theorem kindOf_auipc (v : Word) (rd : Reg) : kindOf (packU v rd 0b0010111#7) = .auipc := by simp [kindOf]

theorem kindOf_jal (v : Word) (rd : Reg) : kindOf (packJ v rd 0b1101111#7) = .jal := by simp [kindOf]

theorem kindOf_jalr (v : Word) (rs1 rd : Reg) : kindOf (packI v rs1 0b000#3 rd 0b1100111#7) = .jalr := by simp [kindOf]

theorem kindOf_branch (v : Word) (rs2 rs1 : Reg) (f3 : BitVec 3) : kindOf (packB v rs2 rs1 f3 0b1100011#7) = branchKind f3 := by
  simp [kindOf]

theorem kindOf_load (v : Word) (rs1 : Reg) (f3 : BitVec 3) (rd : Reg) : kindOf (packI v rs1 f3 rd 0b0000011#7) = loadKind f3 := by
  simp [kindOf]

theorem kindOf_store (v : Word) (rs2 rs1 : Reg) (f3 : BitVec 3) : kindOf (packS v rs2 rs1 f3 0b0100011#7) = storeKind f3 := by
  simp [kindOf]

theorem kindOf_opImm (v : Word) (rs1 : Reg) (f3 : BitVec 3) (rd : Reg) :
    kindOf (packI v rs1 f3 rd 0b0010011#7) = opImmKind (funct7Of (packI v rs1 f3 rd 0b0010011#7)) f3 := by
  simp [kindOf]

theorem kindOf_shift (f7 : BitVec 7) (sh : BitVec 5) (rs1 : Reg) (f3 : BitVec 3) (rd : Reg) :
    kindOf (packShift f7 sh rs1 f3 rd 0b0010011#7) = opImmKind f7 f3 := by
  simp [kindOf]

theorem kindOf_op (f7 : BitVec 7) (rs2 rs1 : Reg) (f3 : BitVec 3) (rd : Reg) :
    kindOf (packR f7 rs2 rs1 f3 rd 0b0110011#7) = opKind f7 f3 := by
  simp [kindOf]

end Sys2Proof

namespace Sys2Proof.Laws.EncodingHasKind

/-- The encoding of the instruction is a word of its kind. -/
def Statement (i : Instr) : Prop := kindOf (encode i) = i.kind

theorem lui (rd : Reg) (imm : Word) : Statement (.lui rd imm) :=
  kindOf_lui _ _

theorem auipc (rd : Reg) (imm : Word) : Statement (.auipc rd imm) :=
  kindOf_auipc _ _

theorem jal (rd : Reg) (imm : Word) : Statement (.jal rd imm) :=
  kindOf_jal _ _

theorem jalr (rd rs1 : Reg) (imm : Word) : Statement (.jalr rd rs1 imm) :=
  kindOf_jalr _ _ _

theorem beq (rs1 rs2 : Reg) (imm : Word) : Statement (.beq rs1 rs2 imm) :=
  kindOf_branch _ _ _ _

theorem bne (rs1 rs2 : Reg) (imm : Word) : Statement (.bne rs1 rs2 imm) :=
  kindOf_branch _ _ _ _

theorem blt (rs1 rs2 : Reg) (imm : Word) : Statement (.blt rs1 rs2 imm) :=
  kindOf_branch _ _ _ _

theorem bge (rs1 rs2 : Reg) (imm : Word) : Statement (.bge rs1 rs2 imm) :=
  kindOf_branch _ _ _ _

theorem bltu (rs1 rs2 : Reg) (imm : Word) : Statement (.bltu rs1 rs2 imm) :=
  kindOf_branch _ _ _ _

theorem bgeu (rs1 rs2 : Reg) (imm : Word) : Statement (.bgeu rs1 rs2 imm) :=
  kindOf_branch _ _ _ _

theorem lb (rd rs1 : Reg) (imm : Word) : Statement (.lb rd rs1 imm) :=
  kindOf_load _ _ _ _

theorem lh (rd rs1 : Reg) (imm : Word) : Statement (.lh rd rs1 imm) :=
  kindOf_load _ _ _ _

theorem lw (rd rs1 : Reg) (imm : Word) : Statement (.lw rd rs1 imm) :=
  kindOf_load _ _ _ _

theorem lbu (rd rs1 : Reg) (imm : Word) : Statement (.lbu rd rs1 imm) :=
  kindOf_load _ _ _ _

theorem lhu (rd rs1 : Reg) (imm : Word) : Statement (.lhu rd rs1 imm) :=
  kindOf_load _ _ _ _

theorem sb (rs1 rs2 : Reg) (imm : Word) : Statement (.sb rs1 rs2 imm) :=
  kindOf_store _ _ _ _

theorem sh (rs1 rs2 : Reg) (imm : Word) : Statement (.sh rs1 rs2 imm) :=
  kindOf_store _ _ _ _

theorem sw (rs1 rs2 : Reg) (imm : Word) : Statement (.sw rs1 rs2 imm) :=
  kindOf_store _ _ _ _

theorem addi (rd rs1 : Reg) (imm : Word) : Statement (.addi rd rs1 imm) :=
  kindOf_opImm imm rs1 _ rd

theorem slti (rd rs1 : Reg) (imm : Word) : Statement (.slti rd rs1 imm) :=
  kindOf_opImm imm rs1 _ rd

theorem sltiu (rd rs1 : Reg) (imm : Word) : Statement (.sltiu rd rs1 imm) :=
  kindOf_opImm imm rs1 _ rd

theorem xori (rd rs1 : Reg) (imm : Word) : Statement (.xori rd rs1 imm) :=
  kindOf_opImm imm rs1 _ rd

theorem ori (rd rs1 : Reg) (imm : Word) : Statement (.ori rd rs1 imm) :=
  kindOf_opImm imm rs1 _ rd

theorem andi (rd rs1 : Reg) (imm : Word) : Statement (.andi rd rs1 imm) :=
  kindOf_opImm imm rs1 _ rd

theorem slli (rd rs1 : Reg) (shamt : BitVec 5) : Statement (.slli rd rs1 shamt) :=
  kindOf_shift _ _ _ _ _

theorem srli (rd rs1 : Reg) (shamt : BitVec 5) : Statement (.srli rd rs1 shamt) :=
  kindOf_shift _ _ _ _ _

theorem srai (rd rs1 : Reg) (shamt : BitVec 5) : Statement (.srai rd rs1 shamt) :=
  kindOf_shift _ _ _ _ _

theorem add (rd rs1 rs2 : Reg) : Statement (.add rd rs1 rs2) :=
  kindOf_op _ _ _ _ _

theorem sub (rd rs1 rs2 : Reg) : Statement (.sub rd rs1 rs2) :=
  kindOf_op _ _ _ _ _

theorem sll (rd rs1 rs2 : Reg) : Statement (.sll rd rs1 rs2) :=
  kindOf_op _ _ _ _ _

theorem slt (rd rs1 rs2 : Reg) : Statement (.slt rd rs1 rs2) :=
  kindOf_op _ _ _ _ _

theorem sltu (rd rs1 rs2 : Reg) : Statement (.sltu rd rs1 rs2) :=
  kindOf_op _ _ _ _ _

theorem xor (rd rs1 rs2 : Reg) : Statement (.xor rd rs1 rs2) :=
  kindOf_op _ _ _ _ _

theorem srl (rd rs1 rs2 : Reg) : Statement (.srl rd rs1 rs2) :=
  kindOf_op _ _ _ _ _

theorem sra (rd rs1 rs2 : Reg) : Statement (.sra rd rs1 rs2) :=
  kindOf_op _ _ _ _ _

theorem or (rd rs1 rs2 : Reg) : Statement (.or rd rs1 rs2) :=
  kindOf_op _ _ _ _ _

theorem and (rd rs1 rs2 : Reg) : Statement (.and rd rs1 rs2) :=
  kindOf_op _ _ _ _ _

theorem mul (rd rs1 rs2 : Reg) : Statement (.mul rd rs1 rs2) :=
  kindOf_op _ _ _ _ _

theorem mulh (rd rs1 rs2 : Reg) : Statement (.mulh rd rs1 rs2) :=
  kindOf_op _ _ _ _ _

theorem mulhsu (rd rs1 rs2 : Reg) : Statement (.mulhsu rd rs1 rs2) :=
  kindOf_op _ _ _ _ _

theorem mulhu (rd rs1 rs2 : Reg) : Statement (.mulhu rd rs1 rs2) :=
  kindOf_op _ _ _ _ _

theorem div (rd rs1 rs2 : Reg) : Statement (.div rd rs1 rs2) :=
  kindOf_op _ _ _ _ _

theorem divu (rd rs1 rs2 : Reg) : Statement (.divu rd rs1 rs2) :=
  kindOf_op _ _ _ _ _

theorem rem (rd rs1 rs2 : Reg) : Statement (.rem rd rs1 rs2) :=
  kindOf_op _ _ _ _ _

theorem remu (rd rs1 rs2 : Reg) : Statement (.remu rd rs1 rs2) :=
  kindOf_op _ _ _ _ _

theorem ecall : Statement (.ecall) :=
  rfl

end Sys2Proof.Laws.EncodingHasKind
end

