-- ==== Sys2Proof/Tests/Slice0.lean ====
section
/-! SUPPORT. The model's own tests. Expected values are the spec's (`95_test_vectors.md`, part 2; "T<n>" names the table); a test named
`witness_<Name>` gives values that meet the hypotheses of the obligation of that name. -/

namespace Sys2Proof.Tests

open Sys2Proof.Machine

/-! ### Helpers -/

/-- A state with the given registers. -/
def put (regs : List (Reg × Word)) (s : State) : State := regs.foldl (fun s p => s.setReg p.1 p.2) s

/-- The reset state at `pc`, with the word placed there and the given registers. -/
def at_ (pc w : Word) (regs : List (Reg × Word)) : State := put regs (State.withFetchWord { State.reset with pc := pc } 32 w.toNat)

/-- T7's start: eight data bytes at 0x2000, mapped beside the instruction's four bytes at 0x1000 and nothing else. -/
def data (w : Word) (regs : List (Reg × Word)) : State :=
  put regs (State.withFetchWord { State.reset with
    mapped := [⟨0x2000, 8⟩]
    mem := [(0x2000, 0x80#8), (0x2001, 0xFF#8), (0x2002, 0x34#8), (0x2003, 0x12#8),
            (0x2004, 0x78#8), (0x2005, 0x56#8), (0x2006, 0x34#8), (0x2007, 0x92#8)] } 32 w.toNat)

/-- What a function sees of the next state, if there is one. -/
def seen {α : Type} (f : State → α) : Result → Option α
  | .next t => some (f t)
  | .fault _ | .refused _ => none

/-- The fault of an outcome, if it is one. -/
def faultOf : Result → Option Fault
  | .fault f => some f
  | .next _ | .refused _ => none

/-- The refusal of an outcome, if it is one. -/
def refusalOf : Result → Option Refusal
  | .refused r => some r
  | .next _ | .fault _ => none

/-- One register, the `pc` and the two counts. -/
def view (r : Reg) (t : State) : Word × Word × Nat × Nat := (t.reg r, t.pc, t.nInsn, t.nUnknown)

/-- A register of the state after one step, where that step went to the next instruction and counted itself, and nothing else. -/
def result (r : Reg) (s : State) : Option Word :=
  match seen (view r) (step s) with
  | some (v, pc, 1, 0) => if pc = s.pc + 4#32 then some v else none
  | _ => none

/-- The data bytes of T8 after one step. -/
def dataBytes (s : State) : Option (List Byte) :=
  seen (fun t => (List.range 8).map (fun k => t.byteAt (BitVec.ofNat 32 (0x2000 + k)))) (step s)

/-- `pc`, `n_ctl`, `err_nt`, `err_btfnt`, `ghr` and a register after one step. -/
def jumped (r : Reg) (s : State) : Option (Word × Nat × Nat × Nat × BitVec 16 × Word) :=
  seen (fun t => (t.pc, t.bank.nCtl, t.bank.errNt, t.bank.errBtfnt, t.bank.ghr, t.reg r)) (step s)

/-! ### Well-formedness refuses what the encoding cannot carry (R84 to R88) -/

theorem test_wf_refuses_i_above : Instr.wf (.addi 1 2 2048#32) = false := by decide

theorem test_wf_refuses_i_below : Instr.wf (.lw 1 2 0xFFFFF7FF#32) = false := by decide

theorem test_wf_refuses_s_above : Instr.wf (.sw 1 2 2048#32) = false := by decide

theorem test_wf_refuses_s_below : Instr.wf (.sb 1 2 0xFFFFF7FF#32) = false := by decide

theorem test_wf_refuses_b_odd : Instr.wf (.beq 1 2 3#32) = false := by decide

theorem test_wf_refuses_b_above : Instr.wf (.bne 1 2 4096#32) = false := by decide

theorem test_wf_refuses_b_below : Instr.wf (.bgeu 1 2 0xFFFFEFFE#32) = false := by decide

theorem test_wf_refuses_u_low_bits : Instr.wf (.lui 1 1#32) = false := by decide

theorem test_wf_refuses_u_low_bits_high : Instr.wf (.auipc 1 0x12345800#32) = false := by decide

theorem test_wf_refuses_j_odd : Instr.wf (.jal 1 5#32) = false := by decide

theorem test_wf_refuses_j_above : Instr.wf (.jal 1 0x00100000#32) = false := by decide

theorem test_wf_refuses_j_below : Instr.wf (.jal 1 0xFFEFFFFE#32) = false := by decide

theorem test_wf_refuses_jalr_above : Instr.wf (.jalr 1 2 0x00000800#32) = false := by decide

/-- The ends of the ranges are well formed. -/
theorem test_wf_admits_ends :
    ([.addi 1 2 2047#32, .addi 1 2 0xFFFFF800#32, .sw 1 2 2047#32, .sw 1 2 0xFFFFF800#32, .beq 1 2 4094#32, .beq 1 2 0xFFFFF000#32,
      .lui 1 0xFFFFF000#32, .jal 1 0x000FFFFE#32, .jal 1 0xFFF00000#32] : List Instr).all Instr.wf = true := by decide

/-! ### Decoding: one word of every instruction, written out from the spec's encoding (T2, T4 to T11 and the rules' examples) -/

theorem test_decode_lui : decode 0x123452B7#32 = .ok (.lui 5 0x12345000#32) ∧ encode (.lui 5 0x12345000#32) = 0x123452B7#32 := by decide

theorem test_decode_auipc : decode 0xFFFFF297#32 = .ok (.auipc 5 0xFFFFF000#32) ∧ encode (.auipc 5 0xFFFFF000#32) = 0xFFFFF297#32 := by decide

theorem test_decode_jal : decode 0x800000EF#32 = .ok (.jal 1 0xFFF00000#32) ∧ encode (.jal 1 0xFFF00000#32) = 0x800000EF#32 := by decide

theorem test_decode_jalr : decode 0x004080E7#32 = .ok (.jalr 1 1 4#32) ∧ encode (.jalr 1 1 4#32) = 0x004080E7#32 := by decide

theorem test_decode_beq : decode 0x00208863#32 = .ok (.beq 1 2 16#32) ∧ encode (.beq 1 2 16#32) = 0x00208863#32 := by decide

theorem test_decode_bne : decode 0xFE209CE3#32 = .ok (.bne 1 2 0xFFFFFFF8#32) ∧ encode (.bne 1 2 0xFFFFFFF8#32) = 0xFE209CE3#32 := by decide

theorem test_decode_blt : decode 0x0020C863#32 = .ok (.blt 1 2 16#32) ∧ encode (.blt 1 2 16#32) = 0x0020C863#32 := by decide

theorem test_decode_bge : decode 0x0020D863#32 = .ok (.bge 1 2 16#32) ∧ encode (.bge 1 2 16#32) = 0x0020D863#32 := by decide

theorem test_decode_bltu : decode 0x0020E863#32 = .ok (.bltu 1 2 16#32) ∧ encode (.bltu 1 2 16#32) = 0x0020E863#32 := by decide

theorem test_decode_bgeu : decode 0x0020F863#32 = .ok (.bgeu 1 2 16#32) ∧ encode (.bgeu 1 2 16#32) = 0x0020F863#32 := by decide

theorem test_decode_lb : decode 0x00030283#32 = .ok (.lb 5 6 0#32) ∧ encode (.lb 5 6 0#32) = 0x00030283#32 := by decide

theorem test_decode_lh : decode 0x00631283#32 = .ok (.lh 5 6 6#32) ∧ encode (.lh 5 6 6#32) = 0x00631283#32 := by decide

theorem test_decode_lw : decode 0xFFC32283#32 = .ok (.lw 5 6 0xFFFFFFFC#32) ∧ encode (.lw 5 6 0xFFFFFFFC#32) = 0xFFC32283#32 := by decide

theorem test_decode_lbu : decode 0x00034283#32 = .ok (.lbu 5 6 0#32) ∧ encode (.lbu 5 6 0#32) = 0x00034283#32 := by decide

theorem test_decode_lhu : decode 0x00635283#32 = .ok (.lhu 5 6 6#32) ∧ encode (.lhu 5 6 6#32) = 0x00635283#32 := by decide

theorem test_decode_sb : decode 0x007301A3#32 = .ok (.sb 6 7 3#32) ∧ encode (.sb 6 7 3#32) = 0x007301A3#32 := by decide

theorem test_decode_sh : decode 0x00731323#32 = .ok (.sh 6 7 6#32) ∧ encode (.sh 6 7 6#32) = 0x00731323#32 := by decide

theorem test_decode_sw : decode 0xFE732C23#32 = .ok (.sw 6 7 0xFFFFFFF8#32) ∧ encode (.sw 6 7 0xFFFFFFF8#32) = 0xFE732C23#32 := by decide

theorem test_decode_addi : decode 0x7FF10093#32 = .ok (.addi 1 2 2047#32) ∧ encode (.addi 1 2 2047#32) = 0x7FF10093#32 := by decide

theorem test_decode_slti : decode 0xFFF12093#32 = .ok (.slti 1 2 0xFFFFFFFF#32) ∧ encode (.slti 1 2 0xFFFFFFFF#32) = 0xFFF12093#32 := by decide

theorem test_decode_sltiu : decode 0xFFF13093#32 = .ok (.sltiu 1 2 0xFFFFFFFF#32) ∧ encode (.sltiu 1 2 0xFFFFFFFF#32) = 0xFFF13093#32 := by decide

theorem test_decode_xori : decode 0xFFF14093#32 = .ok (.xori 1 2 0xFFFFFFFF#32) ∧ encode (.xori 1 2 0xFFFFFFFF#32) = 0xFFF14093#32 := by decide

theorem test_decode_ori : decode 0xFFF16093#32 = .ok (.ori 1 2 0xFFFFFFFF#32) ∧ encode (.ori 1 2 0xFFFFFFFF#32) = 0xFFF16093#32 := by decide

theorem test_decode_andi : decode 0x0FF17093#32 = .ok (.andi 1 2 255#32) ∧ encode (.andi 1 2 255#32) = 0x0FF17093#32 := by decide

theorem test_decode_slli : decode 0x01F11093#32 = .ok (.slli 1 2 31#5) ∧ encode (.slli 1 2 31#5) = 0x01F11093#32 := by decide

theorem test_decode_srli : decode 0x00415093#32 = .ok (.srli 1 2 4#5) ∧ encode (.srli 1 2 4#5) = 0x00415093#32 := by decide

theorem test_decode_srai : decode 0x41F15093#32 = .ok (.srai 1 2 31#5) ∧ encode (.srai 1 2 31#5) = 0x41F15093#32 := by decide

theorem test_decode_add : decode 0x002081B3#32 = .ok (.add 3 1 2) ∧ encode (.add 3 1 2) = 0x002081B3#32 := by decide

theorem test_decode_sub : decode 0x402081B3#32 = .ok (.sub 3 1 2) ∧ encode (.sub 3 1 2) = 0x402081B3#32 := by decide

theorem test_decode_sll : decode 0x002091B3#32 = .ok (.sll 3 1 2) ∧ encode (.sll 3 1 2) = 0x002091B3#32 := by decide

theorem test_decode_slt : decode 0x0020A1B3#32 = .ok (.slt 3 1 2) ∧ encode (.slt 3 1 2) = 0x0020A1B3#32 := by decide

theorem test_decode_sltu : decode 0x0020B1B3#32 = .ok (.sltu 3 1 2) ∧ encode (.sltu 3 1 2) = 0x0020B1B3#32 := by decide

theorem test_decode_xor : decode 0x0020C1B3#32 = .ok (.xor 3 1 2) ∧ encode (.xor 3 1 2) = 0x0020C1B3#32 := by decide

theorem test_decode_srl : decode 0x0020D1B3#32 = .ok (.srl 3 1 2) ∧ encode (.srl 3 1 2) = 0x0020D1B3#32 := by decide

theorem test_decode_sra : decode 0x4020D1B3#32 = .ok (.sra 3 1 2) ∧ encode (.sra 3 1 2) = 0x4020D1B3#32 := by decide

theorem test_decode_or : decode 0x0020E1B3#32 = .ok (.or 3 1 2) ∧ encode (.or 3 1 2) = 0x0020E1B3#32 := by decide

theorem test_decode_and : decode 0x0020F1B3#32 = .ok (.and 3 1 2) ∧ encode (.and 3 1 2) = 0x0020F1B3#32 := by decide

theorem test_decode_mul : decode 0x022081B3#32 = .ok (.mul 3 1 2) ∧ encode (.mul 3 1 2) = 0x022081B3#32 := by decide

theorem test_decode_mulh : decode 0x022091B3#32 = .ok (.mulh 3 1 2) ∧ encode (.mulh 3 1 2) = 0x022091B3#32 := by decide

theorem test_decode_mulhsu : decode 0x0220A1B3#32 = .ok (.mulhsu 3 1 2) ∧ encode (.mulhsu 3 1 2) = 0x0220A1B3#32 := by decide

theorem test_decode_mulhu : decode 0x0220B1B3#32 = .ok (.mulhu 3 1 2) ∧ encode (.mulhu 3 1 2) = 0x0220B1B3#32 := by decide

theorem test_decode_div : decode 0x0220C1B3#32 = .ok (.div 3 1 2) ∧ encode (.div 3 1 2) = 0x0220C1B3#32 := by decide

theorem test_decode_divu : decode 0x0220D1B3#32 = .ok (.divu 3 1 2) ∧ encode (.divu 3 1 2) = 0x0220D1B3#32 := by decide

theorem test_decode_rem : decode 0x0220E1B3#32 = .ok (.rem 3 1 2) ∧ encode (.rem 3 1 2) = 0x0220E1B3#32 := by decide

theorem test_decode_remu : decode 0x0220F1B3#32 = .ok (.remu 3 1 2) ∧ encode (.remu 3 1 2) = 0x0220F1B3#32 := by decide

theorem test_decode_ecall : decode 0x00000073#32 = .ok (.ecall) ∧ encode (.ecall) = 0x00000073#32 := by decide

/-- T2: the ends of every immediate's range, and the bits that the B and J formats permute. -/
theorem test_immediates :
    immI 0x80000013#32 = 0xFFFFF800#32 ∧ immI 0x7FF00013#32 = 0x000007FF#32 ∧ immS 0x80002023#32 = 0xFFFFF800#32 ∧
    immS 0xFC002FA3#32 = 0xFFFFFFDF#32 ∧ immB 0x7E000FE3#32 = 0x00000FFE#32 ∧ immB 0x000000E3#32 = 0x00000800#32 ∧
    immB 0x54000A63#32 = 0x00000554#32 ∧ immJ 0x8000006F#32 = 0xFFF00000#32 ∧ immJ 0x0010006F#32 = 0x00000800#32 ∧
    immJ 0x5545506F#32 = 0x00055554#32 ∧ immU 0x7FFFF037#32 = 0x7FFFF000#32 := by decide

/-- T1: the extractor is total; the rows of BNE and of the unknown word 0x0FF0000F. -/
theorem test_extractor :
    rdOf 0xFE209CE3#32 = 25 ∧ rs1Of 0xFE209CE3#32 = 1 ∧ rs2Of 0xFE209CE3#32 = 2 ∧ funct7Of 0xFE209CE3#32 = 0x7F#7 ∧
    immI 0xFE209CE3#32 = 0xFFFFFFE2#32 ∧ immS 0xFE209CE3#32 = 0xFFFFFFF9#32 ∧ immJ 0xFE209CE3#32 = 0xFFF097E2#32 ∧
    rs2Of 0x0FF0000F#32 = 31 ∧ funct7Of 0x0FF0000F#32 = 0x07#7 ∧ immI 0x0FF0000F#32 = 0x000000FF#32 ∧ immJ 0x0FF0000F#32 = 0x000008FE#32 :=
  by decide

/-- T3: the words of every class of R104, each rejected under its own name. -/
theorem test_unknown_words :
    [0x00000000#32, 0xFFFFFFFF#32, 0x0FF0000F#32, 0x0000100F#32, 0x0000001B#32, 0x0000002F#32, 0x00000007#32, 0x00000053#32,
      0x0000006B#32, 0x00004501#32].all (fun w => decide (decode w = .error .noSuchOpcode)) = true ∧
    [0x00100073#32, 0x30200073#32, 0x10500073#32, 0xC0002573#32, 0x34051073#32, 0x00000873#32].all
      (fun w => decide (decode w = .error .systemWord)) = true ∧
    [0x00003003#32, 0x00006003#32, 0x00007003#32].all (fun w => decide (decode w = .error .loadFunct3)) = true ∧
    decode 0x00003023#32 = .error .storeFunct3 ∧
    [0x00002063#32, 0x00003063#32].all (fun w => decide (decode w = .error .branchFunct3)) = true ∧
    decode 0x00009067#32 = .error .jalrFunct3 ∧
    [0x02001013#32, 0x40001013#32, 0x20005013#32].all (fun w => decide (decode w = .error .opImmFunct7)) = true ∧
    [0x400010B3#32, 0x04000033#32, 0x42000033#32].all (fun w => decide (decode w = .error .opFunct7)) = true := by decide

/-- Too few bytes are rejected by name, and the bytes after an instruction are left over. -/
theorem test_decode_bytes :
    decodeBytes [0xB3#8, 0x81#8, 0x20#8] = .error .truncated ∧
    decodeBytes [0xB3#8, 0x81#8, 0x20#8, 0x00#8, 0x55#8] = .ok (.add 3 1 2, [0x55#8]) ∧
    decodeTableWord 32 0x002081B3 = some (.add 3 1 2) ∧ decodeTableWord 32 0x00100073 = none := by decide

/-! ### Compute instructions (T4, T5, T6, T10) -/

theorem test_add_wraps : result 3 (at_ 0x1000#32 0x002081B3#32 [(1, 0x80000000#32), (2, 0xFFFFFFFF#32)]) = some 0x7FFFFFFF#32 := by decide

theorem test_add_source_is_destination : result 1 (at_ 0x1000#32 0x001080B3#32 [(1, 0x80000001#32)]) = some 0x00000002#32 := by decide

theorem test_sub_wraps : result 3 (at_ 0x1000#32 0x402081B3#32 [(1, 0x00000001#32), (2, 0x00000002#32)]) = some 0xFFFFFFFF#32 := by decide

theorem test_sub_order : result 3 (at_ 0x1000#32 0x402081B3#32 [(1, 0x87654321#32), (2, 0xFFFFFFE4#32)]) = some 0x8765433D#32 := by decide

theorem test_sll_by_32_is_by_0 : result 3 (at_ 0x1000#32 0x002091B3#32 [(1, 0x12345678#32), (2, 0x00000020#32)]) = some 0x12345678#32 := by decide

theorem test_sll_low_five_bits : result 3 (at_ 0x1000#32 0x002091B3#32 [(1, 0x87654321#32), (2, 0xFFFFFFE4#32)]) = some 0x76543210#32 := by decide

theorem test_slt_signed : result 3 (at_ 0x1000#32 0x0020A1B3#32 [(1, 0xFFFFFFFF#32), (2, 0x00000001#32)]) = some 0x00000001#32 := by decide

theorem test_slt_not : result 3 (at_ 0x1000#32 0x0020A1B3#32 [(1, 0x00000005#32), (2, 0xFFFFFFFB#32)]) = some 0x00000000#32 := by decide

theorem test_sltu_unsigned : result 3 (at_ 0x1000#32 0x0020B1B3#32 [(1, 0xFFFFFFFF#32), (2, 0x00000001#32)]) = some 0x00000000#32 := by decide

theorem test_sltu_below : result 3 (at_ 0x1000#32 0x0020B1B3#32 [(1, 0x00000005#32), (2, 0xFFFFFFFB#32)]) = some 0x00000001#32 := by decide

theorem test_xor_mixed : result 3 (at_ 0x1000#32 0x0020C1B3#32 [(1, 0xF0F0F0F0#32), (2, 0x0FF00FF0#32)]) = some 0xFF00FF00#32 := by decide

theorem test_srl_logical : result 3 (at_ 0x1000#32 0x0020D1B3#32 [(1, 0x87654321#32), (2, 0xFFFFFFE4#32)]) = some 0x08765432#32 := by decide

theorem test_sra_arithmetic : result 3 (at_ 0x1000#32 0x4020D1B3#32 [(1, 0x87654321#32), (2, 0xFFFFFFE4#32)]) = some 0xF8765432#32 := by decide

theorem test_sra_positive : result 3 (at_ 0x1000#32 0x4020D1B3#32 [(1, 0x7FFFFFFF#32), (2, 0x00000001#32)]) = some 0x3FFFFFFF#32 := by decide

theorem test_or_mixed : result 3 (at_ 0x1000#32 0x0020E1B3#32 [(1, 0xF0F0F0F0#32), (2, 0x0FF00FF0#32)]) = some 0xFFF0FFF0#32 := by decide

theorem test_and_mixed : result 3 (at_ 0x1000#32 0x0020F1B3#32 [(1, 0xF0F0F0F0#32), (2, 0x0FF00FF0#32)]) = some 0x00F000F0#32 := by decide

theorem test_mul_low_word : result 3 (at_ 0x1000#32 0x022081B3#32 [(1, 0x12345678#32), (2, 0x9ABCDEF0#32)]) = some 0x242D2080#32 := by decide

theorem test_mulh_signed : result 3 (at_ 0x1000#32 0x022091B3#32 [(1, 0x12345678#32), (2, 0x9ABCDEF0#32)]) = some 0xF8CC93D6#32 := by decide

theorem test_mulh_most_negative : result 3 (at_ 0x1000#32 0x022091B3#32 [(1, 0x80000000#32), (2, 0x80000000#32)]) = some 0x40000000#32 := by decide

theorem test_mulhsu_signed_first : result 3 (at_ 0x1000#32 0x0220A1B3#32 [(1, 0xFFFFFFFF#32), (2, 0xFFFFFFFF#32)]) = some 0xFFFFFFFF#32 := by decide

theorem test_mulhsu_unsigned_second : result 3 (at_ 0x1000#32 0x0220A1B3#32 [(1, 0x00000001#32), (2, 0xFFFFFFFF#32)]) = some 0x00000000#32 := by decide

theorem test_mulhu_unsigned : result 3 (at_ 0x1000#32 0x0220B1B3#32 [(1, 0xFFFFFFFF#32), (2, 0xFFFFFFFF#32)]) = some 0xFFFFFFFE#32 := by decide

theorem test_div_toward_zero : result 3 (at_ 0x1000#32 0x0220C1B3#32 [(1, 0x00000007#32), (2, 0xFFFFFFFE#32)]) = some 0xFFFFFFFD#32 := by decide

theorem test_div_overflow : result 3 (at_ 0x1000#32 0x0220C1B3#32 [(1, 0x80000000#32), (2, 0xFFFFFFFF#32)]) = some 0x80000000#32 := by decide

theorem test_divu_by_zero : result 3 (at_ 0x1000#32 0x0220D1B3#32 [(1, 0x00000007#32), (2, 0x00000000#32)]) = some 0xFFFFFFFF#32 := by decide

theorem test_divu_unsigned : result 3 (at_ 0x1000#32 0x0220D1B3#32 [(1, 0xFFFFFFF9#32), (2, 0x00000002#32)]) = some 0x7FFFFFFC#32 := by decide

theorem test_rem_sign_of_dividend : result 3 (at_ 0x1000#32 0x0220E1B3#32 [(1, 0xFFFFFFF9#32), (2, 0xFFFFFFFE#32)]) = some 0xFFFFFFFF#32 := by decide

theorem test_rem_by_zero : result 3 (at_ 0x1000#32 0x0220E1B3#32 [(1, 0xFFFFFFF9#32), (2, 0x00000000#32)]) = some 0xFFFFFFF9#32 := by decide

theorem test_remu_unsigned : result 3 (at_ 0x1000#32 0x0220F1B3#32 [(1, 0xFFFFFFF9#32), (2, 0x00000002#32)]) = some 0x00000001#32 := by decide

theorem test_remu_by_zero : result 3 (at_ 0x1000#32 0x0220F1B3#32 [(1, 0x80000000#32), (2, 0x00000000#32)]) = some 0x80000000#32 := by decide

theorem test_addi_wraps : result 1 (at_ 0x1000#32 0xFFF10093#32 [(2, 0x80000000#32)]) = some 0x7FFFFFFF#32 := by decide

theorem test_addi_not_zext : result 1 (at_ 0x1000#32 0x0FF10093#32 [(2, 0x12345678#32)]) = some 0x12345777#32 := by decide

theorem test_slti_signed : result 1 (at_ 0x1000#32 0xFFF12093#32 [(2, 0x80000000#32)]) = some 0x00000001#32 := by decide

theorem test_slti_not : result 1 (at_ 0x1000#32 0xFFB12093#32 [(2, 0x00000005#32)]) = some 0x00000000#32 := by decide

theorem test_sltiu_sign_extends : result 1 (at_ 0x1000#32 0xFFF13093#32 [(2, 0x00000000#32)]) = some 0x00000001#32 := by decide

theorem test_sltiu_equal : result 1 (at_ 0x1000#32 0xFFF13093#32 [(2, 0xFFFFFFFF#32)]) = some 0x00000000#32 := by decide

theorem test_xori_not : result 1 (at_ 0x1000#32 0xFFF14093#32 [(2, 0x80000000#32)]) = some 0x7FFFFFFF#32 := by decide

theorem test_ori_sign_extends : result 1 (at_ 0x1000#32 0x80016093#32 [(2, 0x00000000#32)]) = some 0xFFFFF800#32 := by decide

theorem test_andi_low_byte : result 1 (at_ 0x1000#32 0x0FF17093#32 [(2, 0x12345678#32)]) = some 0x00000078#32 := by decide

theorem test_slli_by_31 : result 1 (at_ 0x1000#32 0x01F11093#32 [(2, 0x7FFFFFFF#32)]) = some 0x80000000#32 := by decide

theorem test_srli_by_4 : result 1 (at_ 0x1000#32 0x00415093#32 [(2, 0x87654321#32)]) = some 0x08765432#32 := by decide

theorem test_srai_by_31 : result 1 (at_ 0x1000#32 0x41F15093#32 [(2, 0x80000000#32)]) = some 0xFFFFFFFF#32 := by decide

theorem test_srai_by_4 : result 1 (at_ 0x1000#32 0x40415093#32 [(2, 0x87654321#32)]) = some 0xF8765432#32 := by decide

theorem test_lui_high : result 5 (at_ 0x1000#32 0xFFFFF2B7#32 []) = some 0xFFFFF000#32 := by decide

theorem test_auipc_wraps : result 5 (at_ 0x80001000#32 0x80000297#32 []) = some 0x00001000#32 := by decide

/-- The `pc` wraps: the last word of the address space is followed by the first. -/
theorem test_auipc_at_top : seen (view 5) (step (at_ 0xFFFFFFFC#32 0x00001297#32 [])) = some (0x00000FFC#32, 0#32, 1, 0) := by decide

/-! ### Register 0 (T13) -/

/-- A write to it is gone, a read of it is 0, and JALR with it as base and link goes to 0. -/
theorem test_x0 :
    result 0 (at_ 0x1000#32 0x00208033#32 [(1, 1#32), (2, 2#32)]) = some 0#32 ∧ result 5 (at_ 0x1000#32 0x00700293#32 []) = some 7#32 ∧
    jumped 0 (at_ 0x1000#32 0x00000067#32 []) = some (0#32, 1, 1, 0, 1#16, 0#32) := by decide

/-! ### Loads (T7) -/

theorem test_lb_sign_extends : result 5 (data 0x00030283#32 [(6, 0x2000#32)]) = some 0xFFFFFF80#32 := by decide

theorem test_lb_last_byte : result 5 (data 0x00730283#32 [(6, 0x2000#32)]) = some 0xFFFFFF92#32 := by decide

theorem test_lbu_zero_extends : result 5 (data 0x00134283#32 [(6, 0x2000#32)]) = some 0x000000FF#32 := by decide

theorem test_lh_sign_extends : result 5 (data 0x00631283#32 [(6, 0x2000#32)]) = some 0xFFFF9234#32 := by decide

theorem test_lh_first : result 5 (data 0x00031283#32 [(6, 0x2000#32)]) = some 0xFFFFFF80#32 := by decide

theorem test_lhu_zero_extends : result 5 (data 0x00035283#32 [(6, 0x2000#32)]) = some 0x0000FF80#32 := by decide

theorem test_lw_little_endian : result 5 (data 0x00432283#32 [(6, 0x2000#32)]) = some 0x92345678#32 := by decide

theorem test_lw_base_is_destination : result 6 (data 0x00032303#32 [(6, 0x2000#32)]) = some 0x1234FF80#32 := by decide

/-- Misalignment is found before an unmapped byte; a load to register 0 is made all the same. -/
theorem test_load_faults :
    faultOf (step (data 0x00632283#32 [(6, 0x2000#32)])) = some (.dataMisaligned 0x2006#32) ∧
    faultOf (step (data 0x00832283#32 [(6, 0x2000#32)])) = some (.unmapped 0x2008#32) ∧
    faultOf (step (data 0x00830003#32 [(6, 0x2000#32)])) = some (.unmapped 0x2008#32) ∧
    faultOf (step (data 0x00135283#32 [(6, 0x2000#32)])) = some (.dataMisaligned 0x2001#32) := by decide

/-! ### Stores (T8) -/

theorem test_sb_one_byte :
    dataBytes (data 0x007301A3#32 [(6, 0x2000#32), (7, 0xA1B2C3D4#32)]) =
      some [0x80#8, 0xFF#8, 0x34#8, 0xD4#8, 0x78#8, 0x56#8, 0x34#8, 0x92#8] := by decide

theorem test_sh_last_half :
    dataBytes (data 0x00731323#32 [(6, 0x2000#32), (7, 0xA1B2C3D4#32)]) =
      some [0x80#8, 0xFF#8, 0x34#8, 0x12#8, 0x78#8, 0x56#8, 0xD4#8, 0xC3#8] := by decide

theorem test_sw_first_word :
    dataBytes (data 0x00732023#32 [(6, 0x2000#32), (7, 0xA1B2C3D4#32)]) =
      some [0xD4#8, 0xC3#8, 0xB2#8, 0xA1#8, 0x78#8, 0x56#8, 0x34#8, 0x92#8] := by decide

theorem test_sw_negative_displacement :
    dataBytes (data 0xFE732C23#32 [(6, 0x2008#32), (7, 0x11223344#32)]) =
      some [0x44#8, 0x33#8, 0x22#8, 0x11#8, 0x78#8, 0x56#8, 0x34#8, 0x92#8] := by decide

theorem test_store_faults :
    faultOf (step (data 0x007310A3#32 [(6, 0x2000#32)])) = some (.dataMisaligned 0x2001#32) ∧
    faultOf (step (data 0x00730423#32 [(6, 0x2000#32)])) = some (.unmapped 0x2008#32) := by decide

/-- A stored zero leaves memory in canonical form: the entry is gone. -/
theorem test_memory_stays_canonical :
    seen (fun t => (t.mem.filter (fun c => decide (0x2000 ≤ c.1 ∧ c.1 < 0x2004)), Memory.wf t.mem)) (step (data 0x00032023#32 [(6, 0x2000#32)])) =
      some ([], true) := by decide

/-! ### Control transfers (T9) -/

theorem test_beq_taken :
    jumped 1 (at_ 0x1000#32 0x00208863#32 [(1, 0x00000005#32), (2, 0x00000005#32)]) = some (0x1010#32, 1, 1, 1, 1#16, 0x00000005#32) := by decide

theorem test_beq_not_taken :
    jumped 1 (at_ 0x1000#32 0x00208863#32 [(1, 0x00000005#32), (2, 0x00000006#32)]) = some (0x1004#32, 1, 0, 0, 0#16, 0x00000005#32) := by decide

theorem test_blt_taken :
    jumped 1 (at_ 0x1000#32 0x0020C863#32 [(1, 0xFFFFFFFF#32), (2, 0x00000001#32)]) = some (0x1010#32, 1, 1, 1, 1#16, 0xFFFFFFFF#32) := by decide

theorem test_blt_not_taken :
    jumped 1 (at_ 0x1000#32 0x0020C863#32 [(1, 0x00000005#32), (2, 0x00000005#32)]) = some (0x1004#32, 1, 0, 0, 0#16, 0x00000005#32) := by decide

theorem test_bge_taken :
    jumped 1 (at_ 0x1000#32 0x0020D863#32 [(1, 0x00000005#32), (2, 0x00000005#32)]) = some (0x1010#32, 1, 1, 1, 1#16, 0x00000005#32) := by decide

theorem test_bge_not_taken :
    jumped 1 (at_ 0x1000#32 0x0020D863#32 [(1, 0x80000000#32), (2, 0x7FFFFFFF#32)]) = some (0x1004#32, 1, 0, 0, 0#16, 0x80000000#32) := by decide

theorem test_bltu_taken :
    jumped 1 (at_ 0x1000#32 0x0020E863#32 [(1, 0x00000001#32), (2, 0xFFFFFFFF#32)]) = some (0x1010#32, 1, 1, 1, 1#16, 0x00000001#32) := by decide

theorem test_bltu_not_taken :
    jumped 1 (at_ 0x1000#32 0x0020E863#32 [(1, 0xFFFFFFFF#32), (2, 0x00000001#32)]) = some (0x1004#32, 1, 0, 0, 0#16, 0xFFFFFFFF#32) := by decide

theorem test_bgeu_taken :
    jumped 1 (at_ 0x1000#32 0x0020F863#32 [(1, 0xFFFFFFFF#32), (2, 0x00000001#32)]) = some (0x1010#32, 1, 1, 1, 1#16, 0xFFFFFFFF#32) := by decide

theorem test_bgeu_not_taken :
    jumped 1 (at_ 0x1000#32 0x0020F863#32 [(1, 0x00000001#32), (2, 0xFFFFFFFF#32)]) = some (0x1004#32, 1, 0, 0, 0#16, 0x00000001#32) := by decide

theorem test_bne_backward : jumped 1 (at_ 0x1008#32 0xFE009EE3#32 [(1, 1#32)]) = some (0x1004#32, 1, 1, 0, 1#16, 1#32) := by decide

theorem test_bne_not_taken : jumped 1 (at_ 0x1008#32 0xFE009EE3#32 []) = some (0x100C#32, 1, 0, 1, 0#16, 0#32) := by decide

theorem test_jal_backward : jumped 1 (at_ 0x200000#32 0x800000EF#32 []) = some (0x100000#32, 1, 1, 0, 1#16, 0x200004#32) := by decide

theorem test_jal_wraps : jumped 5 (at_ 0x0004#32 0xFF9FF2EF#32 []) = some (0xFFFFFFFC#32, 1, 1, 1, 1#16, 8#32) := by decide

theorem test_jalr_old_base : jumped 1 (at_ 0x1000#32 0x004080E7#32 [(1, 0x2000#32)]) = some (0x2004#32, 1, 1, 1, 1#16, 0x1004#32) := by decide

theorem test_jalr_clears_bit_0 : jumped 1 (at_ 0x1000#32 0xFFF080E7#32 [(1, 0x2000#32)]) = some (0x1FFE#32, 1, 1, 1, 1#16, 0x1004#32) := by
  decide

/-- A target that is not a multiple of 4 is committed, and the next fetch faults. -/
theorem test_fetch_faults :
    (seen (fun t => faultOf (step t)) (step (at_ 0x1000#32 0x7E000FE3#32 []))) = some (some (.fetchMisaligned 0x1FFE#32)) ∧
    faultOf (step { data 0x00000013#32 [] with pc := 0x1004#32 }) = some (.unmapped 0x1004#32) := by decide

/-! ### ECALL (T11) and the unknown word (T3) -/

/-- ECALL at 0x1000 with the given service, argument and input: `x[10]`, output, input position, run state, and the commit. -/
def ecalled (service arg : Word) (input : List Byte) : Option ((Word × List Byte × Nat × RunState) × (Word × Word × Nat × Nat)) :=
  seen (fun t => ((t.reg 10, t.output, t.inputPos, t.runState), view 17 t))
    (step { at_ 0x1000#32 0x00000073#32 [(17, service), (10, arg)] with input := input })

/-- An ECALL with service 1, one character left, and a collaborator that never answers after it. -/
def sRead : State := { at_ 0x1000#32 0x00000073#32 [(17, 1#32)] with input := [0x41#8], inputTail := .silent }

/-- The same with that character consumed. -/
def sWait : State := { sRead with inputPos := 1 }

/-- Services 1 and 2: a character, end of input, and the low byte written. With no
character left and no answer the core is stuck (U15), and an answer that comes ends the wait. -/
theorem test_ecall_input_output :
    ecalled 1#32 0x55#32 [0xFF#8] = some ((0x000000FF#32, [], 1, .running), (1#32, 0x1004#32, 1, 0)) ∧
    ecalled 1#32 0x55#32 [] = some ((0xFFFFFFFF#32, [], 0, .running), (1#32, 0x1004#32, 1, 0)) ∧
    ecalled 2#32 0x141#32 [0x41#8] = some ((0x141#32, [0x41#8], 0, .running), (2#32, 0x1004#32, 1, 0)) ∧
    seen (view 10) (step sRead) = some (0x41#32, 0x1004#32, 1, 0) ∧ refusalOf (step sWait) = some .awaitingInput ∧
    seen (view 10) (step { sWait with input := [0x41#8, 0x42#8] }) = some (0x42#32, 0x1004#32, 1, 0) :=
  ⟨by decide, by decide, by decide, by decide, by decide, by decide⟩

/-- Services 3 and 93 halt; 0x101 is another service than 1. -/
theorem test_ecall_halt_and_other :
    ecalled 3#32 7#32 [] = some ((7#32, [], 0, .halted), (3#32, 0x1004#32, 1, 0)) ∧
    ecalled 93#32 7#32 [] = some ((7#32, [], 0, .halted), (93#32, 0x1004#32, 1, 0)) ∧
    ecalled 0x101#32 7#32 [0x41#8] = some ((7#32, [], 0, .running), (0x101#32, 0x1004#32, 1, 0)) :=
  ⟨by decide, by decide, by decide⟩

theorem test_unknown_is_counted : seen (view 6) (step (at_ 0x1000#32 0x0FF0000F#32 [(6, 0x77#32)])) = some (0x77#32, 0x1004#32, 1, 1) := by decide

/-! ### The predictor bank (T12) -/

/-- The observations of one branch at 0x1008 with target 0x1004 in a row, from reset. -/
def observed (outcomes : List Bool) : Bank := outcomes.foldl (fun b tk => b.observe 0x1008#32 0x1004#32 true tk) State.reset.bank

theorem test_bank_eight_observations :
    let b := observed [true, true, false, true, false, false, false, true]
    (b.nCtl, b.errNt, b.errBtfnt, b.ghr) = (8, 4, 4, 0x00D1#16) ∧
    b.bimodal.map Table.err = [5, 5, 5, 5] ∧ b.gshare.map Table.err = [4, 4, 4, 4] := by decide

/-- T12 (b): two branches that share a counter in the 256-entry table and not in the 1024-entry table. -/
theorem test_bank_aliasing :
    let pair := fun b : Bank => (b.observe 0x1000#32 0x0F00#32 true true).observe 0x1400#32 0x1500#32 true false
    let b := pair (pair (pair State.reset.bank))
    (b.bimodal.map Table.err).take 2 = [6, 1] ∧ b.errNt = 3 ∧ b.errBtfnt = 0 ∧ b.ghr = 0x002A#16 := by decide

theorem test_history_shift :
    ghrShift 0x8001#16 true = 0x0003#16 ∧ ghrShift 0xFFFF#16 false = 0xFFFE#16 ∧ ghrShift 0x0000#16 false = 0#16 := by decide

/-! ### Report, trace, text -/

theorem test_report_after_halt :
    seen (fun t => t.report.map (fun r => (r.nInsn, r.nCtl, r.errNt, r.nUnknown))) (step (at_ 0x1000#32 0x00000073#32 [(17, 93#32)])) =
      some (some (1, 0, 0, 0)) ∧
    (at_ 0x1000#32 0x00000073#32 [(17, 93#32)]).report = none := by decide

/-- T14: the pseudo-instructions of R310 to R315 and the conflicts C3 and C7. -/
theorem test_disassembly :
    disassemble 0x1000#32 0x00000293#32 = .line "li" [.reg 5, .imm 0] ∧ disassemble 0x1000#32 0x00058513#32 = .line "mv" [.reg 10, .reg 11] ∧
    disassemble 0x1000#32 0x0FF58513#32 = .line "addi" [.reg 10, .reg 11, .imm 255] ∧
    disassemble 0x1000#32 0x0FF5F513#32 = .line "zext.b" [.reg 10, .reg 11] ∧
    disassemble 0x1000#32 0xFFF5C513#32 = .line "not" [.reg 10, .reg 11] ∧
    disassemble 0x1000#32 0x40C00733#32 = .line "neg" [.reg 14, .reg 12] ∧
    disassemble 0x1000#32 0x00C00733#32 = .line "add" [.reg 14, .reg 0, .reg 12] ∧
    disassemble 0x1000#32 0x00828067#32 = .line "ret" [] ∧
    disassemble 0x1038#32 0xFF1FF06F#32 = .line "jal" [.target 0x1028#32] ∧
    disassemble 0x1028#32 0x00058A63#32 = .line "beqz" [.reg 11, .target 0x103C#32] ∧
    disassemble 0x1000#32 0x00A04463#32 = .line "bgtz" [.reg 10, .target 0x1008#32] ∧
    disassemble 0x1000#32 0x00A05463#32 = .line "blez" [.reg 10, .target 0x1008#32] ∧
    disassemble 0x1000#32 0x00729323#32 = .line "sh" [.reg 7, .mem 6 5] ∧
    disassemble 0x1000#32 0x0FF0000F#32 = .unknown := by decide

theorem test_disassembly_text : AsmLine.text (fun _ => none) (.line "lw" [.reg 8, .mem 0 5]) = "lw      x8, 0(x5)" := by decide

/-- R306, T14's address 0x103c: its digits, whatever the least count, and address 0. -/
theorem test_target_digits :
    hexDigits 0 0x103C#32 = [1, 0, 3, 12] ∧ hexDigits 8 0x103C#32 = [0, 0, 0, 0, 1, 0, 3, 12] ∧ hexDigits 0 0#32 = [0] ∧
    [1, 0, 3, 12].map (hexChar false) = ['1', '0', '3', 'c'] ∧ [1, 0, 3, 12].map (hexChar true) = ['1', '0', '3', 'C'] := by decide

/-! ### Witnesses: the hypotheses of the obligations can be met -/

/-- A running state about to run ADD. -/
def sAdd : State := at_ 0x1000#32 0x002081B3#32 [(1, 1#32), (2, 2#32)]

theorem sAdd_fetches : Fetches sAdd 0x002081B3#32 := by unfold Fetches BytesMapped; decide

theorem sAdd_inv : sAdd.Inv := ⟨by decide, by decide, by decide, by decide, by decide, by decide, by decide⟩

/-- `step` goes on. -/
def Goes (s : State) : Prop := ∃ t : State, step s = .next t

/-- A step that goes on, from the fact that its outcome shows something. -/
theorem goes_of_seen {α : Type} (f : State → α) (s : State) (h : (seen f (step s)).isSome = true) : Goes s := by
  unfold Goes
  cases e : step s with
  | next t => exact ⟨t, rfl⟩
  | fault r => rw [e] at h; cases h
  | refused r => rw [e] at h; cases h

theorem sAdd_goes : Goes sAdd := goes_of_seen State.pc _ (by decide)

theorem witness_BootLeavesResetColumn : (1 : Reg) ≠ 0 ∧ ∃ t : Table, t ∈ (State.boot Config.defaults).bank.bimodal :=
  ⟨by decide, Table.boot 256, by decide⟩

theorem witness_BootMeetsInvariant : Config.defaults.wf = true ∧ Config.defaults.entryPc.toNat % 2 = 0 := by decide

theorem witness_DecodeOfEncodeIsInstruction :
    ([.lui 31 0xFFFFF000#32, .jal 31 0xFFF00000#32, .jalr 1 31 0xFFFFF800#32, .beq 31 0 4094#32, .lw 31 0 2047#32, .sw 0 31 0xFFFFF800#32,
      .addi 31 31 0xFFFFFFFF#32, .srai 31 31 31#5, .mulhsu 31 30 29, .ecall] : List Instr).all Instr.wf = true := by decide

theorem witness_EncodeOfDecodeIsWord : decode 0xFE209CE3#32 = .ok (.bne 1 2 0xFFFFFFF8#32) := by decide

/-- Both ends of every format's range, with the word of T2. -/
theorem witness_ImmediateRoundTrip :
    ((-2048 : Int) ≤ (0xFFFFF800#32).toInt ∧ (0xFFFFF800#32).toInt ≤ 2047 ∧
      (0x80000013#32).extractLsb' 20 12 = (0xFFFFF800#32).extractLsb' 0 12) ∧
    ((-2048 : Int) ≤ (2047#32).toInt ∧ (2047#32).toInt ≤ 2047 ∧ (0x7E002FA3#32).extractLsb' 25 7 = (2047#32).extractLsb' 5 7 ∧
      (0x7E002FA3#32).extractLsb' 7 5 = (2047#32).extractLsb' 0 5) ∧
    ((-4096 : Int) ≤ (4094#32).toInt ∧ (4094#32).toInt ≤ 4094 ∧ (4094#32).toInt % 2 = 0 ∧
      (0x7E000FE3#32).extractLsb' 31 1 = (4094#32).extractLsb' 12 1 ∧ (0x7E000FE3#32).extractLsb' 25 6 = (4094#32).extractLsb' 5 6 ∧
      (0x7E000FE3#32).extractLsb' 8 4 = (4094#32).extractLsb' 1 4 ∧ (0x7E000FE3#32).extractLsb' 7 1 = (4094#32).extractLsb' 11 1) ∧
    ((0xFFFFF000#32).toInt % 4096 = 0 ∧ (0xFFFFF037#32).extractLsb' 12 20 = (0xFFFFF000#32).extractLsb' 12 20) ∧
    ((-1048576 : Int) ≤ (0xFFF00000#32).toInt ∧ (0xFFF00000#32).toInt ≤ 1048574 ∧ (0xFFF00000#32).toInt % 2 = 0 ∧
      (0x8000006F#32).extractLsb' 31 1 = (0xFFF00000#32).extractLsb' 20 1 ∧
      (0x8000006F#32).extractLsb' 21 10 = (0xFFF00000#32).extractLsb' 1 10 ∧
      (0x8000006F#32).extractLsb' 20 1 = (0xFFF00000#32).extractLsb' 11 1 ∧
      (0x8000006F#32).extractLsb' 12 8 = (0xFFF00000#32).extractLsb' 12 8) := by decide

theorem witness_ImmediateBitsAndRanges : (31 : Nat) < 32 ∧ decode 0x002081B3#32 = .ok (.add 3 1 2) := by decide

theorem witness_DecodeFollowsTable :
    (∃ r ∈ decodeTable, r.matches 0x002081B3#32 = true) ∧ ∀ r ∈ decodeTable, r.matches 0x0FF0000F#32 = false := by decide

/-- One word of each class (a) to (h) is unknown, and a word of no class is not. -/
theorem witness_UnknownWordsExactly :
    [0x0FF0000F#32, 0x00009067#32, 0x00002063#32, 0x00003003#32, 0x00003023#32, 0x02001013#32, 0x400010B3#32, 0x00100073#32].all
      (fun w => decide (kindOf w = .unknown)) = true ∧ kindOf 0x00000073#32 = .ecall := by decide

theorem witness_StepRunsDecodedInstruction :
    sAdd.runState = .running ∧ sAdd.pc.toNat % 4 = 0 ∧ BytesMapped sAdd sAdd.pc 4 ∧
    decodeBytes ([sAdd.byteAt sAdd.pc, sAdd.byteAt (sAdd.pc + 1#32), sAdd.byteAt (sAdd.pc + 2#32), sAdd.byteAt (sAdd.pc + 3#32)] ++ []) =
      .ok (.add 3 1 2, []) ∧ Fetches sAdd 0x002081B3#32 ∧ decode 0x002081B3#32 = .ok (.add 3 1 2) :=
  ⟨by decide, by decide, by unfold BytesMapped; decide, by decide, sAdd_fetches, by decide⟩

/-- At the last word of the address space, so that the four bytes end at its top. -/
theorem witness_PlacedInstructionRuns :
    Instr.wf (.lui 5 0xFFFFF000#32) = true ∧ State.runState { State.reset with pc := 0xFFFFFFFC#32 } = .running ∧
    (0xFFFFFFFC#32 : Word).toNat % 4 = 0 := by decide

theorem witness_UnknownIsCountedNoOp :
    Fetches (at_ 0x1000#32 0x0FF0000F#32 []) 0x0FF0000F#32 ∧ decode 0x0FF0000F#32 = .error .noSuchOpcode := by
  unfold Fetches BytesMapped; decide

theorem witness_SystemWordsAreUnknown :
    ((0x30200073#32).extractLsb' 0 7 = 0b1110011#7 ∧ 0x30200073#32 ≠ 0x00000073#32) ∧ (0x0000100F#32).extractLsb' 0 7 = 0b0001111#7 ∧
    Fetches (at_ 0x1000#32 0x00100073#32 []) 0x00100073#32 ∧ Fetches (at_ 0x1000#32 0x0FF0000F#32 []) 0x0FF0000F#32 := by
  unfold Fetches BytesMapped; decide

/-- Each of the four ways to fault occurs. -/
theorem witness_FaultsExactly :
    faultOf (step { sAdd with pc := 0x1002#32 }) = some (.fetchMisaligned 0x1002#32) ∧
    faultOf (step { sAdd with mapped := [] }) = some (.unmapped 0x1000#32) ∧
    faultOf (step (data 0x00632283#32 [(6, 0x2000#32)])) = some (.dataMisaligned 0x2006#32) ∧
    faultOf (step (data 0x00732423#32 [(6, 0x2000#32)])) = some (.unmapped 0x2008#32) := by decide

/-- A halted core, and a character read that is never answered: the characters are used up and the collaborator is silent. -/
theorem witness_RefusesExactlyWhenHaltedOrWaiting :
    refusalOf (step { sAdd with runState := .halted }) = some .coreHalted ∧ Fetches sWait 0x00000073#32 ∧ sWait.reg 17 = 1#32 ∧
    sWait.input.length ≤ sWait.inputPos ∧ sWait.inputTail = .silent ∧ refusalOf (step sWait) = some .awaitingInput := by
  unfold Fetches BytesMapped; decide

theorem witness_EveryStepIsCounted :
    Goes sAdd ∧ Fetches sAdd 0x002081B3#32 ∧ decode 0x002081B3#32 = .ok (.add 3 1 2) ∧
    Fetches (at_ 0x1000#32 0x0FF0000F#32 []) 0x0FF0000F#32 ∧ decode 0x0FF0000F#32 = .error .noSuchOpcode ∧
    Goes (at_ 0x1000#32 0x0FF0000F#32 []) :=
  ⟨sAdd_goes, sAdd_fetches, by decide, by unfold Fetches BytesMapped; decide, by decide, goes_of_seen State.pc _ (by decide)⟩

theorem witness_StepKeepsInvariant : sAdd.Inv ∧ Goes sAdd := ⟨sAdd_inv, sAdd_goes⟩

/-- A step that changes register 3. -/
theorem witness_RegistersChangeOnlyAtDestination : seen (fun t => decide (t.reg 3 ≠ sAdd.reg 3)) (step sAdd) = some true := by decide

/-- A step that changes the byte at 0x2003. -/
theorem witness_MemoryChangesOnlyByStores :
    seen (fun t => decide (t.byteAt 0x2003#32 ≠ State.byteAt (data 0x007301A3#32 [(6, 0x2000#32), (7, 0xD4#32)]) 0x2003#32))
      (step (data 0x007301A3#32 [(6, 0x2000#32), (7, 0xD4#32)])) = some true := by decide

theorem witness_ParametersNeverChange : Goes sAdd := sAdd_goes

/-- The three cases: an ADD, a character read, a character written. -/
theorem witness_InputOutputOnlyByEcall :
    Goes sAdd ∧ seen State.inputPos (step { at_ 0x1000#32 0x00000073#32 [(17, 1#32)] with input := [0x41#8] }) = some 1 ∧
    seen State.output (step (at_ 0x1000#32 0x00000073#32 [(17, 2#32), (10, 0x141#32)])) = some [0x41#8] :=
  ⟨sAdd_goes, by decide, by decide⟩

/-- A control transfer, another instruction and an unknown word, each taking its step. -/
theorem witness_OnlyControlTransfersAreObserved :
    (Goes (at_ 0x1000#32 0xFF1FF06F#32 []) ∧ Fetches (at_ 0x1000#32 0xFF1FF06F#32 []) 0xFF1FF06F#32 ∧
      decode 0xFF1FF06F#32 = .ok (.jal 0 0xFFFFFFF0#32)) ∧
    (Goes sAdd ∧ Fetches sAdd 0x002081B3#32 ∧ decode 0x002081B3#32 = .ok (.add 3 1 2)) ∧
    (Goes (at_ 0x1000#32 0x0FF0000F#32 []) ∧ Fetches (at_ 0x1000#32 0x0FF0000F#32 []) 0x0FF0000F#32 ∧
      decode 0x0FF0000F#32 = .error .noSuchOpcode) :=
  ⟨⟨goes_of_seen State.pc _ (by decide), by unfold Fetches BytesMapped; decide, by decide⟩,
   ⟨sAdd_goes, sAdd_fetches, by decide⟩,
   ⟨goes_of_seen State.pc _ (by decide), by unfold Fetches BytesMapped; decide, by decide⟩⟩

/-- For the statements built from `WritesOnly`, `JumpsTo` and `SameRegsBut`: a destination that is not register 0, and a register that is
neither; a highest bit number; a `funct7` that is no shift's. -/
theorem witness_WritesOnly : (31 : Reg) ≠ 0 ∧ (1 : Reg) ≠ 0 ∧ (1 : Reg) ≠ 31 ∧ (31 : Nat) < 32 ∧ 0b0000001#7 ≠ 0b0000000#7 := by decide

theorem witness_DivisionIdentity :
    (31 : Reg) ≠ 0 ∧ (1 : Reg) ≠ 0 ∧ (put [(2, 0xFFFFFFFE#32)] State.reset).reg 2 ≠ 0#32 ∧
    (Sys2Proof.Machine.exec (.rem 1 1 2) (put [(1, 0xFFFFFFF9#32), (2, 0xFFFFFFFE#32)] State.reset) |> seen (fun t => decide ((t.reg 1).toInt ≠ 0))) =
      some true := by decide

/-- For `LoadResults`, `StoreResults`: the last byte, half and word of the mapped data; and the last word of the address space. -/
theorem witness_aligned_and_mapped :
    (∀ n : Nat, n ∈ [1, 2, 4] → (dataAddr (data 0x13#32 [(6, 0x2008#32)]) 6 (BitVec.ofInt 32 (-(n : Int)))).toNat % n = 0 ∧
      (List.range n).all (fun k => State.isMapped (data 0x13#32 [(6, 0x2008#32)])
        (dataAddr (data 0x13#32 [(6, 0x2008#32)]) 6 (BitVec.ofInt 32 (-(n : Int))) + BitVec.ofNat 32 k)) = true) ∧
    (dataAddr State.reset 0 0xFFFFFFFC#32).toNat % 4 = 0 ∧ State.allMapped State.reset 0xFFFFFFFC#32 4 = true := by decide

theorem witness_LoadResults : BytesMapped (data 0x13#32 []) 0x2004#32 4 ∧ BytesMapped (data 0x13#32 []) 0x2006#32 2 ∧
    BytesMapped (data 0x13#32 []) 0x2007#32 1 := by unfold BytesMapped; decide

/-- A store that runs, and a byte outside it just above and just below. -/
theorem witness_StoreResults :
    (dataAddr (data 0x13#32 [(6, 0x2000#32)]) 6 2#32).toNat % 2 = 0 ∧ BytesMapped (data 0x13#32 [(6, 0x2000#32)]) 0x2002#32 2 ∧
    (∀ k : Nat, k < 2 → (0x2004#32 : Word) ≠ 0x2002#32 + BitVec.ofNat 32 k) ∧
    (∀ k : Nat, k < 2 → (0x2001#32 : Word) ≠ 0x2002#32 + BitVec.ofNat 32 k) := by unfold BytesMapped; decide

/-- The two clauses: a misaligned access, and an aligned one that is not mapped. -/
theorem witness_DataAccessFaults :
    accessOf (.lw 5 6 6#32) (data 0x13#32 [(6, 0x2000#32)]) = some (0x2006#32, 4) ∧ (0x2006#32 : Word).toNat % 4 ≠ 0 ∧
    accessOf (.sh 6 7 8#32) (data 0x13#32 [(6, 0x2000#32)]) = some (0x2008#32, 2) ∧ (0x2008#32 : Word).toNat % 2 = 0 ∧
    ¬ BytesMapped (data 0x13#32 [(6, 0x2000#32)]) 0x2008#32 2 := by unfold BytesMapped; decide

theorem witness_StoreThenLoadSeesSameBytes :
    (dataAddr (data 0x13#32 [(6, 0x2004#32)]) 6 0#32).toNat % 4 = 0 ∧
    BytesMapped (data 0x13#32 [(6, 0x2004#32)]) (dataAddr (data 0x13#32 [(6, 0x2004#32)]) 6 0#32) 4 ∧ (3 : Nat) < 4 ∧ (1 : Nat) < 2 := by
  unfold BytesMapped; decide

/-- The last byte, the last half and the whole of the next instruction. -/
theorem witness_StoreIsSeenByNextFetch :
    State.runState (at_ 0x1000#32 0x13#32 [(6, 0x1004#32)]) = .running ∧ (0x1000#32 : Word).toNat % 4 = 0 ∧
    BytesMapped (at_ 0x1000#32 0x13#32 [(6, 0x1004#32)]) (0x1000#32 + 4#32) 4 ∧
    dataAddr (at_ 0x1000#32 0x13#32 [(6, 0x1004#32)]) 6 3#32 = 0x1000#32 + 4#32 + BitVec.ofNat 32 3 ∧ 3 % 1 = 0 ∧
    dataAddr (at_ 0x1000#32 0x13#32 [(6, 0x1004#32)]) 6 2#32 = 0x1000#32 + 4#32 + BitVec.ofNat 32 2 ∧ 2 % 2 = 0 ∧
    dataAddr (at_ 0x1000#32 0x13#32 [(6, 0x1004#32)]) 6 0#32 = 0x1000#32 + 4#32 ∧
    seen (fun t => step t |> seen State.nInsn) (exec (.sw 6 7 0#32) (at_ 0x1000#32 0x13#32 [(6, 0x1004#32), (7, 0x02A00393#32)])) =
      some (some 2) ∧
    decode 0x02A00393#32 = .ok (.addi 7 0 42#32) := by unfold BytesMapped; decide

/-- Both sides of each branch condition, at its boundary: equal values, and values whose signed and unsigned order differ. -/
theorem witness_branches :
    (0x80000000#32 : Word).toInt < (0x7FFFFFFF#32 : Word).toInt ∧ ¬ (0x80000000#32 : Word).toNat < (0x7FFFFFFF#32 : Word).toNat ∧
    ¬ (5#32 : Word).toInt < (5#32 : Word).toInt ∧ (5#32 : Word).toNat ≥ (5#32 : Word).toNat ∧ (5#32 : Word) ≠ 6#32 := by decide

/-- Targets with bit 1 set, by JAL and a branch with offset 2 and by JALR. -/
theorem witness_MisalignedTargetStopsNextFetch :
    State.reset.runState = .running ∧ (BitVec.ofInt 32 ((State.reset.pc.toNat : Int) + (2#32 : Word).toInt)).toNat % 4 ≠ 0 ∧
    (((State.reset.reg 0).toNat + (0xFFFFFFFF#32 : Word).toNat) % 2 ^ 32 / 2 * 2) % 4 ≠ 0 ∧ (1 : Reg) ≠ 0 := by decide

/-- A character left, though no end follows it; the end of input; no answer. -/
theorem witness_EcallReadsCharacter :
    (put [(17, 1#32)] State.reset).reg 17 = 1#32 ∧ ([0xFF#8] : List Byte)[0]? = some 0xFF#8 ∧
    State.reset.input.length ≤ State.reset.inputPos ∧ State.reset.inputTail = .endOfInput ∧
    (sRead.inputPos < sRead.input.length ∧ sRead.inputTail = .silent ∧ sRead.reg 17 = 1#32) ∧
    sWait.reg 17 = 1#32 ∧ sWait.input.length ≤ sWait.inputPos ∧ sWait.inputTail = .silent := by decide

theorem witness_EcallWritesCharacter : (put [(17, 2#32)] State.reset).reg 17 = 2#32 := by decide

theorem witness_EcallHalts :
    (put [(17, 3#32)] State.reset).reg 17 = 3#32 ∧ (put [(17, 93#32)] State.reset).reg 17 = 93#32 ∧
    seen State.runState (step (at_ 0x1000#32 0x00000073#32 [(17, 93#32)])) = some .halted := by decide

theorem witness_EcallOtherIsNoOp :
    [0#32, 4#32, 94#32, 0x101#32, 0xFFFFFFFF#32].all (fun v : Word => decide (v ≠ 1#32 ∧ v ≠ 2#32 ∧ v ≠ 3#32 ∧ v ≠ 93#32)) = true := by decide

theorem witness_ReportExactlyWhenHalted :
    State.reset.runState = .running ∧ State.runState { State.reset with runState := .halted } = .halted := by decide

/-- A right and a wrong prediction, at the boundary where target and `pc` are equal. -/
theorem witness_ObserveJudgesBtfnt :
    ((0x1000#32 : Word).toNat < (0x1000#32 : Word).toNat ↔ false = true) ∧
    ¬ ((0x1000#32 : Word).toNat < (0x1000#32 : Word).toNat ↔ true = true) := by decide

theorem witness_ObserveUpdatesBimodal :
    State.reset.bank.bimodal[0]? = some (Table.boot 256) ∧ (Table.boot 256).size = 2 ^ 8 ∧ (0x02 : Nat) = (0x1008#32 : Word).toNat / 4 % 256 ∧
    (3 : Nat) ≠ 2 := by decide

theorem witness_ObserveUpdatesGshare :
    State.reset.bank.gshare[3]? = some (Table.boot 16384) ∧ (Table.boot 16384).size = 2 ^ 14 ∧
    (1026 : Nat) = ((0x1008#32 : Word).toNat / 4 ^^^ State.reset.bank.ghr.toNat) % 16384 := by decide

theorem witness_StatisticsAreMonotone :
    Goes sAdd ∧ sAdd.bank.ErrorsBounded ∧ seen (fun t => decide (t.bank ≠ State.reset.bank)) (step (at_ 0x1000#32 0xFF1FF06F#32 [])) = some true :=
  ⟨sAdd_goes, by unfold Bank.ErrorsBounded; decide, by decide⟩

/-- A load, one to register 0, a store, a branch, a jump and an unknown word each leave their part of a record. -/
theorem witness_TraceRecordsTheStep :
    (traceOf (data 0x00432283#32 [(6, 0x2000#32)])).map TraceRecord.load = some (some (5, 0x92345678#32)) ∧
    (traceOf (data 0x00032003#32 [(6, 0x2000#32)])).map TraceRecord.load = some (some (0, 0x1234FF80#32)) ∧
    ((traceOf (data 0x00732023#32 [(6, 0x2000#32)])).bind TraceRecord.store).map Prod.fst = some 0x2000#32 ∧
    (traceOf (at_ 0x1000#32 0x00208863#32 [(1, 1#32)])).map TraceRecord.transfer = some (some (true, false)) ∧
    (traceOf (at_ 0x1000#32 0xFF1FF06F#32 [])).map TraceRecord.transfer = some (some (false, true)) ∧
    (traceOf (at_ 0x1000#32 0x0FF0000F#32 [])).map TraceRecord.load = some none := by decide

end Sys2Proof.Tests
end

/-! SUPPORT. Family `00_scope.md`: what the start of a run leaves in the state, and that no step writes a parameter of the run (R7). -/

namespace Sys2Proof.Machine

/-! ### The start of a run -/

section Boot
variable (p : Params)

@[simp] theorem State.reg_boot_zero : (State.boot p).reg 0 = 0#32 := by
  simp [State.reg, State.boot, Vector.get_eq_getElem]

theorem State.reg_boot_ne (r : Reg) (h : r ≠ 0) : (State.boot p).reg r = p.initX.get r := by
  have : ¬ 0 = r.val := fun e => h (Fin.ext e.symm)
  simp [State.reg, State.boot, Vector.get_eq_getElem, this]

@[simp] theorem Table.boot_size (n : Nat) : (Table.boot n).size = n := rfl
@[simp] theorem Table.boot_err (n : Nat) : (Table.boot n).err = 0 := rfl
@[simp] theorem Table.ctr_boot (init : Ctr) (n i : Nat) : (Table.boot n).ctr init i = init := rfl

@[simp] theorem Bank.boot_bimodal : (Bank.boot p).bimodal = p.bimodalSizes.map Table.boot := rfl
@[simp] theorem Bank.boot_gshare : (Bank.boot p).gshare = p.gshareSizes.map Table.boot := rfl

/-- Tables made for a list of sizes have these sizes. -/
theorem Table.map_size_map_boot (sizes : List Nat) : (sizes.map Table.boot).map Table.size = sizes := by
  simp [Function.comp_def]

/-- No error is counted at the start, and every counter is at `CTR_INIT` (R45, R46). -/
theorem Bank.tables_boot {t : Table} (h : t ∈ (Bank.boot p).bimodal ++ (Bank.boot p).gshare) :
    t.err = 0 ∧ ∀ i : Nat, t.ctr (Bank.boot p).ctrInit i = p.ctrInit := by
  rw [Bank.boot_bimodal, Bank.boot_gshare, ← List.map_append] at h
  obtain ⟨n, -, rfl⟩ := List.mem_map.mp h
  exact ⟨Table.boot_err n, Table.ctr_boot _ n⟩

end Boot

/-- Settles O1: registers and tables by the lemmas on `boot`, every other field as `boot` writes it. -/
theorem bootLeavesResetColumn : Obligations.BootLeavesResetColumn := by
  intro p
  have bimodal : (State.boot p).bank.bimodal.map Table.size = p.bimodalSizes := Table.map_size_map_boot _
  have gshare : (State.boot p).bank.gshare.map Table.size = p.gshareSizes := Table.map_size_map_boot _
  exact ⟨State.reg_boot_zero p, State.reg_boot_ne p, rfl, rfl, rfl, rfl, rfl, rfl, rfl, bimodal, gshare,
    fun _ ht => Bank.tables_boot p ht, rfl, fun _ => rfl, rfl, rfl, rfl, rfl, rfl, rfl, rfl⟩

/-! ### The parameters of a run (R7) -/

/-- The parameters of R7 that the machine consults while it runs. -/
structure RunParams where
  mapped : List Region
  input : List Byte
  inputTail : InputTail
  eofValue : Word
  ctrInit : Ctr
  bimodalSizes : List Nat
  gshareSizes : List Nat

/-- The parameters as they stand in the state. -/
def State.runParams (s : State) : RunParams where
  mapped := s.mapped
  input := s.input
  inputTail := s.inputTail
  eofValue := s.eofValue
  ctrInit := s.bank.ctrInit
  bimodalSizes := s.bank.bimodal.map Table.size
  gshareSizes := s.bank.gshare.map Table.size

theorem State.runParams_eq_iff (s t : State) : t.runParams = s.runParams ↔
    t.mapped = s.mapped ∧ t.input = s.input ∧ t.inputTail = s.inputTail ∧ t.eofValue = s.eofValue ∧
    t.bank.ctrInit = s.bank.ctrInit ∧ t.bank.bimodal.map Table.size = s.bank.bimodal.map Table.size ∧
    t.bank.gshare.map Table.size = s.bank.gshare.map Table.size := by
  simp only [State.runParams, RunParams.mk.injEq]

/-- An observation moves counters; no table changes its size (R276, R277). -/
theorem Table.map_size_map_observe (init : Ctr) (index : Table → Nat) (tk : Bool) (l : List Table) :
    (l.map (fun t => t.observe init (index t) tk)).map Table.size = l.map Table.size := by
  simp [Function.comp_def]

section RunParams
variable (s : State)

@[simp] theorem State.runParams_setReg (r : Reg) (v : Word) : (s.setReg r v).runParams = s.runParams := rfl
@[simp] theorem State.runParams_commit (next : Word) : (s.commit next).runParams = s.runParams := rfl
@[simp] theorem State.runParams_commitSeq : s.commitSeq.runParams = s.runParams := rfl

@[simp] theorem State.runParams_observe (target : Word) (ib tk : Bool) : (s.observe target ib tk).runParams = s.runParams := by
  rw [State.runParams_eq_iff]
  exact ⟨rfl, rfl, rfl, rfl, rfl, Table.map_size_map_observe _ (fun t => bimodalIndex s.pc t.size) _ _,
    Table.map_size_map_observe _ (fun t => gshareIndex s.pc s.bank.ghr t.size) _ _⟩

end RunParams

theorem StoreEffect.runParams {s u : State} (h : StoreEffect s u) : u.runParams = s.runParams := by
  obtain ⟨m, rfl⟩ := h.frame
  rfl

theorem EcallEffect.runParams {s t : State} (h : EcallEffect s t) : t.runParams = s.runParams := by
  rcases h with ⟨-, -, rfl⟩ | ⟨-, rfl⟩ | ⟨-, rfl⟩ | ⟨-, -, -, -, rfl⟩ <;> rfl

/-- An instruction that goes on leaves the parameters, by its shape. -/
theorem exec_runParams {i : Instr} {s t : State} (h : exec i s = .next t) : t.runParams = s.runParams := by
  rcases exec_next h with ⟨-, rd, v, -, rfl⟩ | ⟨-, u, hu, rfl⟩ | ⟨-, tk, imm, rfl⟩ | ⟨-, rd, target, -, rfl⟩ | ⟨-, he⟩
  · rw [State.runParams_commitSeq, State.runParams_setReg]
  · rw [State.runParams_commitSeq, hu.runParams]
  · rw [State.runParams_commit, State.runParams_observe]
  · rw [State.runParams_commit, State.runParams_setReg, State.runParams_observe]
  · exact he.runParams

/-- A step that goes on leaves the parameters, on an instruction and on an unknown word. -/
theorem step_runParams {s t : State} (h : step s = .next t) : t.runParams = s.runParams := by
  obtain ⟨-, w, -, ⟨i, -, hi⟩ | ⟨e, -, rfl⟩⟩ := step_next h
  · exact exec_runParams hi
  · rfl

/-- Settles O21: every step keeps the parameters as they stand in the state. -/
theorem parametersNeverChange : Obligations.ParametersNeverChange :=
  fun s t h => (State.runParams_eq_iff s t).mp (step_runParams h)

end Sys2Proof.Machine

/-! SUPPORT. Family `10_state.md`: the invariant at the start of a run and over every step, the counts (R33, R36), the registers a step
may change (R21, R24), the report (R38). -/

namespace Sys2Proof.Machine

/-! ### The invariant at the start of a run -/

theorem Params.wf_iff (p : Params) : p.wf = true ↔
    (∀ n ∈ p.bimodalSizes, isPow2 n = true) ∧ (∀ n ∈ p.gshareSizes, isPow2 n = true) ∧
    p.mapped.all Region.wf = true ∧ Memory.wf p.initMem = true := by
  simp only [Params.wf, Bool.and_eq_true, List.all_eq_true, and_assoc]

/-- A table of the start state is well formed when its size is a power of two (R39, R271). -/
theorem Table.wf_boot (init : Ctr) {n : Nat} (h : isPow2 n = true) : (Table.boot n).wf init 0 = true :=
  (Table.wf_iff _ _ _).mpr ⟨h, rfl, nofun, le_rfl⟩

theorem Table.wf_map_boot (init : Ctr) {sizes : List Nat} (h : ∀ n ∈ sizes, isPow2 n = true) :
    ∀ t ∈ sizes.map Table.boot, t.wf init 0 = true := by
  intro t ht
  obtain ⟨n, hn, rfl⟩ := List.mem_map.mp ht
  exact Table.wf_boot init (h n hn)

theorem Bank.wf_boot {p : Params} (hb : ∀ n ∈ p.bimodalSizes, isPow2 n = true) (hg : ∀ n ∈ p.gshareSizes, isPow2 n = true) :
    (Bank.boot p).wf = true :=
  (Bank.wf_iff _).mpr ⟨le_rfl, le_rfl, Table.wf_map_boot _ hb, Table.wf_map_boot _ hg⟩

/-- Settles O3: memory, mapped set and table sizes are the host's, and nothing is counted yet. -/
theorem bootMeetsInvariant : Obligations.BootMeetsInvariant := by
  intro p hp hpc
  obtain ⟨hb, hg, hmapped, hmem⟩ := (Params.wf_iff p).mp hp
  exact ⟨State.reg_boot_zero p, hpc, hmem, hmapped, Bank.wf_boot hb hg, le_rfl, Nat.zero_le _⟩

/-- Settles O2: the default parameters are well formed, with an even entry address. -/
theorem resetMeetsInvariant : Obligations.ResetMeetsInvariant :=
  bootMeetsInvariant Config.defaults (by decide) (by decide)

/-! ### The fetch of a step -/

theorem State.allMapped_iff (s : State) (a : Word) (n : Nat) : s.allMapped a n = true ↔ BytesMapped s a n := by
  simp [State.allMapped, BytesMapped]

/-- `Fetches` speaks of the word that the model's own fetch delivers to a running core. -/
theorem fetches_iff (s : State) (w : Word) : Fetches s w ↔ s.runState = .running ∧ s.fetch = .ok w := by
  unfold Fetches
  rw [← State.allMapped_iff]
  rcases s.fetch_cases with ⟨hal, e⟩ | ⟨-, hm, e⟩ | ⟨hal, hm, e⟩
  · simp [hal, e]
  · simp [hm, e]
  · simp only [hal, hm, e, true_and, Except.ok.injEq]
    exact and_congr_right fun _ => eq_comm

/-- A step that goes on fetches a word and runs the instruction it decodes to, or counts it as unknown. -/
theorem step_next_fetches {s t : State} (h : step s = .next t) : ∃ w, Fetches s w ∧
    ((∃ i, decode w = .ok i ∧ exec i s = .next t) ∨
     (∃ e, decode w = .error e ∧ t = { s with nUnknown := s.nUnknown + 1 }.commitSeq)) := by
  obtain ⟨hr, w, hf, h⟩ := step_next h
  exact ⟨w, (fetches_iff s w).mpr ⟨hr, hf⟩, h⟩

/-! ### Every instruction ends in the commit of R127 -/

/-- An ECALL that goes on commits a state with the counts of the old one; the halt is set beside the commit (R128). -/
theorem EcallEffect.commits {s t : State} (h : EcallEffect s t) :
    ∃ u next, t = State.commit u next ∧ u.nInsn = s.nInsn ∧ u.nUnknown = s.nUnknown := by
  rcases h with ⟨-, -, rfl⟩ | ⟨-, rfl⟩ | ⟨-, rfl⟩ | ⟨-, -, -, -, rfl⟩
  · exact ⟨_, _, rfl, rfl, rfl⟩
  · exact ⟨_, _, rfl, rfl, rfl⟩
  · exact ⟨{ s with runState := .halted }, nextSeq s.pc, rfl, rfl, rfl⟩
  · exact ⟨_, _, rfl, rfl, rfl⟩

/-- An instruction that goes on commits a state with the counts of the old one. -/
theorem exec_commits {i : Instr} {s t : State} (h : exec i s = .next t) :
    ∃ u next, t = State.commit u next ∧ u.nInsn = s.nInsn ∧ u.nUnknown = s.nUnknown := by
  rcases exec_next h with ⟨-, rd, v, -, rfl⟩ | ⟨-, u, hu, rfl⟩ | ⟨-, tk, imm, rfl⟩ | ⟨-, rd, target, -, rfl⟩ | ⟨-, he⟩
  · exact ⟨_, _, rfl, rfl, rfl⟩
  · obtain ⟨m, rfl⟩ := hu.frame
    exact ⟨_, _, rfl, rfl, rfl⟩
  · exact ⟨_, _, rfl, rfl, rfl⟩
  · exact ⟨_, _, rfl, rfl, rfl⟩
  · exact he.commits

/-- An instruction that goes on is counted once, and is no unknown word (R33, R36). -/
theorem exec_counts {i : Instr} {s t : State} (h : exec i s = .next t) : t.nInsn = s.nInsn + 1 ∧ t.nUnknown = s.nUnknown := by
  obtain ⟨u, next, rfl, hn, hu⟩ := exec_commits h
  exact ⟨congrArg (· + 1) hn, hu⟩

/-- The commit of an instruction clears `x[0]` (R21). -/
theorem exec_reg_zero {i : Instr} {s t : State} (h : exec i s = .next t) : t.reg 0 = 0#32 := by
  obtain ⟨u, next, rfl, -, -⟩ := exec_commits h
  exact u.reg_commit_zero next

/-- Settles O17: the commit counts the step, and only the counted no-op moves `n_unknown`. -/
theorem everyStepIsCounted : Obligations.EveryStepIsCounted := by
  intro s t h
  obtain ⟨w, hw, ⟨i, hd, hi⟩ | ⟨e, hd, rfl⟩⟩ := step_next_fetches h
  · obtain ⟨hn, hu⟩ := exec_counts hi
    exact ⟨hn, w, hw, fun _ _ => hu, fun _ he => nomatch hd.symm.trans he⟩
  · exact ⟨rfl, w, hw, fun _ hi => (nomatch hd.symm.trans hi), fun _ _ => rfl⟩

/-! ### The registers a step may change -/

/-- Writing a register and committing changes no other register. -/
theorem State.eq_of_reg_setReg_commit_ne {s u : State} {rd r : Reg} {v next : Word} (hu : ∀ q, u.reg q = s.reg q) (h0 : r ≠ 0)
    (hne : ((u.setReg rd v).commit next).reg r ≠ s.reg r) : rd = r := by
  by_contra hr
  rw [State.reg_commit_ne _ _ _ h0, State.reg_setReg_ne _ _ _ _ (Ne.symm hr), hu] at hne
  exact hne rfl

theorem StoreEffect.reg {s u : State} (h : StoreEffect s u) (q : Reg) : u.reg q = s.reg q := by
  obtain ⟨m, rfl⟩ := h.frame
  rfl

/-- The one register that ECALL changes is `x[10]`, under service 1 (R24, R252). -/
theorem EcallEffect.reg_changed {s t : State} {r : Reg} (h : EcallEffect s t) (h0 : r ≠ 0) (hne : t.reg r ≠ s.reg r) :
    r = regA0 ∧ s.reg regA7 = 1#32 := by
  rcases h with ⟨h1, -, rfl⟩ | ⟨-, rfl⟩ | ⟨-, rfl⟩ | ⟨-, -, -, -, rfl⟩
  · exact ⟨(State.eq_of_reg_setReg_commit_ne (fun _ => rfl) h0 hne).symm, h1⟩
  · exact absurd (State.reg_commit_ne _ _ r h0) hne
  · exact absurd (State.reg_commit_ne s (nextSeq s.pc) r h0) hne
  · exact absurd (State.reg_commit_ne _ _ r h0) hne

/-- A register that an instruction changes is its destination, or ECALL's. -/
theorem exec_reg_changed {i : Instr} {s t : State} {r : Reg} (h : exec i s = .next t) (h0 : r ≠ 0) (hne : t.reg r ≠ s.reg r) :
    destOf i = some r ∨ (i = .ecall ∧ r = regA0 ∧ s.reg regA7 = 1#32) := by
  rcases exec_next h with ⟨-, rd, v, hd, rfl⟩ | ⟨-, u, hu, rfl⟩ | ⟨-, tk, imm, rfl⟩ | ⟨-, rd, target, hd, rfl⟩ | ⟨hi, he⟩
  · have hr : rd = r := State.eq_of_reg_setReg_commit_ne (fun _ => rfl) h0 hne
    exact .inl (hr ▸ hd)
  · exact absurd ((State.reg_commit_ne _ _ r h0).trans (hu.reg r)) hne
  · exact absurd (State.reg_commit_ne _ _ r h0) hne
  · have hr : rd = r := State.eq_of_reg_setReg_commit_ne (State.reg_observe s target false true) h0 hne
    exact .inl (hr ▸ hd)
  · exact .inr ⟨hi, he.reg_changed h0 hne⟩

/-- Settles O19: the commit clears `x[0]`, and an unknown word changes no register. -/
theorem registersChangeOnlyAtDestination : Obligations.RegistersChangeOnlyAtDestination := by
  intro s t h
  obtain ⟨w, hw, ⟨i, hd, hi⟩ | ⟨e, -, rfl⟩⟩ := step_next_fetches h
  · exact ⟨exec_reg_zero hi, fun r h0 hne => ⟨w, i, hw, hd, exec_reg_changed hi h0 hne⟩⟩
  · exact ⟨State.reg_commit_zero _ _, fun r h0 hne => absurd (State.reg_commit_ne _ _ r h0) hne⟩

/-! ### The `pc` stays even (R27, R229) -/

theorem nextSeq_even {pc : Word} (h : pc.toNat % 2 = 0) : (nextSeq pc).toNat % 2 = 0 := by
  simp only [nextSeq, BitVec.toNat_add, BitVec.toNat_ofNat]
  omega

theorem relTarget_even {pc imm : Word} (hpc : pc.toNat % 2 = 0) (himm : imm.toNat % 2 = 0) : (relTarget pc imm).toNat % 2 = 0 := by
  simp only [relTarget, BitVec.toNat_add]
  omega

/-- JALR clears bit 0 of its target, whatever base and immediate (R228). -/
theorem jalrTarget_even (base imm : Word) : (jalrTarget base imm).toNat % 2 = 0 := by
  apply even_of_getLsbD_zero
  simp [jalrTarget]

/-- A decoded branch goes to the next instruction or to its target, both even. -/
theorem exec_branch_pc_even {w : Word} {i : Instr} {s t : State} (hs : i.shape = .branch) (hd : decode w = .ok i)
    (h : exec i s = .next t) (hpc : s.pc.toNat % 2 = 0) : t.pc.toNat % 2 = 0 := by
  have branch : ∀ {tk imm}, imm.toNat % 2 = 0 → execBranch tk imm s = .next t → t.pc.toNat % 2 = 0 := by
    intro tk imm himm e
    cases e
    cases tk
    · exact nextSeq_even hpc
    · exact relTarget_even hpc himm
  cases i with
  | beq | bne | blt | bge | bltu | bgeu => exact branch (decode_imm_even w _ hd) h
  | _ => cases hs

/-- A decoded JAL and every JALR go to an even target. -/
theorem exec_jump_pc_even {w : Word} {i : Instr} {s t : State} (hs : i.shape = .jump) (hd : decode w = .ok i)
    (h : exec i s = .next t) (hpc : s.pc.toNat % 2 = 0) : t.pc.toNat % 2 = 0 := by
  cases i with
  | jal => cases h; exact relTarget_even hpc (decode_imm_even w _ hd)
  | jalr => cases h; exact jalrTarget_even _ _
  | _ => cases hs

theorem EcallEffect.pc {s t : State} (h : EcallEffect s t) : t.pc = nextSeq s.pc := by
  rcases h with ⟨-, -, rfl⟩ | ⟨-, rfl⟩ | ⟨-, rfl⟩ | ⟨-, -, -, -, rfl⟩ <;> rfl

/-- A decoded instruction keeps the `pc` even: only a branch or a jump goes elsewhere than to the next instruction. -/
theorem exec_pc_even {w : Word} {i : Instr} {s t : State} (hd : decode w = .ok i) (h : exec i s = .next t)
    (hpc : s.pc.toNat % 2 = 0) : t.pc.toNat % 2 = 0 := by
  rcases exec_next h with ⟨-, rd, v, -, rfl⟩ | ⟨-, u, hu, rfl⟩ | ⟨hs, -⟩ | ⟨hs, -⟩ | ⟨-, he⟩
  · exact nextSeq_even hpc
  · obtain ⟨m, rfl⟩ := hu.frame
    exact nextSeq_even hpc
  · exact exec_branch_pc_even hs hd h hpc
  · exact exec_jump_pc_even hs hd h hpc
  · rw [he.pc]
    exact nextSeq_even hpc

/-! ### The invariant over a step -/

/-- The invariant as it stands between the stages of a step and the commit: the step may have written `x[0]`, and may have made one
observation or met one unknown word that `n_insn` does not count yet. -/
structure State.CommitReady (u : State) : Prop where
  mem : Memory.wf u.mem = true
  mapped : u.mapped.all Region.wf = true
  bank : u.bank.wf = true
  counts : u.bank.nCtl + u.nUnknown ≤ u.nInsn + 1
  input : u.inputPos ≤ u.input.length

/-- The commit restores the invariant: it clears `x[0]` and counts the step (R127). -/
theorem State.CommitReady.commit {u : State} {next : Word} (h : u.CommitReady) (hpc : next.toNat % 2 = 0) : (u.commit next).Inv :=
  ⟨u.reg_commit_zero next, hpc, h.mem, h.mapped, h.bank, h.counts, h.input⟩

theorem State.CommitReady.setReg {u : State} (h : u.CommitReady) (r : Reg) (v : Word) : (u.setReg r v).CommitReady :=
  ⟨h.mem, h.mapped, h.bank, h.counts, h.input⟩

theorem StoreEffect.commitReady {s u : State} (h : StoreEffect s u) (hs : s.CommitReady) : u.CommitReady := by
  have hmem := h.wf hs.mem
  obtain ⟨m, rfl⟩ := h.frame
  exact ⟨hmem, hs.mapped, hs.bank, hs.counts, hs.input⟩

/-- A character read leaves the input position within the input (R252). -/
theorem State.getCharPos_le (s : State) (h : s.inputPos ≤ s.input.length) : s.getCharPos ≤ s.input.length := by
  unfold State.getCharPos
  split
  · next hc => exact (List.getElem?_eq_some_iff.mp hc).1
  · exact h

section Stages
variable {s : State} (hs : s.Inv)
include hs

theorem State.Inv.commitReady : s.CommitReady :=
  ⟨hs.mem, hs.mapped, hs.bank, Nat.le_succ_of_le hs.counts, hs.input⟩

/-- The one observation of a control transfer (R34, R282). -/
theorem State.Inv.observe_commitReady (target : Word) (ib tk : Bool) : (s.observe target ib tk).CommitReady := by
  refine ⟨hs.mem, hs.mapped, Bank.wf_observe s.bank s.pc target ib tk hs.bank, ?_, hs.input⟩
  have := hs.counts
  simp only [State.observe_bank, Bank.observe_nCtl, State.observe_nUnknown, State.observe_nInsn]
  omega

/-- The one count of an unknown word (R36). -/
theorem State.Inv.countUnknown_commitReady : State.CommitReady { s with nUnknown := s.nUnknown + 1 } :=
  ⟨hs.mem, hs.mapped, hs.bank, Nat.succ_le_succ hs.counts, hs.input⟩

/-- The character read of service 1 (R252). -/
theorem State.Inv.getChar_commitReady : State.CommitReady { s with inputPos := s.getCharPos } :=
  ⟨hs.mem, hs.mapped, hs.bank, Nat.le_succ_of_le hs.counts, s.getCharPos_le hs.input⟩

theorem State.Inv.commitSeq : s.commitSeq.Inv := hs.commitReady.commit (nextSeq_even hs.pcEven)

theorem State.Inv.putChar (b : Byte) : (s.putChar b).Inv := ⟨hs.x0, hs.pcEven, hs.mem, hs.mapped, hs.bank, hs.counts, hs.input⟩

theorem State.Inv.setRunState (r : RunState) : State.Inv { s with runState := r } :=
  ⟨hs.x0, hs.pcEven, hs.mem, hs.mapped, hs.bank, hs.counts, hs.input⟩

theorem EcallEffect.inv {t : State} (h : EcallEffect s t) : t.Inv := by
  rcases h with ⟨-, -, rfl⟩ | ⟨-, rfl⟩ | ⟨-, rfl⟩ | ⟨-, -, -, -, rfl⟩
  · exact (hs.getChar_commitReady.setReg _ _).commit (nextSeq_even hs.pcEven)
  · exact (hs.putChar _).commitSeq
  · exact hs.commitSeq.setRunState .halted
  · exact hs.commitSeq

/-- A decoded instruction that goes on keeps the invariant, by its shape. -/
theorem exec_inv {w : Word} {i : Instr} {t : State} (hd : decode w = .ok i) (h : exec i s = .next t) : t.Inv := by
  have hpc : t.pc.toNat % 2 = 0 := exec_pc_even hd h hs.pcEven
  rcases exec_next h with ⟨-, rd, v, -, rfl⟩ | ⟨-, u, hu, rfl⟩ | ⟨-, tk, imm, rfl⟩ | ⟨-, rd, target, -, rfl⟩ | ⟨-, he⟩
  · exact (hs.commitReady.setReg rd v).commit hpc
  · exact (hu.commitReady hs.commitReady).commit hpc
  · exact (hs.observe_commitReady _ true tk).commit hpc
  · exact ((hs.observe_commitReady target false true).setReg rd _).commit hpc
  · exact he.inv hs

end Stages

/-- Settles O18: a decoded instruction by its shape, an unknown word by the commit of its count. -/
theorem stepKeepsInvariant : Obligations.StepKeepsInvariant := by
  intro s t hs h
  obtain ⟨w, -, ⟨i, hd, hi⟩ | ⟨e, -, rfl⟩⟩ := step_next_fetches h
  · exact exec_inv hs hd hi
  · exact hs.countUnknown_commitReady.commit (nextSeq_even hs.pcEven)

/-! ### The report (R38) -/

theorem State.report_of_running {s : State} (h : s.runState = .running) : s.report = none := by
  simp only [State.report, h]

theorem State.report_of_halted {s : State} (h : s.runState = .halted) : s.report =
    some ⟨s.nInsn, s.bank.nCtl, s.bank.errNt, s.bank.errBtfnt, s.bank.bimodal.map Table.score, s.bank.gshare.map Table.score,
      s.nUnknown⟩ := by
  simp only [State.report, h]

/-- Settles O51: the report's fields are the state's, each table by its score. -/
theorem reportExactlyWhenHalted : Obligations.ReportExactlyWhenHalted :=
  ⟨fun _ h => State.report_of_running h, fun _ h => ⟨_, State.report_of_halted h, rfl, rfl, rfl, rfl, rfl, rfl, rfl⟩⟩

end Sys2Proof.Machine

/-! SUPPORT. Family `20_memory.md`: what a store changes and what reads back (R51 to R53, R66), the faults of a data access (R54, R55, R57),
a store into the next instruction (R65). -/

namespace Sys2Proof.Machine

/-! ### Data accesses that fault (R54, R55, R57) -/

/-- A load or store whose access fails the checks stops with that fault. -/
theorem exec_of_checkData_error {i : Instr} {s : State} {ea : Word} {n : Nat} {f : Fault} (ha : accessOf i s = some (ea, n))
    (hc : s.checkData ea n = .error f) : exec i s = .fault f := by
  cases i with
  | lb | lh | lbu | lhu => cases ha; exact execLoad_error _ _ _ _ _ _ (except_map_error.mpr (except_map_error.mpr hc))
  | lw => cases ha; exact execLoad_error _ _ _ _ _ _ (except_map_error.mpr hc)
  | sb | sh | sw => cases ha; exact execStore_error _ _ _ _ _ _ (except_map_error.mpr hc)
  | _ => cases ha

theorem State.checkData_ok_of_bytesMapped {s : State} {a : Word} {n : Nat} (hal : a.toNat % n = 0) (hm : BytesMapped s a n) :
    s.checkData a n = .ok () :=
  s.checkData_ok a n hal ((s.allMapped_iff a n).mpr hm)

/-- Settles O38: the checks answer the misalignment first. -/
theorem dataAccessFaults : Obligations.DataAccessFaults := by
  intro i s ea n ha
  refine ⟨fun hal => exec_of_checkData_error ha (s.checkData_misaligned ea n hal), fun hal hm => ?_⟩
  rw [← s.allMapped_iff, Bool.not_eq_true] at hm
  exact exec_of_checkData_error ha (s.checkData_unmapped ea n hal hm)

/-! ### What a store changes (R53) -/

/-- `u` is `s` with the `n` low bytes of `v` stored at `ea`, the lowest byte at the lowest address. -/
structure StoresBytes (s u : State) (ea v : Word) (n : Nat) : Prop where
  stored : ∀ k : Nat, k < n → u.byteAt (ea + BitVec.ofNat 32 k) = v.extractLsb' (8 * k) 8
  others : ∀ a : Word, (∀ k : Nat, k < n → a ≠ ea + BitVec.ofNat 32 k) → u.byteAt a = s.byteAt a
  frame : ∃ m, u = { s with mem := m }

section StoresBytes
variable (s : State) (ea v : Word)

theorem State.storesBytes_setByte : StoresBytes s (s.setByte ea (v.extractLsb' 0 8)) ea v 1 where
  stored
    | 0, _ => by simp [State.byteAt_setByte]
  others a ha := by
    have h0 : a ≠ ea := by simpa using ha 0
    simp [State.byteAt_setByte, h0]
  frame := ⟨_, rfl⟩

theorem State.storesBytes_setHalf : StoresBytes s (s.setHalf ea (v.extractLsb' 0 16)) ea v 2 where
  stored
    | 0, _ => by simp [State.byteAt_setHalf]
    | 1, _ => by simp [State.byteAt_setHalf]
  others a ha := by
    have h0 : a ≠ ea := by simpa using ha 0
    have h1 : a ≠ ea + 1#32 := ha 1 (by decide)
    simp [State.byteAt_setHalf, h0, h1]
  frame := ⟨_, rfl⟩

theorem State.storesBytes_setWord : StoresBytes s (s.setWord ea v) ea v 4 where
  stored
    | 0, _ | 1, _ | 2, _ | 3, _ => by simp [State.byteAt_setWord]
  others a ha := by
    have h0 : a ≠ ea := by simpa using ha 0
    have h1 : a ≠ ea + 1#32 := ha 1 (by decide)
    have h2 : a ≠ ea + 2#32 := ha 2 (by decide)
    have h3 : a ≠ ea + 3#32 := ha 3 (by decide)
    simp [State.byteAt_setWord, h0, h1, h2, h3]
  frame := ⟨_, rfl⟩

end StoresBytes

/-- A store whose access passes the checks stores its register at its address and goes on (R206 to R208). -/
theorem exec_store_ok {i : Instr} {s : State} {rs2 : Reg} {ea : Word} {n : Nat} (hr : storedReg i = some rs2)
    (ha : accessOf i s = some (ea, n)) (hc : s.checkData ea n = .ok ()) :
    ∃ u, StoresBytes s u ea (s.reg rs2) n ∧ exec i s = .next u.commitSeq := by
  cases i with
  | sb => cases hr; cases ha; exact ⟨_, s.storesBytes_setByte _ _, execStore_ok _ _ _ _ _ _ (except_map_ok.mpr ⟨(), hc, rfl⟩)⟩
  | sh => cases hr; cases ha; exact ⟨_, s.storesBytes_setHalf _ _, execStore_ok _ _ _ _ _ _ (except_map_ok.mpr ⟨(), hc, rfl⟩)⟩
  | sw => cases hr; cases ha; exact ⟨_, s.storesBytes_setWord _ _, execStore_ok _ _ _ _ _ _ (except_map_ok.mpr ⟨(), hc, rfl⟩)⟩
  | _ => cases hr

/-- A store that goes on had an aligned address and mapped bytes, and stored its register there. -/
theorem exec_store_next {i : Instr} {s t : State} {rs2 : Reg} {ea : Word} {n : Nat} (hr : storedReg i = some rs2)
    (ha : accessOf i s = some (ea, n)) (h : exec i s = .next t) :
    BytesMapped s ea n ∧ ∃ u, StoresBytes s u ea (s.reg rs2) n ∧ t = u.commitSeq := by
  cases hc : s.checkData ea n with
  | error f => exact nomatch (exec_of_checkData_error ha hc).symm.trans h
  | ok =>
    obtain ⟨-, hm⟩ := (s.checkData_ok_iff ea n _).mp hc
    obtain ⟨u, hu, e⟩ := exec_store_ok hr ha hc
    exact ⟨(s.allMapped_iff ea n).mp hm, u, hu, Host.Outcome.next.inj (h.symm.trans e)⟩

/-- Every store has a stored register and an access. -/
theorem exists_storedReg_accessOf {i : Instr} (h : i.shape = .store) (s : State) :
    ∃ rs2 ea n, storedReg i = some rs2 ∧ accessOf i s = some (ea, n) := by
  cases i with
  | sb | sh | sw => exact ⟨_, _, _, rfl, rfl⟩
  | _ => cases h

theorem EcallEffect.byteAt {s t : State} (h : EcallEffect s t) (a : Word) : t.byteAt a = s.byteAt a := by
  rcases h with ⟨-, -, rfl⟩ | ⟨-, rfl⟩ | ⟨-, rfl⟩ | ⟨-, -, -, -, rfl⟩ <;> rfl

/-- An instruction that changes a byte is a store. -/
theorem exec_byte_changed_shape {i : Instr} {s t : State} {a : Word} (h : exec i s = .next t) (hne : t.byteAt a ≠ s.byteAt a) :
    i.shape = .store := by
  rcases exec_next h with ⟨-, rd, v, -, rfl⟩ | ⟨hs, -⟩ | ⟨-, tk, imm, rfl⟩ | ⟨-, rd, target, -, rfl⟩ | ⟨-, he⟩
  · exact absurd rfl hne
  · exact hs
  · exact absurd rfl hne
  · exact absurd rfl hne
  · exact absurd (he.byteAt a) hne

/-- Settles O20: only a store changes a byte, and only the bytes of its access. -/
theorem memoryChangesOnlyByStores : Obligations.MemoryChangesOnlyByStores := by
  intro s t a h hne
  obtain ⟨w, hw, ⟨i, hd, hi⟩ | ⟨e, -, rfl⟩⟩ := step_next_fetches h
  · have hs := exec_byte_changed_shape hi hne
    obtain ⟨rs2, ea, n, hr, ha⟩ := exists_storedReg_accessOf hs s
    obtain ⟨-, u, hu, rfl⟩ := exec_store_next hr ha hi
    by_contra hout
    exact hne (hu.others a fun k hk e => hout ⟨w, i, ea, n, k, hw, hd, hs, ha, hk, e⟩)
  · exact absurd rfl hne

/-! ### Reading back what a store stored (R51, R52) -/

/-- Part of a mapped range is mapped. -/
theorem BytesMapped.sub {s : State} {a : Word} {n k m : Nat} (h : BytesMapped s a n) (hk : k + m ≤ n) :
    BytesMapped s (a + BitVec.ofNat 32 k) m := by
  intro j hj
  rw [BitVec.add_assoc, ← BitVec.ofNat_add]
  exact h (k + j) (by omega)

theorem BytesMapped.congr {s t : State} {a : Word} {n : Nat} (h : BytesMapped s a n) (e : t.mapped = s.mapped) : BytesMapped t a n :=
  fun k hk => (State.isMapped_congr e _).trans (h k hk)

/-- A multiple of a width beyond an aligned address is aligned: the width divides 2^32, so the sum may wrap. -/
theorem dvd_toNat_add_ofNat {a : Word} {k n : Nat} (hn : n ∣ 2 ^ 32) (ha : n ∣ a.toNat) (hk : n ∣ k) :
    n ∣ (a + BitVec.ofNat 32 k).toNat := by
  rw [BitVec.toNat_add, BitVec.toNat_ofNat, Nat.dvd_mod_iff hn]
  exact Nat.dvd_add ha ((Nat.dvd_mod_iff hn).mpr hk)

section Reads
variable {t : State} {a : Word}

theorem State.memRead1_ok (hm : BytesMapped t a 1) : t.memRead1 a = .ok (t.byteAt a) :=
  except_map_ok.mpr ⟨(), State.checkData_ok_of_bytesMapped (Nat.mod_one _) hm, rfl⟩

theorem State.memRead2_ok (hal : a.toNat % 2 = 0) (hm : BytesMapped t a 2) : t.memRead2 a = .ok (t.halfAt a) :=
  except_map_ok.mpr ⟨(), State.checkData_ok_of_bytesMapped hal hm, rfl⟩

theorem State.memRead4_ok (hal : a.toNat % 4 = 0) (hm : BytesMapped t a 4) : t.memRead4 a = .ok (t.wordAt a) :=
  except_map_ok.mpr ⟨(), State.checkData_ok_of_bytesMapped hal hm, rfl⟩

end Reads

theorem StoresBytes.mapped {s u : State} {ea v : Word} {n : Nat} (h : StoresBytes s u ea v n) : u.mapped = s.mapped := by
  obtain ⟨m, rfl⟩ := h.frame
  rfl

section WordStored
variable {s u : State} {ea v : Word} (h : StoresBytes s u ea v 4)
include h

/-- Each half of a stored word is that slice of it. -/
theorem StoresBytes.halfAt {k : Nat} (hk : k < 2) : u.halfAt (ea + BitVec.ofNat 32 (2 * k)) = v.extractLsb' (16 * k) 16 := by
  have lo : u.byteAt (ea + BitVec.ofNat 32 (2 * k)) = v.extractLsb' (16 * k) 8 := by
    rw [h.stored (2 * k) (by omega), show 8 * (2 * k) = 16 * k by omega]
  have hi : u.byteAt (ea + BitVec.ofNat 32 (2 * k) + 1#32) = v.extractLsb' (16 * k + 8) 8 := by
    rw [BitVec.add_assoc, ← BitVec.ofNat_add, h.stored (2 * k + 1) (by omega), show 8 * (2 * k + 1) = 16 * k + 8 by omega]
  rw [State.halfAt, hi, lo]
  exact BitVec.extractLsb'_append_extractLsb'_eq_extractLsb' rfl

theorem StoresBytes.wordAt : u.wordAt ea = v := by
  have h0 : u.byteAt ea = v.extractLsb' 0 8 := by simpa using h.stored 0 (by decide)
  rw [State.wordAt, h0, h.stored 1 (by decide), h.stored 2 (by decide), h.stored 3 (by decide)]
  exact wordOfBytes_extract v

end WordStored

/-- Settles O39: every read inside the stored word is aligned and mapped, and answers the stored bytes. -/
theorem storeThenLoadSeesSameBytes : Obligations.StoreThenLoadSeesSameBytes := by
  intro s rs1 rs2 imm hal hm
  obtain ⟨u, hu, e⟩ := exec_store_ok (i := .sw rs1 rs2 imm) rfl rfl (State.checkData_ok_of_bytesMapped hal hm)
  have hm' : BytesMapped u.commitSeq (dataAddr s rs1 imm) 4 := hm.congr hu.mapped
  refine ⟨u.commitSeq, e, fun i hi => ?_, fun k hk => ?_, ?_⟩
  · rw [State.memRead1_ok (hm'.sub hi)]
    exact congrArg _ (hu.stored i hi)
  · rw [State.memRead2_ok (Nat.mod_eq_zero_of_dvd (dvd_toNat_add_ofNat (by decide) (by omega) (by omega))) (hm'.sub (by omega))]
    exact congrArg _ (hu.halfAt hk)
  · rw [State.memRead4_ok hal hm']
    exact congrArg _ hu.wordAt

/-! ### A store into the next instruction (R65) -/

theorem extractLsb'_zero_append_byte {n : Nat} (x : BitVec n) (b : Byte) : (x ++ b).extractLsb' 0 8 = b :=
  (BitVec.extractLsb'_append_eq_of_add_le le_rfl).trans BitVec.extractLsb'_eq_self

theorem extractLsb'_add_append_byte {n : Nat} (x : BitVec n) (b : Byte) (i : Nat) :
    (x ++ b).extractLsb' (i + 8) 8 = x.extractLsb' i 8 :=
  BitVec.extractLsb'_append_eq_of_le (Nat.le_add_left 8 i)

/-- Byte `j` of a word in memory is the byte at offset `j` (R51). -/
theorem State.wordAt_extractLsb' (s : State) (a : Word) :
    ∀ {j : Nat}, j < 4 → (s.wordAt a).extractLsb' (8 * j) 8 = s.byteAt (a + BitVec.ofNat 32 j)
  | 0, _ => by
    rw [BitVec.add_zero]
    exact extractLsb'_zero_append_byte _ _
  | 1, _ => (extractLsb'_add_append_byte _ _ 0).trans (extractLsb'_zero_append_byte _ _)
  | 2, _ => (extractLsb'_add_append_byte _ _ 8).trans
    ((extractLsb'_add_append_byte _ _ 0).trans (extractLsb'_zero_append_byte _ _))
  | 3, _ => (extractLsb'_add_append_byte _ _ 16).trans
    ((extractLsb'_add_append_byte _ _ 8).trans ((extractLsb'_add_append_byte _ _ 0).trans BitVec.extractLsb'_eq_self))

/-- A running core with a word fetched that decodes to no instruction counts it and goes on (R129). -/
theorem step_of_decode_error {s : State} {w : Word} {e : Reject} (hr : s.runState = .running) (hf : s.fetch = .ok w)
    (hd : decode w = .error e) : step s = execUnknown s := by
  simp [step, hr, hf, hd]

/-- After a store the next fetch is of the next sequential word, as the store left it. -/
theorem StoresBytes.fetches {s u : State} {ea v : Word} {n : Nat} (h : StoresBytes s u ea v n) (hr : s.runState = .running)
    (hpc : s.pc.toNat % 4 = 0) (hm : BytesMapped s (s.pc + 4#32) 4) : Fetches u.commitSeq (u.wordAt (s.pc + 4#32)) := by
  obtain ⟨m, rfl⟩ := h.frame
  exact ⟨hr, Nat.mod_eq_zero_of_dvd (dvd_toNat_add_ofNat (by decide) (Nat.dvd_of_mod_eq_zero hpc) (dvd_refl 4)), hm, rfl⟩

/-- The bytes of the word at `a` after a store into it: the stored ones from the store's offset on, the others untouched. -/
theorem StoresBytes.wordAt_extractLsb' {s u : State} {a v : Word} {n k j : Nat} (h : StoresBytes s u (a + BitVec.ofNat 32 k) v n)
    (hkn : k + n ≤ 4) (hj : j < 4) : (u.wordAt a).extractLsb' (8 * j) 8 =
      if k ≤ j ∧ j < k + n then v.extractLsb' (8 * (j - k)) 8 else s.byteAt (a + BitVec.ofNat 32 j) := by
  have addr : ∀ m, a + BitVec.ofNat 32 k + BitVec.ofNat 32 m = a + BitVec.ofNat 32 (k + m) := fun m => by
    rw [BitVec.add_assoc, ← BitVec.ofNat_add]
  rw [u.wordAt_extractLsb' a hj]
  split_ifs with hin
  · rw [← h.stored (j - k) (by omega), addr, Nat.add_sub_cancel' hin.1]
  · refine h.others _ fun m hm => ?_
    rw [addr]
    exact word_add_ne a j (k + m) hj (by omega) (by omega)

/-- A store of a width 1, 2 or 4 at a multiple of it in the next instruction runs, and the next step runs the word it leaves. -/
theorem nextFetchSees_of_store {i : Instr} {rs1 rs2 : Reg} {imm : Word} {n : Nat} (hs : storedReg i = some rs2)
    (ha : ∀ s, accessOf i s = some (dataAddr s rs1 imm, n)) (hn : n ∣ 4) : NextFetchSees i rs1 rs2 imm n := by
  intro s k hrun hpc hm hk hkn hea
  have hdvd : n ∣ k := Nat.dvd_of_mod_eq_zero hkn
  have hfit : k + n ≤ 4 := by
    have := Nat.le_of_dvd (by omega) (Nat.dvd_sub hn hdvd)
    omega
  have hal : n ∣ (s.pc + 4#32 + BitVec.ofNat 32 k).toNat :=
    have wraps : n ∣ 2 ^ 32 := hn.trans (by decide)
    dvd_toNat_add_ofNat wraps (dvd_toNat_add_ofNat wraps (hn.trans (Nat.dvd_of_mod_eq_zero hpc)) hn) hdvd
  have hc : s.checkData (s.pc + 4#32 + BitVec.ofNat 32 k) n = .ok () :=
    State.checkData_ok_of_bytesMapped (Nat.mod_eq_zero_of_dvd hal) (hm.sub hfit)
  obtain ⟨u, hu, e⟩ := exec_store_ok hs (ha s) (hea ▸ hc)
  rw [hea] at hu
  have hw := hu.fetches hrun hpc hm
  obtain ⟨hr, hf⟩ := (fetches_iff _ _).mp hw
  exact ⟨u.commitSeq, _, e, hw, fun _ hj => hu.wordAt_extractLsb' hfit hj,
    fun _ hd => step_of_decode hr hf hd, fun _ hd => step_of_decode_error hr hf hd⟩

/-- Settles O40: the three stores by their widths; a whole stored word is the word at the next address. -/
theorem storeIsSeenByNextFetch : Obligations.StoreIsSeenByNextFetch := by
  constructor
  · intro rs1 rs2 imm
    exact ⟨nextFetchSees_of_store rfl (fun _ => rfl) (by decide), nextFetchSees_of_store rfl (fun _ => rfl) (by decide),
      nextFetchSees_of_store rfl (fun _ => rfl) (by decide)⟩
  · intro s t rs1 rs2 imm hrun hpc hea h
    obtain ⟨hm, u, hu, rfl⟩ := exec_store_next rfl rfl h
    rw [hea] at hm hu
    exact hu.wordAt ▸ hu.fetches hrun hpc hm

end Sys2Proof.Machine

/-! SUPPORT. Family `30_encoding.md`: the five immediates by bits, ranges and placements (R84 to R91), the kind of a word by the fields R103
checks and by the rows of R102, the decoder and the encoder inverse to each other (R83, R103), the unknown words (R104). -/

namespace Sys2Proof

/-! ### Immediates by the bits they come from (R84 to R88) -/

section ImmediateBits
variable (w : Word) {k : Nat} (hk : k < 32)
include hk

theorem getLsbD_immI : (immI w).getLsbD k = if k < 11 then w.getLsbD (20 + k) else w.getLsbD 31 := by
  simp only [immI, BitVec.getLsbD_signExtend, BitVec.msb_eq_getLsbD_last, BitVec.getLsbD_extractLsb']
  interval_cases k <;> simp

theorem getLsbD_immS : (immS w).getLsbD k =
    if k < 5 then w.getLsbD (7 + k) else if k < 11 then w.getLsbD (20 + k) else w.getLsbD 31 := by
  simp only [immS, BitVec.getLsbD_signExtend, BitVec.msb_eq_getLsbD_last, BitVec.getLsbD_append, BitVec.getLsbD_extractLsb']
  interval_cases k <;> simp

theorem getLsbD_immB : (immB w).getLsbD k =
    if k = 0 then false else if k < 5 then w.getLsbD (7 + k) else if k < 11 then w.getLsbD (20 + k)
    else if k = 11 then w.getLsbD 7 else w.getLsbD 31 := by
  simp only [immB, BitVec.getLsbD_signExtend, BitVec.msb_eq_getLsbD_last, BitVec.getLsbD_append, BitVec.getLsbD_extractLsb']
  interval_cases k <;> simp

theorem getLsbD_immU : (immU w).getLsbD k = if k < 12 then false else w.getLsbD k := by
  simp only [immU, BitVec.getLsbD_append, BitVec.getLsbD_extractLsb']
  interval_cases k <;> simp

theorem getLsbD_immJ : (immJ w).getLsbD k =
    if k = 0 then false else if k < 11 then w.getLsbD (20 + k) else if k = 11 then w.getLsbD 20
    else if k < 20 then w.getLsbD k else w.getLsbD 31 := by
  simp only [immJ, BitVec.getLsbD_signExtend, BitVec.msb_eq_getLsbD_last, BitVec.getLsbD_append, BitVec.getLsbD_extractLsb']
  interval_cases k <;> simp

end ImmediateBits

/-! ### Ranges (R84 to R88, R90) -/

section Ranges
variable (v w : Word)

/-- A divisor of 2^32 divides the signed reading of a word exactly when it divides the unsigned one. -/
theorem toInt_emod_eq_zero_iff {m : Nat} (hm : m ∣ 2 ^ 32) : v.toInt % m = 0 ↔ v.toNat % m = 0 := by
  rw [← Int.dvd_iff_emod_eq_zero, ← Nat.dvd_iff_mod_eq_zero, ← Int.natCast_dvd_natCast, BitVec.toInt_eq_toNat_cond]
  split_ifs
  · rfl
  · exact dvd_sub_left (Int.natCast_dvd_natCast.mpr hm)

theorem fitsI_iff : fitsI v = true ↔ -2048 ≤ v.toInt ∧ v.toInt ≤ 2047 := by
  simp [fitsI]

theorem fitsB_iff : fitsB v = true ↔ -4096 ≤ v.toInt ∧ v.toInt ≤ 4094 ∧ v.toInt % 2 = 0 := by
  have even := toInt_emod_eq_zero_iff v (m := 2) (by decide)
  simp only [fitsB, Bool.and_eq_true, decide_eq_true_eq]
  omega

theorem fitsU_iff : fitsU v = true ↔ v.toInt % 4096 = 0 := by
  simpa [fitsU] using (toInt_emod_eq_zero_iff v (m := 4096) (by decide)).symm

theorem fitsJ_iff : fitsJ v = true ↔ -1048576 ≤ v.toInt ∧ v.toInt ≤ 1048574 ∧ v.toInt % 2 = 0 := by
  have even := toInt_emod_eq_zero_iff v (m := 2) (by decide)
  simp only [fitsJ, Bool.and_eq_true, decide_eq_true_eq]
  omega

/-- A sign-extended value lies in the signed range of its true width (R90). -/
theorem toInt_signExtend_bounds {n : Nat} (x : BitVec n) (hn : n ≤ 32) :
    -2 ^ (n - 1) ≤ (x.signExtend 32).toInt ∧ (x.signExtend 32).toInt < 2 ^ (n - 1) := by
  rw [BitVec.toInt_signExtend_of_le hn]
  exact ⟨x.le_toInt, x.toInt_lt⟩

theorem fitsI_immI : fitsI (immI w) = true := by
  have bounds : -2048 ≤ (immI w).toInt ∧ (immI w).toInt < 2048 := toInt_signExtend_bounds (n := 12) _ (by decide)
  rw [fitsI_iff]
  omega

theorem fitsI_immS : fitsI (immS w) = true := by
  have bounds : -2048 ≤ (immS w).toInt ∧ (immS w).toInt < 2048 := toInt_signExtend_bounds (n := 12) _ (by decide)
  rw [fitsI_iff]
  omega

theorem fitsB_immB : fitsB (immB w) = true := by
  have bounds : -4096 ≤ (immB w).toInt ∧ (immB w).toInt < 4096 := toInt_signExtend_bounds (n := 13) _ (by decide)
  have even := (toInt_emod_eq_zero_iff (immB w) (m := 2) (by decide)).mpr (immB_even w)
  rw [fitsB_iff]
  omega

theorem fitsU_immU : fitsU (immU w) = true := by
  have shifted : (w.extractLsb' 12 20 ++ 0#12).toNat = (w.extractLsb' 12 20).toNat * 4096 := by
    rw [BitVec.toNat_append]
    simp [Nat.shiftLeft_eq]
  rw [fitsU, decide_eq_true_eq, immU, shifted, Nat.mul_mod_left]

theorem fitsJ_immJ : fitsJ (immJ w) = true := by
  have bounds : -1048576 ≤ (immJ w).toInt ∧ (immJ w).toInt < 1048576 := toInt_signExtend_bounds (n := 21) _ (by decide)
  have even := (toInt_emod_eq_zero_iff (immJ w) (m := 2) (by decide)).mpr (immJ_even w)
  rw [fitsJ_iff]
  omega

end Ranges

/-! ### A value in range whose bits are placed as R91 places them comes back -/

section Placed
variable {w v : Word}

theorem immI_of_placed (hv : fitsI v = true) (h : w.extractLsb' 20 12 = v.extractLsb' 0 12) : immI w = v := by
  rw [immI, h, fitsI_signExtend v hv]

theorem immS_of_placed (hv : fitsI v = true) (h11 : w.extractLsb' 25 7 = v.extractLsb' 5 7)
    (h4 : w.extractLsb' 7 5 = v.extractLsb' 0 5) : immS w = v := by
  have joined : w.extractLsb' 25 7 ++ w.extractLsb' 7 5 = v.extractLsb' 0 12 := by
    rw [h11, h4]
    exact BitVec.extractLsb'_append_extractLsb'_eq_extractLsb' rfl
  rw [immS, joined]
  exact fitsI_signExtend v hv

/-- The low bits that a format leaves out are the value's own when the value is a multiple of their weight. -/
theorem zero_eq_extractLsb' {n : Nat} (hn : 2 ^ n ∣ 2 ^ 32) (h : v.toInt % (2 ^ n : Nat) = 0) : 0#n = v.extractLsb' 0 n := by
  rw [toInt_emod_eq_zero_iff v hn] at h
  apply BitVec.eq_of_toNat_eq
  simpa using h.symm

theorem immB_of_placed (hv : fitsB v = true) (h12 : w.extractLsb' 31 1 = v.extractLsb' 12 1)
    (h10 : w.extractLsb' 25 6 = v.extractLsb' 5 6) (h4 : w.extractLsb' 8 4 = v.extractLsb' 1 4)
    (h11 : w.extractLsb' 7 1 = v.extractLsb' 11 1) : immB w = v := by
  obtain ⟨-, -, even⟩ := (fitsB_iff v).mp hv
  have joined : w.extractLsb' 31 1 ++ w.extractLsb' 7 1 ++ w.extractLsb' 25 6 ++ w.extractLsb' 8 4 ++ 0#1 = v.extractLsb' 0 13 := by
    rw [h12, h11, h10, h4, zero_eq_extractLsb' (by decide) even]
    iterate 4 rw [BitVec.extractLsb'_append_extractLsb'_eq_extractLsb']
    all_goals rfl
  rw [immB, joined]
  exact fitsB_signExtend v hv

theorem immU_of_placed (hv : fitsU v = true) (h : w.extractLsb' 12 20 = v.extractLsb' 12 20) : immU w = v := by
  rw [immU, h, zero_eq_extractLsb' (by decide) ((fitsU_iff v).mp hv)]
  exact (BitVec.extractLsb'_append_extractLsb'_eq_extractLsb' rfl).trans BitVec.extractLsb'_eq_self

theorem immJ_of_placed (hv : fitsJ v = true) (h20 : w.extractLsb' 31 1 = v.extractLsb' 20 1)
    (h10 : w.extractLsb' 21 10 = v.extractLsb' 1 10) (h11 : w.extractLsb' 20 1 = v.extractLsb' 11 1)
    (h19 : w.extractLsb' 12 8 = v.extractLsb' 12 8) : immJ w = v := by
  obtain ⟨-, -, even⟩ := (fitsJ_iff v).mp hv
  have joined : w.extractLsb' 31 1 ++ w.extractLsb' 12 8 ++ w.extractLsb' 20 1 ++ w.extractLsb' 21 10 ++ 0#1 = v.extractLsb' 0 21 := by
    rw [h20, h19, h11, h10, zero_eq_extractLsb' (by decide) even]
    iterate 4 rw [BitVec.extractLsb'_append_extractLsb'_eq_extractLsb']
    all_goals rfl
  rw [immJ, joined]
  exact fitsJ_signExtend v hv

end Placed

/-- Settles O7: format by format, the word of the placed bits gives the value back, so the signed readings agree. -/
theorem immediateRoundTrip : Obligations.ImmediateRoundTrip := by
  refine ⟨fun w v lo hi h => ?_, fun w v lo hi h11 h4 => ?_, fun w v lo hi even h12 h10 h4 h11 => ?_, fun w v low h => ?_,
    fun w v lo hi even h20 h10 h11 h19 => ?_⟩
  · rw [immI_of_placed ((fitsI_iff v).mpr ⟨lo, hi⟩) h]
  · rw [immS_of_placed ((fitsI_iff v).mpr ⟨lo, hi⟩) h11 h4]
  · rw [immB_of_placed ((fitsB_iff v).mpr ⟨lo, hi, even⟩) h12 h10 h4 h11]
  · rw [immU_of_placed ((fitsU_iff v).mpr low) h]
  · rw [immJ_of_placed ((fitsJ_iff v).mpr ⟨lo, hi, even⟩) h20 h10 h11 h19]

/-! ### The kind of a word, opcode by opcode (R100, R101) -/

/-- The ten opcodes of R100. -/
def opcodes : List (BitVec 7) :=
  [0b0110111#7, 0b0010111#7, 0b1101111#7, 0b1100111#7, 0b1100011#7, 0b0000011#7, 0b0100011#7, 0b0010011#7, 0b0110011#7, 0b1110011#7]

theorem mem_opcodes_iff {op : BitVec 7} : op ∈ opcodes ↔ op = 0b0110111#7 ∨ op = 0b0010111#7 ∨ op = 0b1101111#7 ∨ op = 0b1100111#7 ∨
    op = 0b1100011#7 ∨ op = 0b0000011#7 ∨ op = 0b0100011#7 ∨ op = 0b0010011#7 ∨ op = 0b0110011#7 ∨ op = 0b1110011#7 := by
  simp [opcodes]

/-- The `funct3` of the OP-IMM shifts, which check `funct7` too (R89, R103). -/
def shiftFunct3s : List (BitVec 3) := [0b001#3, 0b101#3]

theorem mem_shiftFunct3s_iff {f3 : BitVec 3} : f3 ∈ shiftFunct3s ↔ f3 = 0b001#3 ∨ f3 = 0b101#3 := by
  simp [shiftFunct3s]

section KindOf
variable {w : Word}

theorem kindOf_of_opcode_lui (h : opcodeOf w = 0b0110111#7) : kindOf w = .lui := by simp [kindOf, h]

theorem kindOf_of_opcode_auipc (h : opcodeOf w = 0b0010111#7) : kindOf w = .auipc := by simp [kindOf, h]

theorem kindOf_of_opcode_jal (h : opcodeOf w = 0b1101111#7) : kindOf w = .jal := by simp [kindOf, h]

theorem kindOf_of_opcode_jalr (h : opcodeOf w = 0b1100111#7) : kindOf w = if funct3Of w = 0b000#3 then .jalr else .unknown := by
  simp [kindOf, h]

theorem kindOf_of_opcode_branch (h : opcodeOf w = 0b1100011#7) : kindOf w = branchKind (funct3Of w) := by simp [kindOf, h]

theorem kindOf_of_opcode_load (h : opcodeOf w = 0b0000011#7) : kindOf w = loadKind (funct3Of w) := by simp [kindOf, h]

theorem kindOf_of_opcode_store (h : opcodeOf w = 0b0100011#7) : kindOf w = storeKind (funct3Of w) := by simp [kindOf, h]

theorem kindOf_of_opcode_opImm (h : opcodeOf w = 0b0010011#7) : kindOf w = opImmKind (funct7Of w) (funct3Of w) := by simp [kindOf, h]

theorem kindOf_of_opcode_op (h : opcodeOf w = 0b0110011#7) : kindOf w = opKind (funct7Of w) (funct3Of w) := by simp [kindOf, h]

theorem kindOf_of_opcode_system (h : opcodeOf w = 0b1110011#7) : kindOf w = if w = 0x00000073#32 then .ecall else .unknown := by
  simp [kindOf, h]

theorem kindOf_of_opcode_unknown (h : opcodeOf w ∉ opcodes) : kindOf w = .unknown := by
  have system : w ≠ 0x00000073#32 := by
    rintro rfl
    exact h (by decide)
  simp only [mem_opcodes_iff, not_or] at h
  simp [kindOf, h, system]

end KindOf

section Kinds
variable (f7 : BitVec 7) (f3 : BitVec 3)

/-- An OP-IMM word that is no shift has its kind by `funct3` alone (R103). -/
theorem opImmKind_of_not_shift {f3 : BitVec 3} (h : f3 ∉ shiftFunct3s) : opImmKind f7 f3 = opImmKind 0#7 f3 := by
  have others : ∀ f : BitVec 3, f ∉ shiftFunct3s → f = 0#3 ∨ f = 2#3 ∨ f = 3#3 ∨ f = 4#3 ∨ f = 6#3 ∨ f = 7#3 := by decide
  rcases others f3 h with rfl | rfl | rfl | rfl | rfl | rfl <;> rfl

theorem opImmKind_eq_unknown_iff : opImmKind f7 f3 = .unknown ↔
    (f3 = 0b001#3 ∧ f7 ≠ 0b0000000#7) ∨ (f3 = 0b101#3 ∧ f7 ∉ [0b0000000#7, 0b0100000#7]) := by
  by_cases shift : f3 ∈ shiftFunct3s
  · rcases mem_shiftFunct3s_iff.mp shift with rfl | rfl
    · simp [opImmKind]
    · by_cases h0 : f7 = 0b0000000#7 <;> simp [opImmKind, h0]
  · have known : ∀ f : BitVec 3, f ∉ shiftFunct3s → opImmKind 0#7 f ≠ .unknown := by decide
    simp only [opImmKind_of_not_shift f7 shift, known f3 shift, false_iff]
    rw [mem_shiftFunct3s_iff, not_or] at shift
    simp [shift]

theorem opKind_eq_unknown_iff : opKind f7 f3 = .unknown ↔
    f7 ∉ [0b0000000#7, 0b0100000#7, 0b0000001#7] ∨ (f7 = 0b0100000#7 ∧ f3 ∉ [0b000#3, 0b101#3]) := by
  unfold opKind
  split_ifs with h0 h32 h1
  · subst h0; revert f3; decide
  · subst h32; revert f3; decide
  · subst h1; revert f3; decide
  · simp [h0, h32, h1]

end Kinds

/-- The kind of a word depends on no bit but those R103 checks at its opcode. -/
theorem kindOf_congr {w v : Word} (op : opcodeOf w = opcodeOf v)
    (f3 : opcodeOf v ∉ [0b0110111#7, 0b0010111#7, 0b1101111#7] → funct3Of w = funct3Of v)
    (f7 : opcodeOf v = 0b0110011#7 ∨ opcodeOf v = 0b0010011#7 ∧ funct3Of v ∈ shiftFunct3s → funct7Of w = funct7Of v)
    (all : opcodeOf v = 0b1110011#7 → w = v) : kindOf w = kindOf v := by
  by_cases known : opcodeOf v ∈ opcodes
  · rcases mem_opcodes_iff.mp known with h | h | h | h | h | h | h | h | h | h <;> rw [h] at op f3
    · rw [kindOf_of_opcode_lui op, kindOf_of_opcode_lui h]
    · rw [kindOf_of_opcode_auipc op, kindOf_of_opcode_auipc h]
    · rw [kindOf_of_opcode_jal op, kindOf_of_opcode_jal h]
    · rw [kindOf_of_opcode_jalr op, kindOf_of_opcode_jalr h, f3 (by decide)]
    · rw [kindOf_of_opcode_branch op, kindOf_of_opcode_branch h, f3 (by decide)]
    · rw [kindOf_of_opcode_load op, kindOf_of_opcode_load h, f3 (by decide)]
    · rw [kindOf_of_opcode_store op, kindOf_of_opcode_store h, f3 (by decide)]
    · rw [kindOf_of_opcode_opImm op, kindOf_of_opcode_opImm h, f3 (by decide)]
      by_cases shift : funct3Of v ∈ shiftFunct3s
      · rw [f7 (.inr ⟨h, shift⟩)]
      · rw [opImmKind_of_not_shift _ shift, opImmKind_of_not_shift (funct7Of v) shift]
    · rw [kindOf_of_opcode_op op, kindOf_of_opcode_op h, f3 (by decide), f7 (.inl h)]
    · rw [all h]
  · rw [kindOf_of_opcode_unknown known, kindOf_of_opcode_unknown (op ▸ known)]

/-! ### The rows of the decode table (R102, R103) -/

/-- A word that matches a row has the row's bits in every field that the row's mask checks whole. -/
theorem extractLsb'_of_matches {r : Row} {w : Word} {lo n : Nat} (h : r.matches w = true)
    (hm : r.mask.extractLsb' lo n = BitVec.allOnes n) : w.extractLsb' lo n = r.bits.extractLsb' lo n := by
  rw [← beq_iff_eq.mp h, BitVec.extractLsb'_and, hm, BitVec.and_allOnes]

section Masks
variable (w : Word)

theorem and_opcodeMask : w &&& 0x0000007F#32 = packR 0 0 0 0 0 (opcodeOf w) := by
  apply BitVec.eq_of_getLsbD_eq
  intro k hk
  simp only [packR, opcodeOf, BitVec.getLsbD_and, BitVec.getLsbD_append, BitVec.getLsbD_extractLsb']
  interval_cases k <;> simp [regBits]

theorem and_funct3Mask : w &&& 0x0000707F#32 = packR 0 0 0 (funct3Of w) 0 (opcodeOf w) := by
  apply BitVec.eq_of_getLsbD_eq
  intro k hk
  simp only [packR, opcodeOf, funct3Of, BitVec.getLsbD_and, BitVec.getLsbD_append, BitVec.getLsbD_extractLsb']
  interval_cases k <;> simp [regBits]

theorem and_funct7Mask : w &&& 0xFE00707F#32 = packR (funct7Of w) 0 0 (funct3Of w) 0 (opcodeOf w) := by
  apply BitVec.eq_of_getLsbD_eq
  intro k hk
  simp only [packR, opcodeOf, funct3Of, funct7Of, BitVec.getLsbD_and, BitVec.getLsbD_append, BitVec.getLsbD_extractLsb']
  interval_cases k <;> simp [regBits]

end Masks

/-- Some row of the table is of kind `k` and matches the word. -/
def HasRow (w : Word) (k : Kind) : Prop := ∃ r ∈ decodeTable, r.kind = k ∧ r.matches w = true

section HasRow
variable {w : Word} {k : Kind}

theorem hasRow_of_opcode (h : ⟨k, packR 0 0 0 0 0 (opcodeOf w), 0x0000007F#32⟩ ∈ decodeTable) : HasRow w k :=
  ⟨_, h, rfl, beq_iff_eq.mpr (and_opcodeMask w)⟩

theorem hasRow_of_funct3 (h : ⟨k, packR 0 0 0 (funct3Of w) 0 (opcodeOf w), 0x0000707F#32⟩ ∈ decodeTable) : HasRow w k :=
  ⟨_, h, rfl, beq_iff_eq.mpr (and_funct3Mask w)⟩

theorem hasRow_of_funct7 (h : ⟨k, packR (funct7Of w) 0 0 (funct3Of w) 0 (opcodeOf w), 0xFE00707F#32⟩ ∈ decodeTable) : HasRow w k :=
  ⟨_, h, rfl, beq_iff_eq.mpr (and_funct7Mask w)⟩

end HasRow

theorem branchKind_row : ∀ f3 : BitVec 3, branchKind f3 ≠ .unknown →
    ⟨branchKind f3, packR 0 0 0 f3 0 0b1100011#7, 0x0000707F#32⟩ ∈ decodeTable := by decide

theorem loadKind_row : ∀ f3 : BitVec 3, loadKind f3 ≠ .unknown →
    ⟨loadKind f3, packR 0 0 0 f3 0 0b0000011#7, 0x0000707F#32⟩ ∈ decodeTable := by decide

theorem storeKind_row : ∀ f3 : BitVec 3, storeKind f3 ≠ .unknown →
    ⟨storeKind f3, packR 0 0 0 f3 0 0b0100011#7, 0x0000707F#32⟩ ∈ decodeTable := by decide

theorem opImmKind_row : ∀ f3 : BitVec 3, f3 ∉ shiftFunct3s →
    ⟨opImmKind 0#7 f3, packR 0 0 0 f3 0 0b0010011#7, 0x0000707F#32⟩ ∈ decodeTable := by decide

theorem opImmKind_shift_row {f7 : BitVec 7} {f3 : BitVec 3} (shift : f3 ∈ shiftFunct3s) (hk : opImmKind f7 f3 ≠ .unknown) :
    ⟨opImmKind f7 f3, packR f7 0 0 f3 0 0b0010011#7, 0xFE00707F#32⟩ ∈ decodeTable := by
  have rows : ∀ g7 ∈ [0b0000000#7, 0b0100000#7], ∀ g3 ∈ shiftFunct3s, opImmKind g7 g3 ≠ .unknown →
      ⟨opImmKind g7 g3, packR g7 0 0 g3 0 0b0010011#7, 0xFE00707F#32⟩ ∈ decodeTable := by decide
  refine rows f7 ?_ f3 shift hk
  contrapose! hk
  rw [mem_shiftFunct3s_iff] at shift
  rw [opImmKind_eq_unknown_iff]
  exact shift.imp (fun f3eq => ⟨f3eq, fun h0 => hk (h0 ▸ List.mem_cons_self)⟩) fun f3eq => ⟨f3eq, hk⟩

theorem opKind_row {f7 : BitVec 7} {f3 : BitVec 3} (hk : opKind f7 f3 ≠ .unknown) :
    ⟨opKind f7 f3, packR f7 0 0 f3 0 0b0110011#7, 0xFE00707F#32⟩ ∈ decodeTable := by
  have rows : ∀ g7 ∈ [0b0000000#7, 0b0100000#7, 0b0000001#7], ∀ g3, opKind g7 g3 ≠ .unknown →
      ⟨opKind g7 g3, packR g7 0 0 g3 0 0b0110011#7, 0xFE00707F#32⟩ ∈ decodeTable := by decide
  refine rows f7 ?_ f3 hk
  contrapose! hk
  exact (opKind_eq_unknown_iff f7 f3).mpr (.inl hk)

/-- A word of an instruction's kind matches a row of that kind. -/
theorem hasRow_kindOf {w : Word} (hk : kindOf w ≠ .unknown) : HasRow w (kindOf w) := by
  have known : opcodeOf w ∈ opcodes := by
    contrapose! hk
    exact kindOf_of_opcode_unknown hk
  rcases mem_opcodes_iff.mp known with h | h | h | h | h | h | h | h | h | h
  · rw [kindOf_of_opcode_lui h]
    exact hasRow_of_opcode (h ▸ by decide)
  · rw [kindOf_of_opcode_auipc h]
    exact hasRow_of_opcode (h ▸ by decide)
  · rw [kindOf_of_opcode_jal h]
    exact hasRow_of_opcode (h ▸ by decide)
  · rw [kindOf_of_opcode_jalr h] at hk ⊢
    have f3 : funct3Of w = 0b000#3 := by simpa using hk
    rw [if_pos f3]
    exact hasRow_of_funct3 (h ▸ f3 ▸ by decide)
  · rw [kindOf_of_opcode_branch h] at hk ⊢
    exact hasRow_of_funct3 (h ▸ branchKind_row _ hk)
  · rw [kindOf_of_opcode_load h] at hk ⊢
    exact hasRow_of_funct3 (h ▸ loadKind_row _ hk)
  · rw [kindOf_of_opcode_store h] at hk ⊢
    exact hasRow_of_funct3 (h ▸ storeKind_row _ hk)
  · rw [kindOf_of_opcode_opImm h] at hk ⊢
    by_cases shift : funct3Of w ∈ shiftFunct3s
    · exact hasRow_of_funct7 (h ▸ opImmKind_shift_row shift hk)
    · rw [opImmKind_of_not_shift _ shift]
      exact hasRow_of_funct3 (h ▸ opImmKind_row _ shift)
  · rw [kindOf_of_opcode_op h] at hk ⊢
    exact hasRow_of_funct7 (h ▸ opKind_row hk)
  · rw [kindOf_of_opcode_system h] at hk ⊢
    have ecall : w = 0x00000073#32 := by simpa using hk
    subst ecall
    exact ⟨⟨.ecall, 0x00000073#32, 0xFFFFFFFF#32⟩, by decide, rfl, rfl⟩

section Rows
variable {r : Row} (hr : r ∈ decodeTable)
include hr

theorem Row.kindOf_bits : kindOf r.bits = r.kind := by
  revert r; decide

theorem Row.kind_ne_unknown : r.kind ≠ .unknown := by
  revert r; decide

/-- Every row checks the opcode (R103). -/
theorem Row.opcodeOf_mask : opcodeOf r.mask = BitVec.allOnes 7 := by
  revert r; decide

theorem Row.funct3Of_mask (h : opcodeOf r.bits ∉ [0b0110111#7, 0b0010111#7, 0b1101111#7]) : funct3Of r.mask = BitVec.allOnes 3 := by
  revert r; decide

theorem Row.funct7Of_mask (h : opcodeOf r.bits = 0b0110011#7 ∨ opcodeOf r.bits = 0b0010011#7 ∧ funct3Of r.bits ∈ shiftFunct3s) :
    funct7Of r.mask = BitVec.allOnes 7 := by
  revert r; decide

theorem Row.mask_of_system (h : opcodeOf r.bits = 0b1110011#7) : r.mask = BitVec.allOnes 32 := by
  revert r; decide

/-- A word has the kind of the row it matches. -/
theorem Row.kindOf_of_matches {w : Word} (h : r.matches w = true) : kindOf w = r.kind := by
  have congr : kindOf w = kindOf r.bits := by
    refine kindOf_congr ?_ (fun op => ?_) (fun long => ?_) (fun op => ?_)
    · exact extractLsb'_of_matches h (Row.opcodeOf_mask hr)
    · exact extractLsb'_of_matches h (Row.funct3Of_mask hr op)
    · exact extractLsb'_of_matches h (Row.funct7Of_mask hr long)
    · rw [← beq_iff_eq.mp h, Row.mask_of_system hr op, BitVec.and_allOnes]
  rw [congr, Row.kindOf_bits hr]

end Rows

/-- Two rows differ in a bit that both check, so no word matches both. -/
theorem decodeTable_disjoint : decodeTable.Pairwise (fun r q => ∀ w : Word, ¬ (r.matches w = true ∧ q.matches w = true)) := by
  have differ : decodeTable.Pairwise fun r q => r.bits &&& q.mask ≠ q.bits &&& r.mask := by decide
  refine differ.imp fun {r q} ne w => ?_
  rintro ⟨hr, hq⟩
  apply ne
  rw [← beq_iff_eq.mp hr, ← beq_iff_eq.mp hq, BitVec.and_assoc, BitVec.and_assoc, BitVec.and_comm r.mask]

theorem decode_ok_of_kindOf {w : Word} (h : kindOf w ≠ .unknown) : ∃ i : Instr, decode w = .ok i ∧ i.kind = kindOf w := by
  cases hd : decode w with
  | ok i => exact ⟨i, rfl, kind_of_decode w i hd⟩
  | error e => exact absurd ((decode_error_iff w e).mp hd).1 h

theorem decode_error_iff_kindOf {w : Word} : (∃ e : Reject, decode w = .error e) ↔ kindOf w = .unknown := by
  simp [decode_error_iff]

/-- Settles O9: a matched row gives the word its kind, and a word of a known kind matches a row. -/
theorem decodeFollowsTable : Obligations.DecodeFollowsTable := by
  refine ⟨rfl, decodeTable_disjoint, fun w r hr hm => ?_, fun w none => ?_⟩
  · have kind := Row.kindOf_of_matches hr hm
    exact kind ▸ decode_ok_of_kindOf (kind.trans_ne (Row.kind_ne_unknown hr))
  · have unknown : kindOf w = .unknown := by
      by_contra known
      obtain ⟨r, hr, -, hm⟩ := hasRow_kindOf known
      simp [none r hr] at hm
    exact ⟨unknown, decode_error_iff_kindOf.mpr unknown⟩

/-- A word of a known kind has the bits its kind's rows name in every field they check whole. -/
theorem extractLsb'_of_kindOf {w : Word} {k : Kind} {lo n : Nat} {x : BitVec n} (hk : kindOf w = k)
    (rows : k ≠ .unknown ∧ ∀ r ∈ decodeTable, r.kind = k → r.mask.extractLsb' lo n = BitVec.allOnes n ∧ r.bits.extractLsb' lo n = x) :
    w.extractLsb' lo n = x := by
  obtain ⟨known, fixed⟩ := rows
  obtain ⟨r, hr, hrk, hm⟩ := hasRow_kindOf (hk.trans_ne known)
  obtain ⟨mask, bits⟩ := fixed r hr (hrk.trans hk)
  rw [extractLsb'_of_matches hm mask, bits]

theorem eq_of_kindOf_ecall {w : Word} (h : kindOf w = .ecall) : w = 0x00000073#32 := by
  have whole : w.extractLsb' 0 32 = 0x00000073#32 := extractLsb'_of_kindOf h (by decide)
  rwa [BitVec.extractLsb'_eq_self] at whole

/-! ### What a word decodes to: its kind and its fields (R82, R84 to R89) -/

theorem operandsFrom_of_decode {w : Word} {i : Instr} (h : decode w = .ok i) : OperandsFrom w i := by
  have kind := kind_of_decode w i h
  unfold decode at h
  split at h <;> cases h
  case h_1 | h_2 | h_3 => exact ⟨rfl, rfl⟩
  case h_46 => exact eq_of_kindOf_ecall kind.symm
  all_goals exact ⟨rfl, rfl, rfl⟩

/-- A word decodes to the instruction of its kind whose operands are the word's fields, and to no other. -/
theorem decode_eq_ok_iff {w : Word} {i : Instr} : decode w = .ok i ↔ kindOf w = i.kind ∧ OperandsFrom w i := by
  refine ⟨fun h => ⟨(kind_of_decode w i h).symm, operandsFrom_of_decode h⟩, fun ⟨hk, ho⟩ => ?_⟩
  cases i with
  | ecall => simp only [decode, hk, Instr.kind]
  | lui | auipc | jal =>
    obtain ⟨rfl, rfl⟩ := ho
    simp only [decode, hk, Instr.kind]
  | _ =>
    obtain ⟨rfl, rfl, rfl⟩ := ho
    simp only [decode, hk, Instr.kind]

/-- Settles O8: the bits and ranges of the five immediates, and the operands of a decoded instruction. -/
theorem immediateBitsAndRanges : Obligations.ImmediateBitsAndRanges := by
  refine ⟨fun w _ => getLsbD_immI w, fun w _ => getLsbD_immS w, fun w _ => getLsbD_immB w, fun w _ => getLsbD_immU w,
    fun w _ => getLsbD_immJ w, fun w => (fitsI_iff _).mp (fitsI_immI w), fun w => (fitsI_iff _).mp (fitsI_immS w),
    fun w => (fitsB_iff _).mp (fitsB_immB w), fun w => ?_, fun w => (fitsJ_iff _).mp (fitsJ_immJ w), fun _ _ => operandsFrom_of_decode⟩
  have aligned := (fitsU_iff _).mp (fitsU_immU w)
  have lo := (immU w).le_toInt
  have hi := (immU w).toInt_lt
  omega

/-! ### The word of an instruction decodes to it (R83, R91) -/

theorem kindOf_encode (i : Instr) : kindOf (encode i) = i.kind := by
  cases i with
  | lui => exact kindOf_lui _ _
  | auipc => exact kindOf_auipc _ _
  | jal => exact kindOf_jal _ _
  | jalr => exact kindOf_jalr _ _ _
  | beq | bne | blt | bge | bltu | bgeu => exact kindOf_branch _ _ _ _
  | lb | lh | lw | lbu | lhu => exact kindOf_load _ _ _ _
  | sb | sh | sw => exact kindOf_store _ _ _ _
  | addi rd rs1 imm | slti rd rs1 imm | sltiu rd rs1 imm | xori rd rs1 imm | ori rd rs1 imm | andi rd rs1 imm =>
    exact kindOf_opImm imm rs1 _ rd
  | slli | srli | srai => exact kindOf_shift _ _ _ _ _
  | ecall => rfl
  | _ => exact kindOf_op _ _ _ _ _

theorem operandsFrom_encode {i : Instr} (h : i.wf = true) : OperandsFrom (encode i) i := by
  cases i with
  | lui | auipc => exact ⟨(rdOf_packU ..).symm, (immU_packU _ _ _ h).symm⟩
  | jal => exact ⟨(rdOf_packJ ..).symm, (immJ_packJ _ _ _ h).symm⟩
  | beq | bne | blt | bge | bltu | bgeu => exact ⟨(rs1Of_packB ..).symm, (rs2Of_packB ..).symm, (immB_packB _ _ _ _ _ h).symm⟩
  | sb | sh | sw => exact ⟨(rs1Of_packS ..).symm, (rs2Of_packS ..).symm, (immS_packS _ _ _ _ _ h).symm⟩
  | jalr | lb | lh | lw | lbu | lhu | addi | slti | sltiu | xori | ori | andi =>
    exact ⟨(rdOf_packI ..).symm, (rs1Of_packI ..).symm, (immI_packI _ _ _ _ _ h).symm⟩
  | slli | srli | srai => exact ⟨(rdOf_packShift ..).symm, (rs1Of_packShift ..).symm, (shamtOf_packShift ..).symm⟩
  | ecall => rfl
  | _ => exact ⟨(rdOf_packR ..).symm, (rs1Of_packR ..).symm, (rs2Of_packR ..).symm⟩

/-- Settles O5: the encoding has the instruction's kind and gives every operand back. -/
theorem decodeOfEncodeIsInstruction : Obligations.DecodeOfEncodeIsInstruction :=
  fun i h => decode_eq_ok_iff.mpr ⟨kindOf_encode i, operandsFrom_encode h⟩

/-! ### A word is the encoding of what it decodes to (R82 to R89, R103) -/

theorem wf_of_operandsFrom {w : Word} {i : Instr} (h : OperandsFrom w i) : i.wf = true := by
  cases i with
  | lui | auipc => obtain ⟨-, rfl⟩ := h; exact fitsU_immU w
  | jal => obtain ⟨-, rfl⟩ := h; exact fitsJ_immJ w
  | beq | bne | blt | bge | bltu | bgeu => obtain ⟨-, -, rfl⟩ := h; exact fitsB_immB w
  | sb | sh | sw => obtain ⟨-, -, rfl⟩ := h; exact fitsI_immS w
  | jalr | lb | lh | lw | lbu | lhu | addi | slti | sltiu | xori | ori | andi => obtain ⟨-, -, rfl⟩ := h; exact fitsI_immI w
  | _ => rfl

@[simp] theorem regBits_toFin (x : BitVec 5) : regBits x.toFin = x := rfl

section Repack
variable {w : Word} {f7 : BitVec 7} {f3 : BitVec 3} {op : BitVec 7} (hop : opcodeOf w = op)
include hop

theorem packR_fields (hf3 : funct3Of w = f3) (hf7 : funct7Of w = f7) : packR f7 (rs2Of w) (rs1Of w) f3 (rdOf w) op = w := by
  subst hop hf3 hf7
  apply BitVec.eq_of_getLsbD_eq
  intro k hk
  simp only [packR, opcodeOf, rdOf, funct3Of, rs1Of, rs2Of, funct7Of, regBits_toFin, BitVec.getLsbD_append, BitVec.getLsbD_extractLsb']
  interval_cases k <;> simp

theorem packShift_fields (hf3 : funct3Of w = f3) (hf7 : funct7Of w = f7) : packShift f7 (shamtOf w) (rs1Of w) f3 (rdOf w) op = w :=
  packR_fields hop hf3 hf7

theorem packI_fields (hf3 : funct3Of w = f3) : packI (immI w) (rs1Of w) f3 (rdOf w) op = w := by
  subst hop hf3
  apply BitVec.eq_of_getLsbD_eq
  intro k hk
  simp only [packI, opcodeOf, rdOf, funct3Of, rs1Of, regBits_toFin, BitVec.getLsbD_append, BitVec.getLsbD_extractLsb']
  interval_cases k <;> simp [-BitVec.getLsbD_eq_getElem, getLsbD_immI]

theorem packS_fields (hf3 : funct3Of w = f3) : packS (immS w) (rs2Of w) (rs1Of w) f3 op = w := by
  subst hop hf3
  apply BitVec.eq_of_getLsbD_eq
  intro k hk
  simp only [packS, opcodeOf, funct3Of, rs1Of, rs2Of, regBits_toFin, BitVec.getLsbD_append, BitVec.getLsbD_extractLsb']
  interval_cases k <;> simp [-BitVec.getLsbD_eq_getElem, getLsbD_immS]

theorem packB_fields (hf3 : funct3Of w = f3) : packB (immB w) (rs2Of w) (rs1Of w) f3 op = w := by
  subst hop hf3
  apply BitVec.eq_of_getLsbD_eq
  intro k hk
  simp only [packB, opcodeOf, funct3Of, rs1Of, rs2Of, regBits_toFin, BitVec.getLsbD_append, BitVec.getLsbD_extractLsb']
  interval_cases k <;> simp [-BitVec.getLsbD_eq_getElem, getLsbD_immB]

theorem packU_fields : packU (immU w) (rdOf w) op = w := by
  subst hop
  apply BitVec.eq_of_getLsbD_eq
  intro k hk
  simp only [packU, opcodeOf, rdOf, regBits_toFin, BitVec.getLsbD_append, BitVec.getLsbD_extractLsb']
  interval_cases k <;> simp [-BitVec.getLsbD_eq_getElem, getLsbD_immU]

theorem packJ_fields : packJ (immJ w) (rdOf w) op = w := by
  subst hop
  apply BitVec.eq_of_getLsbD_eq
  intro k hk
  simp only [packJ, opcodeOf, rdOf, regBits_toFin, BitVec.getLsbD_append, BitVec.getLsbD_extractLsb']
  interval_cases k <;> simp [-BitVec.getLsbD_eq_getElem, getLsbD_immJ]

end Repack

/-- A word is the encoding of the instruction of its kind whose operands are the word's fields: the kind fixes the checked fields. -/
theorem encode_eq_of_kindOf {w : Word} {i : Instr} (hk : kindOf w = i.kind) (ho : OperandsFrom w i) : encode i = w := by
  cases i with
  | lui | auipc =>
    obtain ⟨rfl, rfl⟩ := ho
    dsimp only [Instr.kind] at hk
    exact packU_fields (extractLsb'_of_kindOf hk (by decide))
  | jal =>
    obtain ⟨rfl, rfl⟩ := ho
    dsimp only [Instr.kind] at hk
    exact packJ_fields (extractLsb'_of_kindOf hk (by decide))
  | beq | bne | blt | bge | bltu | bgeu =>
    obtain ⟨rfl, rfl, rfl⟩ := ho
    dsimp only [Instr.kind] at hk
    exact packB_fields (extractLsb'_of_kindOf hk (by decide)) (extractLsb'_of_kindOf hk (by decide))
  | sb | sh | sw =>
    obtain ⟨rfl, rfl, rfl⟩ := ho
    dsimp only [Instr.kind] at hk
    exact packS_fields (extractLsb'_of_kindOf hk (by decide)) (extractLsb'_of_kindOf hk (by decide))
  | jalr | lb | lh | lw | lbu | lhu | addi | slti | sltiu | xori | ori | andi =>
    obtain ⟨rfl, rfl, rfl⟩ := ho
    dsimp only [Instr.kind] at hk
    exact packI_fields (extractLsb'_of_kindOf hk (by decide)) (extractLsb'_of_kindOf hk (by decide))
  | slli | srli | srai =>
    obtain ⟨rfl, rfl, rfl⟩ := ho
    dsimp only [Instr.kind] at hk
    exact packShift_fields (extractLsb'_of_kindOf hk (by decide)) (extractLsb'_of_kindOf hk (by decide))
      (extractLsb'_of_kindOf hk (by decide))
  | ecall => exact ho.symm
  | _ =>
    obtain ⟨rfl, rfl, rfl⟩ := ho
    dsimp only [Instr.kind] at hk
    exact packR_fields (extractLsb'_of_kindOf hk (by decide)) (extractLsb'_of_kindOf hk (by decide))
      (extractLsb'_of_kindOf hk (by decide))

/-- Settles O6: kind and operands make the instruction well formed and put every bit of the word back. -/
theorem encodeOfDecodeIsWord : Obligations.EncodeOfDecodeIsWord := by
  intro w i h
  obtain ⟨hk, ho⟩ := decode_eq_ok_iff.mp h
  exact ⟨wf_of_operandsFrom ho, encode_eq_of_kindOf hk ho⟩

/-! ### The unknown words (R104, R316) -/

section Disassembler
open Machine

theorem asmBz_ne_unknown (m zr zl : String) (rs1 rs2 : Reg) (t : Word) : asmBz m zr zl rs1 rs2 t ≠ .unknown := by
  unfold asmBz
  split_ifs <;> exact AsmLine.noConfusion

/-- The unknown marker is the line of no instruction. -/
theorem asmOf_ne_unknown (addr : Word) (i : Instr) : asmOf addr i ≠ .unknown := by
  cases i with
  | beq | bne | blt | bge => exact asmBz_ne_unknown _ _ _ _ _ _
  | jal | jalr | addi | xori | andi | sub =>
    rw [asmOf]
    split_ifs <;> exact AsmLine.noConfusion
  | _ => exact AsmLine.noConfusion

theorem disassemble_eq_unknown_iff (addr w : Word) : disassemble addr w = .unknown ↔ ∃ e : Reject, decode w = .error e := by
  unfold disassemble
  cases decode w with
  | ok i => simp [asmOf_ne_unknown]
  | error e => simp

end Disassembler

/-- Settles O10: opcode by opcode the kind `UNKNOWN` is the class R104 names, and no instruction's line is the marker. -/
theorem unknownWordsExactly : Obligations.UnknownWordsExactly := by
  intro w addr
  refine ⟨?_, disassemble_eq_unknown_iff addr w⟩
  rw [decode_error_iff_kindOf, ← opcodes, ← opcodeOf, ← funct3Of, ← funct7Of]
  by_cases known : opcodeOf w ∈ opcodes
  · have branch : ∀ f3 : BitVec 3, branchKind f3 = .unknown ↔ f3 ∈ [0b010#3, 0b011#3] := by decide
    have load : ∀ f3 : BitVec 3, loadKind f3 = .unknown ↔ f3 ∈ [0b011#3, 0b110#3, 0b111#3] := by decide
    have store : ∀ f3 : BitVec 3, storeKind f3 = .unknown ↔ 3 ≤ f3.toNat := by decide
    rcases mem_opcodes_iff.mp known with h | h | h | h | h | h | h | h | h | h <;> rw [h]
    · simp [kindOf_of_opcode_lui h, opcodes]
    · simp [kindOf_of_opcode_auipc h, opcodes]
    · simp [kindOf_of_opcode_jal h, opcodes]
    · simp [kindOf_of_opcode_jalr h, opcodes]
    · simp [kindOf_of_opcode_branch h, opcodes, branch]
    · simp [kindOf_of_opcode_load h, opcodes, load]
    · simp [kindOf_of_opcode_store h, opcodes, store]
    · simp [kindOf_of_opcode_opImm h, opcodes, opImmKind_eq_unknown_iff]
    · simp [kindOf_of_opcode_op h, opcodes, opKind_eq_unknown_iff]
    · simp [kindOf_of_opcode_system h, opcodes]
  · exact iff_of_true (kindOf_of_opcode_unknown known) (.inl known)

/-- Settles O4: the decoder computes on the seventeen words. -/
theorem decodeSpecExampleWords : Obligations.DecodeSpecExampleWords := by
  unfold Obligations.DecodeSpecExampleWords
  decide

end Sys2Proof

/-! SUPPORT. Family `40_step_cycle.md`: the step by the word it fetches (R121 to R127), the counted no-op (R129), the steps that do not
complete (R120, R132). -/

namespace Sys2Proof.Machine

/-! ### The step by the word it fetches (R121 to R127, R129) -/

/-- The first four bytes of a byte string decode as the word they make, and the others are left. -/
theorem decodeBytes_cons_eq_ok_iff (b0 b1 b2 b3 : Byte) (rest : List Byte) (i : Instr) :
    decodeBytes (b0 :: b1 :: b2 :: b3 :: rest) = .ok (i, rest) ↔ decode (wordOfBytes b0 b1 b2 b3) = .ok i := by
  cases h : decode (wordOfBytes b0 b1 b2 b3) <;> simp [decodeBytes, h]

theorem Fetches.step_of_decode {s : State} {w : Word} {i : Instr} (hw : Fetches s w) (hd : decode w = .ok i) : step s = exec i s :=
  have ⟨hr, hf⟩ := (fetches_iff s w).mp hw
  Machine.step_of_decode hr hf hd

theorem Fetches.step_of_decode_error {s : State} {w : Word} {e : Reject} (hw : Fetches s w) (hd : decode w = .error e) :
    step s = execUnknown s :=
  have ⟨hr, hf⟩ := (fetches_iff s w).mp hw
  Machine.step_of_decode_error hr hf hd

/-- Settles O11: the four bytes at the `pc` are the word that the step fetches. -/
theorem stepRunsDecodedInstruction : Obligations.StepRunsDecodedInstruction := by
  constructor
  · intro s i rest hr hal hm hb
    have hw : Fetches s _ := ⟨hr, hal, hm, rfl⟩
    exact hw.step_of_decode ((decodeBytes_cons_eq_ok_iff _ _ _ _ rest i).mp hb)
  · exact fun _ _ _ => Fetches.step_of_decode

/-! ### The counted no-op (R129) -/

theorem nextSeq_toNat (pc : Word) : (nextSeq pc).toNat = (pc.toNat + 4) % 2 ^ 32 := BitVec.toNat_add pc 4#32

theorem State.advances_commitSeq (s : State) : Advances s s.commitSeq := ⟨nextSeq_toNat s.pc, rfl⟩

theorem State.sameRegs_commit (s : State) (next : Word) : SameRegs s (s.commit next) :=
  ⟨s.reg_commit_zero next, s.reg_commit_ne next⟩

/-- Settles O13: the next state is the commit of the old one with the unknown word counted. -/
theorem unknownIsCountedNoOp : Obligations.UnknownIsCountedNoOp := by
  intro s w e hw hd
  obtain ⟨hrun, -⟩ := (fetches_iff s w).mp hw
  exact ⟨State.commitSeq { s with nUnknown := s.nUnknown + 1 }, hw.step_of_decode_error hd, rfl, State.advances_commitSeq _,
    State.sameRegs_commit _ _, State.byteAt_commitSeq _, rfl, hrun, rfl, rfl, rfl, rfl, rfl, rfl⟩

/-! ### Steps that do not complete (R120, R132) -/

/-- No answer comes exactly where no character is left and the collaborator never answers (U15). -/
theorem State.getCharAnswers_eq_false_iff (s : State) :
    s.getCharAnswers = false ↔ s.input.length ≤ s.inputPos ∧ s.inputTail = .silent := by
  rw [← Bool.not_eq_true, State.getCharAnswers_iff, not_or, Nat.not_lt]
  cases s.inputTail <;> simp

theorem decode_eq_ok_ecall_iff (w : Word) : decode w = .ok .ecall ↔ w = 0x00000073#32 :=
  ⟨fun h => operandsFrom_of_decode h, fun h => h ▸ rfl⟩

/-- An instruction refuses exactly when it is an ECALL that reads a character and gets no answer. -/
theorem exec_eq_refused_iff {i : Instr} {s : State} {r : Refusal} : exec i s = .refused r ↔
    i = .ecall ∧ s.reg regA7 = 1#32 ∧ s.getCharAnswers = false ∧ r = .awaitingInput := by
  refine ⟨exec_refused, ?_⟩
  rintro ⟨rfl, h1, hr⟩
  have he : exec .ecall s = ecallGetChar s := if_pos h1
  exact he.trans (ecallGetChar_refused.mpr hr)

/-- A step refuses exactly when the core is halted or the instruction it fetches refuses. -/
theorem step_eq_refused_iff {s : State} {r : Refusal} : step s = .refused r ↔
    (s.runState = .halted ∧ r = .coreHalted) ∨ ∃ w i, Fetches s w ∧ decode w = .ok i ∧ exec i s = .refused r := by
  constructor
  · intro h
    unfold step at h
    split at h
    · next hr => exact .inl ⟨hr, (Host.Outcome.refused.inj h).symm⟩
    · next hr =>
      split at h
      · cases h
      · next w hf =>
        split at h
        · next i hd => exact .inr ⟨w, i, (fetches_iff s w).mpr ⟨hr, hf⟩, hd, h⟩
        · cases h
  · rintro (⟨hr, rfl⟩ | ⟨w, i, hw, hd, h⟩)
    · simp only [step, hr]
    · exact (hw.step_of_decode hd).trans h

/-- Settles O16: the only word whose instruction refuses is ECALL's, under service 1 and without an answer. -/
theorem refusesExactlyWhenHaltedOrWaiting : Obligations.RefusesExactlyWhenHaltedOrWaiting := by
  intro s r
  rw [step_eq_refused_iff]
  refine or_congr_right ⟨?_, ?_⟩
  · rintro ⟨w, i, hw, hd, h⟩
    obtain ⟨rfl, h1, ha, hr⟩ := exec_eq_refused_iff.mp h
    obtain ⟨hin, htail⟩ := s.getCharAnswers_eq_false_iff.mp ha
    obtain rfl := (decode_eq_ok_ecall_iff w).mp hd
    exact ⟨hw, h1, hin, htail, hr⟩
  · rintro ⟨hw, h1, hin, htail, hr⟩
    have ha := s.getCharAnswers_eq_false_iff.mpr ⟨hin, htail⟩
    exact ⟨_, .ecall, hw, (decode_eq_ok_ecall_iff _).mpr rfl, exec_eq_refused_iff.mpr ⟨rfl, h1, ha, hr⟩⟩

end Sys2Proof.Machine

/-! SUPPORT. Family `41_alu_register.md`: the words of format R, an instruction that ends in the write of one register (R13, R140), and the
arithmetic readings of the register-register ALU's results (R141 to R150). -/

namespace Sys2Proof.Machine

/-! ### The words of format R (R83) -/

/-- Where the encoder packs an instruction in format R, every word of the pattern decodes to it. -/
theorem patternR_of_encode {f7 : BitVec 7} {f3 : BitVec 3} {mk : Reg → Reg → Reg → Instr}
    (h : ∀ rd rs1 rs2, (mk rd rs1 rs2).wf = true ∧ encode (mk rd rs1 rs2) = packR f7 rs2 rs1 f3 rd 0b0110011#7) :
    PatternR f7 f3 mk := by
  intro rs2 rs1 rd
  obtain ⟨wf, word⟩ := h rd.toFin rs1.toFin rs2.toFin
  exact (congrArg decode word).symm.trans (decodeOfEncodeIsInstruction _ wf)

/-! ### The write of one register (R13, R127, R140) -/

/-- The write and the commit leave every register but the destination. -/
theorem State.sameRegsBut_setReg_commit (s : State) (rd : Reg) (v next : Word) : SameRegsBut rd s ((s.setReg rd v).commit next) :=
  ⟨State.reg_commit_zero _ next, fun r h0 hr => (State.reg_commit_ne _ next r h0).trans (s.reg_setReg_ne rd r v hr)⟩

/-- An instruction that ends in the write of one register changes nothing else. -/
theorem writesOnly_of_finishReg {i : Instr} {rd : Reg} {v : State → Word} (he : ∀ s, exec i s = finishReg s rd (v s)) :
    WritesOnly i rd v := by
  intro s
  have written : rd ≠ 0 → (s.setReg rd (v s)).commitSeq.reg rd = v s := fun h0 =>
    (State.reg_commit_ne _ _ rd h0).trans (s.reg_setReg_same rd (v s))
  exact ⟨_, he s, written, s.sameRegsBut_setReg_commit rd (v s) _, State.advances_commitSeq (s.setReg rd (v s)), fun _ => rfl, rfl,
    ⟨rfl, rfl, rfl, rfl, rfl, rfl, rfl, rfl⟩⟩

/-- The written value may be read in any way that is equal to it. -/
theorem writesOnly_of_value_eq {i : Instr} {rd : Reg} {u v : State → Word} (hv : ∀ s, u s = v s)
    (he : ∀ s, exec i s = finishReg s rd (u s)) : WritesOnly i rd v :=
  funext hv ▸ writesOnly_of_finishReg he

/-! ### Sum and difference (R141, R142) -/

theorem sub_eq_ofInt (a b : Word) : a - b = BitVec.ofInt 32 ((a.toNat : Int) - (b.toNat : Int)) := by
  apply BitVec.eq_of_toNat_eq
  rw [BitVec.toNat_sub, BitVec.toNat_ofInt]
  omega

/-- Settles O25: both end in the write of `rd`, whose value is the sum or difference modulo 2^32. -/
theorem addSubResults : Obligations.AddSubResults := by
  refine ⟨patternR_of_encode fun _ _ _ => ⟨rfl, rfl⟩, patternR_of_encode fun _ _ _ => ⟨rfl, rfl⟩,
    fun rd rs1 rs2 => ⟨?add, ?sub⟩⟩
  case add => exact writesOnly_of_value_eq (fun s => BitVec.add_def (s.reg rs1) (s.reg rs2)) fun _ => rfl
  case sub => exact writesOnly_of_value_eq (fun s => sub_eq_ofInt (s.reg rs1) (s.reg rs2)) fun _ => rfl

/-! ### Bitwise operations (R146, R149, R150) -/

/-- Settles O26: the written words are the exclusive or, or, and of the operands. -/
theorem bitwiseResults : Obligations.BitwiseResults := by
  refine ⟨patternR_of_encode fun _ _ _ => ⟨rfl, rfl⟩, patternR_of_encode fun _ _ _ => ⟨rfl, rfl⟩,
    patternR_of_encode fun _ _ _ => ⟨rfl, rfl⟩, fun rd rs1 rs2 =>
    ⟨fun s => s.reg rs1 ^^^ s.reg rs2, fun s => s.reg rs1 ||| s.reg rs2, fun s => s.reg rs1 &&& s.reg rs2, ?xor, ?or, ?and, ?bits⟩⟩
  case xor | or | and => exact writesOnly_of_finishReg fun _ => rfl
  case bits => exact fun _ _ _ => ⟨BitVec.getLsbD_xor, BitVec.getLsbD_or, BitVec.getLsbD_and⟩

/-! ### Comparisons (R144, R145) -/

theorem boolWord_condLtSigned (a b : Word) :
    boolWord (condLtSigned a b) = if a.toInt < b.toInt then 0x00000001#32 else 0x00000000#32 := by
  simp only [boolWord, condLtSigned, decide_eq_true_eq]

theorem boolWord_condLtUnsigned (a b : Word) :
    boolWord (condLtUnsigned a b) = if a.toNat < b.toNat then 0x00000001#32 else 0x00000000#32 := by
  simp only [boolWord, condLtUnsigned, decide_eq_true_eq]

/-- Settles O27: both end in the write of `rd`, whose value is the comparison's as a word. -/
theorem setLessThanResults : Obligations.SetLessThanResults := by
  refine ⟨patternR_of_encode fun _ _ _ => ⟨rfl, rfl⟩, patternR_of_encode fun _ _ _ => ⟨rfl, rfl⟩,
    fun rd rs1 rs2 => ⟨?slt, ?sltu⟩⟩
  case slt => exact writesOnly_of_value_eq (fun s => boolWord_condLtSigned (s.reg rs1) (s.reg rs2)) fun _ => rfl
  case sltu => exact writesOnly_of_value_eq (fun s => boolWord_condLtUnsigned (s.reg rs1) (s.reg rs2)) fun _ => rfl

/-! ### Shifts (R143, R147, R148) -/

section Shifts
variable (a b : Word) (n : Nat)

theorem shiftAmount_eq_mod : shiftAmount b = b.toNat % 32 := by
  simp [shiftAmount]

theorem shiftLeft_eq_ofNat : shiftLeft a n = BitVec.ofNat 32 (a.toNat * 2 ^ n) := by
  apply BitVec.eq_of_toNat_eq
  rw [shiftLeft, BitVec.toNat_shiftLeft, Nat.shiftLeft_eq, BitVec.toNat_ofNat]

theorem shiftRightLogical_eq_ofNat : shiftRightLogical a n = BitVec.ofNat 32 (a.toNat / 2 ^ n) := by
  have shifted : (shiftRightLogical a n).toNat = a.toNat / 2 ^ n := by
    rw [shiftRightLogical, BitVec.toNat_ushiftRight, Nat.shiftRight_eq_div_pow]
  rw [← shifted, BitVec.ofNat_toNat, BitVec.setWidth_eq]

theorem shiftRightArith_eq_ofInt : shiftRightArith a n = BitVec.ofInt 32 (a.toInt / 2 ^ n) := by
  rw [shiftRightArith, BitVec.sshiftRight, Int.shiftRight_eq_div_pow, Nat.cast_pow, Nat.cast_ofNat]

theorem shiftLeft_shiftAmount : shiftLeft a (shiftAmount b) = BitVec.ofNat 32 (a.toNat * 2 ^ (b.toNat % 32)) := by
  rw [shiftLeft_eq_ofNat, shiftAmount_eq_mod]

theorem shiftRightLogical_shiftAmount :
    shiftRightLogical a (shiftAmount b) = BitVec.ofNat 32 (a.toNat / 2 ^ (b.toNat % 32)) := by
  rw [shiftRightLogical_eq_ofNat, shiftAmount_eq_mod]

theorem shiftRightArith_shiftAmount : shiftRightArith a (shiftAmount b) = BitVec.ofInt 32 (a.toInt / 2 ^ (b.toNat % 32)) := by
  rw [shiftRightArith_eq_ofInt, shiftAmount_eq_mod]

end Shifts

/-- Settles O28: all three end in the write of `rd`, by the amount `x[rs2]` modulo 32. -/
theorem registerShiftResults : Obligations.RegisterShiftResults := by
  refine ⟨patternR_of_encode fun _ _ _ => ⟨rfl, rfl⟩, patternR_of_encode fun _ _ _ => ⟨rfl, rfl⟩,
    patternR_of_encode fun _ _ _ => ⟨rfl, rfl⟩, fun rd rs1 rs2 => ⟨?sll, ?srl, ?sra⟩⟩
  case sll => exact writesOnly_of_value_eq (fun s => shiftLeft_shiftAmount (s.reg rs1) (s.reg rs2)) fun _ => rfl
  case srl => exact writesOnly_of_value_eq (fun s => shiftRightLogical_shiftAmount (s.reg rs1) (s.reg rs2)) fun _ => rfl
  case sra => exact writesOnly_of_value_eq (fun s => shiftRightArith_shiftAmount (s.reg rs1) (s.reg rs2)) fun _ => rfl

end Sys2Proof.Machine

/-! SUPPORT. Family `42_alu_immediate.md`: the words of format I and of its shift form (R83, R84, R89), the words of SLLI's `funct3` that
are no SLLI (R104), and the arithmetic readings of the register-immediate ALU's results (R160 to R169). -/

namespace Sys2Proof.Machine

/-! ### The words of format I (R83, R84) -/

theorem fitsI_signExtend_twelve (imm : BitVec 12) : fitsI (imm.signExtend 32) = true := by
  have bounds : -2048 ≤ (imm.signExtend 32).toInt ∧ (imm.signExtend 32).toInt < 2048 := toInt_signExtend_bounds imm (by decide)
  rw [fitsI_iff]
  omega

/-- The low bits of a sign-extended field are the field. -/
theorem extractLsb'_signExtend {n : Nat} (x : BitVec n) (hn : n ≤ 32) : (x.signExtend 32).extractLsb' 0 n = x := by
  apply BitVec.eq_of_getLsbD_eq
  intro k hk
  have below : k < 32 := hk.trans_le hn
  simp [BitVec.getElem_signExtend, hk, below]

/-- Where the encoder packs an instruction in format I, every word of the pattern decodes to it, with the field sign-extended. -/
theorem patternI_of_encode {f3 : BitVec 3} {op : BitVec 7} {mk : Reg → Reg → Word → Instr}
    (h : ∀ rd rs1 v, (mk rd rs1 v).wf = fitsI v ∧ encode (mk rd rs1 v) = packI v rs1 f3 rd op) : PatternI f3 op mk := by
  intro imm rs1 rd
  obtain ⟨wf, word⟩ := h rd.toFin rs1.toFin (imm.signExtend 32)
  rw [packI, extractLsb'_signExtend imm (by decide), regBits_toFin, regBits_toFin] at word
  exact (congrArg decode word).symm.trans (decodeOfEncodeIsInstruction _ (wf.trans (fitsI_signExtend_twelve imm)))

/-! ### The words of the shift form (R89, R104) -/

/-- Where the encoder packs an instruction in the shift form, every word of the pattern decodes to it. -/
theorem patternShift_of_encode {f7 : BitVec 7} {f3 : BitVec 3} {mk : Reg → Reg → BitVec 5 → Instr}
    (h : ∀ rd rs1 sh, (mk rd rs1 sh).wf = true ∧ encode (mk rd rs1 sh) = packShift f7 sh rs1 f3 rd 0b0010011#7) :
    PatternShift f7 f3 mk := by
  intro sh rs1 rd
  obtain ⟨wf, word⟩ := h rd.toFin rs1.toFin sh
  exact (congrArg decode word).symm.trans (decodeOfEncodeIsInstruction _ wf)

theorem rejectOf_of_opcode_opImm {w : Word} (h : opcodeOf w = 0b0010011#7) : rejectOf w = .opImmFunct7 := by
  simp [rejectOf, h]

/-- A word of SLLI's `funct3` with another `funct7` is of the OP-IMM class of R104. -/
theorem decode_packShift_of_not_slli {f7 : BitVec 7} (h : f7 ≠ 0b0000000#7) (sh : BitVec 5) (rs1 rd : Reg) :
    decode (packShift f7 sh rs1 0b001#3 rd 0b0010011#7) = .error .opImmFunct7 := by
  have unknown : opImmKind f7 0b001#3 = .unknown := (opImmKind_eq_unknown_iff f7 0b001#3).mpr (.inl ⟨rfl, h⟩)
  exact (decode_error_iff _ _).mpr ⟨(kindOf_shift f7 sh rs1 0b001#3 rd).trans unknown,
    (rejectOf_of_opcode_opImm (opcodeOf_packShift ..)).symm⟩

/-! ### The results (R161 to R169) -/

theorem add_eq_ofInt (a b : Word) : a + b = BitVec.ofInt 32 (a.toInt + b.toInt) := by
  rw [BitVec.ofInt_add, BitVec.ofInt_toInt, BitVec.ofInt_toInt]

/-- Settles O29: ADDI writes the sum modulo 2^32, the others the exclusive or, or, and with the immediate. -/
theorem immediateArithmeticResults : Obligations.ImmediateArithmeticResults := by
  refine ⟨patternI_of_encode fun _ _ _ => ⟨rfl, rfl⟩, patternI_of_encode fun _ _ _ => ⟨rfl, rfl⟩,
    patternI_of_encode fun _ _ _ => ⟨rfl, rfl⟩, patternI_of_encode fun _ _ _ => ⟨rfl, rfl⟩, fun rd rs1 imm => ⟨?addi,
    fun s => s.reg rs1 ^^^ imm, fun s => s.reg rs1 ||| imm, fun s => s.reg rs1 &&& imm, ?xori, ?ori, ?andi, ?bits⟩⟩
  case addi => exact writesOnly_of_value_eq (fun s => add_eq_ofInt (s.reg rs1) imm) fun _ => rfl
  case xori | ori | andi => exact writesOnly_of_finishReg fun _ => rfl
  case bits => exact fun _ _ _ => ⟨BitVec.getLsbD_xor, BitVec.getLsbD_or, BitVec.getLsbD_and⟩

/-- Settles O30: both end in the write of `rd`, whose value is the comparison with the sign-extended immediate. -/
theorem immediateSetLessThanResults : Obligations.ImmediateSetLessThanResults := by
  refine ⟨patternI_of_encode fun _ _ _ => ⟨rfl, rfl⟩, patternI_of_encode fun _ _ _ => ⟨rfl, rfl⟩,
    fun rd rs1 imm => ⟨?slti, ?sltiu⟩⟩
  case slti => exact writesOnly_of_value_eq (fun s => boolWord_condLtSigned (s.reg rs1) imm) fun _ => rfl
  case sltiu => exact writesOnly_of_value_eq (fun s => boolWord_condLtUnsigned (s.reg rs1) imm) fun _ => rfl

/-- Settles O31: all three end in the write of `rd`, by the amount in the word; no other `funct7` is SLLI's. -/
theorem immediateShiftResults : Obligations.ImmediateShiftResults := by
  refine ⟨patternShift_of_encode fun _ _ _ => ⟨rfl, rfl⟩, patternShift_of_encode fun _ _ _ => ⟨rfl, rfl⟩,
    patternShift_of_encode fun _ _ _ => ⟨rfl, rfl⟩, ?reject, fun rd rs1 shamt => ⟨?slli, ?srli, ?srai⟩⟩
  case reject => exact fun f7 shamt rs1 rd h => decode_packShift_of_not_slli h shamt rs1.toFin rd.toFin
  case slli => exact writesOnly_of_value_eq (fun s => shiftLeft_eq_ofNat (s.reg rs1) shamt.toNat) fun _ => rfl
  case srli => exact writesOnly_of_value_eq (fun s => shiftRightLogical_eq_ofNat (s.reg rs1) shamt.toNat) fun _ => rfl
  case srai => exact writesOnly_of_value_eq (fun s => shiftRightArith_eq_ofInt (s.reg rs1) shamt.toNat) fun _ => rfl

end Sys2Proof.Machine

/-! SUPPORT. Family `43_muldiv.md`: the halves of a product by either reading of the operands (R181 to R184), quotient and remainder by the
magnitudes and signs of the operands (R185 to R188), and the identity that joins them in every case (R189). -/

namespace Sys2Proof.Machine

/-! ### The low half (R181) -/

theorem mulLow_eq_mul (a b : Word) : mulLow a b = a * b := by
  rw [mulLow, BitVec.ofInt_mul, BitVec.ofInt_toInt, BitVec.ofInt_toInt]

theorem mulLow_eq_ofNat (a b : Word) : mulLow a b = BitVec.ofNat 32 (a.toNat * b.toNat) := by
  rw [mulLow_eq_mul, BitVec.ofNat_mul, BitVec.ofNat_toNat, BitVec.ofNat_toNat, BitVec.setWidth_eq, BitVec.setWidth_eq]

/-- Settles O32: MUL ends in the write of `rd`, whose value is the product modulo 2^32 of either reading. -/
theorem multiplyLowResult : Obligations.MultiplyLowResult := by
  refine ⟨patternR_of_encode fun _ _ _ => ⟨rfl, rfl⟩, fun rd rs1 rs2 => ⟨?signed, ?unsigned⟩⟩
  case signed => exact writesOnly_of_finishReg fun _ => rfl
  case unsigned => exact writesOnly_of_value_eq (fun s => mulLow_eq_ofNat (s.reg rs1) (s.reg rs2)) fun _ => rfl

/-! ### The high half (R182 to R184) -/

/-- Bits 63..32 of a product are the product divided by 2^32, rounded down. -/
theorem highHalf_eq_ofInt (p : Int) : highHalf p = BitVec.ofInt 32 (p / 2 ^ 32) := by
  apply BitVec.eq_of_toNat_eq
  rw [highHalf, BitVec.extractLsb'_toNat, BitVec.toNat_ofInt, BitVec.toNat_ofInt, Nat.shiftRight_eq_div_pow]
  omega

theorem mulHighUU_eq_ofNat (a b : Word) : mulHighUU a b = BitVec.ofNat 32 (a.toNat * b.toNat / 2 ^ 32) := by
  rw [mulHighUU, highHalf_eq_ofInt, ← BitVec.ofInt_natCast]
  norm_cast

theorem toInt_bounds (a : Word) : -2 ^ 31 ≤ a.toInt ∧ a.toInt ≤ 2 ^ 31 - 1 := ⟨a.le_toInt, a.toInt_le⟩

/-- Signed by signed: least at the least operand times the greatest, greatest at the square of the least (R182). -/
theorem toInt_mul_toInt_bounds (a b : Word) : -2 ^ 62 + 2 ^ 31 ≤ a.toInt * b.toInt ∧ a.toInt * b.toInt ≤ 2 ^ 62 := by
  obtain ⟨hal, hau⟩ := toInt_bounds a
  obtain ⟨hbl, hbu⟩ := toInt_bounds b
  constructor
  · nlinarith [mul_nonneg (sub_nonneg.mpr hal) (sub_nonneg.mpr hbl), mul_nonneg (sub_nonneg.mpr hau) (sub_nonneg.mpr hbu)]
  · exact BitVec.toInt_mul_toInt_le

/-- Signed by unsigned: both ends at the greatest unsigned operand (R183). -/
theorem toInt_mul_toNat_bounds (a b : Word) :
    -2 ^ 63 + 2 ^ 31 ≤ a.toInt * (b.toNat : Int) ∧ a.toInt * (b.toNat : Int) ≤ 2 ^ 63 - 2 ^ 32 - 2 ^ 31 + 1 := by
  obtain ⟨hal, hau⟩ := toInt_bounds a
  have hb : (0 : Int) ≤ b.toNat := Int.natCast_nonneg _
  have hbu : (b.toNat : Int) < 2 ^ 32 := mod_cast b.isLt
  constructor
  · linarith [mul_le_mul_of_nonneg_right hal hb]
  · linarith [mul_le_mul_of_nonneg_right hau hb]

/-- Settles O33: each ends in the write of `rd`, whose value is the high half of its exact product. -/
theorem multiplyHighResults : Obligations.MultiplyHighResults := by
  refine ⟨patternR_of_encode fun _ _ _ => ⟨rfl, rfl⟩, patternR_of_encode fun _ _ _ => ⟨rfl, rfl⟩,
    patternR_of_encode fun _ _ _ => ⟨rfl, rfl⟩, highHalf_eq_ofInt, fun a b => ?ranges, fun rd rs1 rs2 => ⟨?mulh, ?mulhsu, ?mulhu⟩⟩
  case ranges =>
    obtain ⟨ssl, ssu⟩ := toInt_mul_toInt_bounds a b
    obtain ⟨sul, suu⟩ := toInt_mul_toNat_bounds a b
    have uu : a.toNat * b.toNat < 2 ^ 32 * 2 ^ 32 := Nat.mul_lt_mul'' a.isLt b.isLt
    exact ⟨ssl, ssu, sul, suu, uu⟩
  case mulh | mulhsu => exact writesOnly_of_value_eq (fun _ => highHalf_eq_ofInt _) fun _ => rfl
  case mulhu => exact writesOnly_of_value_eq (fun s => mulHighUU_eq_ofNat (s.reg rs1) (s.reg rs2)) fun _ => rfl

/-! ### Quotient and remainder by magnitudes (R185 to R188) -/

/-- The quotient rounded toward zero is that of the magnitudes, negated where the signs differ. -/
theorem tdiv_eq_ite (a b : Int) :
    a.tdiv b = if (a < 0 ↔ b < 0) then ((a.natAbs / b.natAbs : Nat) : Int) else -((a.natAbs / b.natAbs : Nat) : Int) := by
  cases a with
  | ofNat m =>
    have hm : ¬ Int.ofNat m < 0 := Int.not_lt.mpr (Int.natCast_nonneg m)
    cases b with
    | ofNat n => exact (if_pos (iff_of_false hm (Int.not_lt.mpr (Int.natCast_nonneg n)))).symm
    | negSucc n => exact (if_neg fun h => hm (h.mpr (Int.negSucc_lt_zero n))).symm
  | negSucc m =>
    have hm : Int.negSucc m < 0 := Int.negSucc_lt_zero m
    cases b with
    | ofNat n => exact (if_neg fun h => Int.not_lt.mpr (Int.natCast_nonneg n) (h.mp hm)).symm
    | negSucc n => exact (if_pos (iff_of_true hm (Int.negSucc_lt_zero n))).symm

/-- The remainder is that of the magnitudes, with the dividend's sign. -/
theorem tmod_eq_ite (a b : Int) :
    a.tmod b = if a < 0 then -((a.natAbs % b.natAbs : Nat) : Int) else ((a.natAbs % b.natAbs : Nat) : Int) := by
  rw [← Int.natAbs_tmod]
  split
  · have : a.tmod b ≤ 0 := by
      rw [← neg_nonneg, ← Int.neg_tmod]
      exact Int.tmod_nonneg b (by omega)
    omega
  · have : 0 ≤ a.tmod b := Int.tmod_nonneg b (by omega)
    omega

theorem divOverflow_iff (a b : Word) : divOverflow a b = true ↔ a = 0x80000000#32 ∧ b = 0xFFFFFFFF#32 := by
  simp only [divOverflow, Bool.and_eq_true, beq_iff_eq]

/-- Settles O34: each ends in the write of `rd`; the corners are the model's own cases, the others go by the magnitudes. -/
theorem divideResults : Obligations.DivideResults := by
  refine ⟨patternR_of_encode fun _ _ _ => ⟨rfl, rfl⟩, patternR_of_encode fun _ _ _ => ⟨rfl, rfl⟩,
    patternR_of_encode fun _ _ _ => ⟨rfl, rfl⟩, patternR_of_encode fun _ _ _ => ⟨rfl, rfl⟩,
    fun rd rs1 rs2 => ⟨?div, ?divu, ?rem, ?remu⟩⟩
  case div =>
    refine writesOnly_of_value_eq (u := fun s => divSigned (s.reg rs1) (s.reg rs2)) (fun s => ?_) fun _ => rfl
    simp only [divSigned, divOverflow_iff, tdiv_eq_ite, apply_ite (BitVec.ofInt 32)]
  case rem =>
    refine writesOnly_of_value_eq (u := fun s => remSigned (s.reg rs1) (s.reg rs2)) (fun s => ?_) fun _ => rfl
    simp only [remSigned, divOverflow_iff, ← Int.tmod_def, tmod_eq_ite, apply_ite (BitVec.ofInt 32)]
  case divu | remu => exact writesOnly_of_finishReg fun _ => rfl

/-! ### The identity of quotient and remainder (R187, R189) -/

/-- All three cases of REM are one remainder: by zero it is the dividend, and on overflow nothing is left. -/
theorem remSigned_eq_srem (a b : Word) : remSigned a b = a.srem b := by
  rw [← BitVec.ofInt_toInt (x := a.srem b), BitVec.toInt_srem, remSigned, ← Int.tmod_def]
  split
  · next h0 => rw [h0, BitVec.toInt_zero, Int.tmod_zero, BitVec.ofInt_toInt]
  · split
    · next h =>
      obtain ⟨rfl, rfl⟩ := (divOverflow_iff a b).mp h
      decide
    · rfl

theorem toInt_remSigned (a b : Word) : (remSigned a b).toInt = a.toInt.tmod b.toInt := by
  rw [remSigned_eq_srem, BitVec.toInt_srem]

theorem remUnsigned_eq_umod (a b : Word) : remUnsigned a b = a % b := by
  rw [remUnsigned, ← BitVec.umod_def]
  split
  · next h0 => rw [h0, BitVec.umod_zero]
  · rfl

theorem divSigned_mul_add_remSigned (a b : Word) : divSigned a b * b + remSigned a b = a := by
  unfold divSigned remSigned
  split
  · next h0 => rw [h0, BitVec.mul_zero, BitVec.zero_add]
  · split
    · next h =>
      obtain ⟨rfl, rfl⟩ := (divOverflow_iff a b).mp h
      decide
    · calc BitVec.ofInt 32 (a.toInt.tdiv b.toInt) * b + BitVec.ofInt 32 (a.toInt - b.toInt * a.toInt.tdiv b.toInt)
        _ = BitVec.ofInt 32 (a.toInt.tdiv b.toInt * b.toInt + a.toInt.tmod b.toInt) := by
          rw [BitVec.ofInt_add, BitVec.ofInt_mul, BitVec.ofInt_toInt, Int.tmod_def]
        _ = a := by rw [Int.tdiv_mul_add_tmod, BitVec.ofInt_toInt]

theorem divUnsigned_mul_add_remUnsigned (a b : Word) : divUnsigned a b * b + remUnsigned a b = a := by
  unfold divUnsigned remUnsigned
  split
  · next h0 => rw [h0, BitVec.mul_zero, BitVec.zero_add]
  · calc BitVec.ofNat 32 (a.toNat / b.toNat) * b + BitVec.ofNat 32 (a.toNat % b.toNat)
      _ = BitVec.ofNat 32 (a.toNat / b.toNat * b.toNat + a.toNat % b.toNat) := by
        rw [BitVec.ofNat_add, BitVec.ofNat_mul, BitVec.ofNat_toNat, BitVec.setWidth_eq]
      _ = a := by rw [Nat.div_add_mod', BitVec.ofNat_toNat, BitVec.setWidth_eq]

/-- The magnitude of the remainder is below that of a divisor that is not zero (R187). -/
theorem natAbs_toInt_remSigned_lt (a : Word) {b : Word} (h : b ≠ 0#32) : (remSigned a b).toInt.natAbs < b.toInt.natAbs := by
  rw [toInt_remSigned, Int.natAbs_tmod]
  exact Nat.mod_lt _ (Int.natAbs_pos.mpr fun h0 => h (BitVec.toInt_inj.mp h0))

/-- A remainder that is not zero has the dividend's sign (R187). -/
theorem toInt_remSigned_neg_iff {a b : Word} (h : (remSigned a b).toInt ≠ 0) : (remSigned a b).toInt < 0 ↔ a.toInt < 0 := by
  rw [toInt_remSigned, tmod_eq_ite] at h ⊢
  by_cases ha : a.toInt < 0
  · rw [if_pos ha] at h ⊢
    omega
  · rw [if_neg ha] at h ⊢
    omega

theorem toNat_remUnsigned_lt (a : Word) {b : Word} (h : b ≠ 0#32) : (remUnsigned a b).toNat < b.toNat := by
  rw [remUnsigned_eq_umod, BitVec.toNat_umod]
  exact Nat.mod_lt _ (Nat.pos_of_ne_zero fun h0 => h (BitVec.eq_of_toNat_eq h0))

/-- What an instruction that writes one register leaves there. -/
theorem WritesOnly.next_reg {i : Instr} {rd : Reg} {v : State → Word} (h : WritesOnly i rd v) (h0 : rd ≠ 0) (s : State) :
    ∃ t, exec i s = .next t ∧ t.reg rd = v s := by
  obtain ⟨t, ht, written, -⟩ := h s
  exact ⟨t, ht, written h0⟩

/-- Settles O35: the written quotient and remainder are the model's, whose identity, size and sign are the lemmas above. -/
theorem divisionIdentity : Obligations.DivisionIdentity := by
  intro s q r rs1 rs2 hq hr
  constructor
  · obtain ⟨t, ht, hquot⟩ := (writesOnly_of_finishReg (i := .div q rs1 rs2) fun _ => rfl).next_reg hq s
    obtain ⟨u, hu, hrem⟩ := (writesOnly_of_finishReg (i := .rem r rs1 rs2) fun _ => rfl).next_reg hr s
    refine ⟨t, u, ht, hu, ?_⟩
    rw [hquot, hrem]
    exact ⟨(divSigned_mul_add_remSigned _ _).symm, natAbs_toInt_remSigned_lt _, toInt_remSigned_neg_iff⟩
  · obtain ⟨t, ht, hquot⟩ := (writesOnly_of_finishReg (i := .divu q rs1 rs2) fun _ => rfl).next_reg hq s
    obtain ⟨u, hu, hrem⟩ := (writesOnly_of_finishReg (i := .remu r rs1 rs2) fun _ => rfl).next_reg hr s
    refine ⟨t, u, ht, hu, ?_⟩
    rw [hquot, hrem]
    exact ⟨(divUnsigned_mul_add_remUnsigned _ _).symm, toNat_remUnsigned_lt _⟩

end Sys2Proof.Machine

/-! SUPPORT. Family `44_load_store.md`: the words of format S (R83, R85), the one addressing mode (R200), what the five loads read and do
(R201 to R205) and what the three stores leave (R206 to R208). -/

namespace Sys2Proof.Machine

/-! ### The words of format S (R83, R85) -/

/-- A slice of a sign-extended field that lies inside the field is the field's slice. -/
theorem extractLsb'_signExtend_of_le {n start len : Nat} (x : BitVec n) (hn : n ≤ 32) (h : start + len ≤ n) :
    (x.signExtend 32).extractLsb' start len = x.extractLsb' start len := by
  rw [← BitVec.extractLsb'_extractLsb'_of_le h, extractLsb'_signExtend x hn]

/-- The encoder puts the two parts of an S-immediate back where the word has them. -/
theorem packS_signExtend_append (hi : BitVec 7) (rs2 rs1 lo : BitVec 5) (f3 : BitVec 3) (op : BitVec 7) :
    packS ((hi ++ lo).signExtend 32) rs2.toFin rs1.toFin f3 op = hi ++ rs2 ++ rs1 ++ f3 ++ lo ++ op := by
  have upper : ((hi ++ lo).signExtend 32).extractLsb' 5 7 = hi := by
    rw [extractLsb'_signExtend_of_le _ (by decide) (by decide), BitVec.extractLsb'_append_eq_of_le le_rfl]
    exact BitVec.extractLsb'_eq_self
  have lower : ((hi ++ lo).signExtend 32).extractLsb' 0 5 = lo := by
    rw [extractLsb'_signExtend_of_le _ (by decide) (by decide), BitVec.extractLsb'_append_eq_of_add_le le_rfl]
    exact BitVec.extractLsb'_eq_self
  rw [packS, upper, lower, regBits_toFin, regBits_toFin]

/-- Where the encoder packs an instruction in format S, every word of the pattern decodes to it, with the field sign-extended. -/
theorem patternS_of_encode {f3 : BitVec 3} {mk : Reg → Reg → Word → Instr}
    (h : ∀ rs1 rs2 v, (mk rs1 rs2 v).wf = fitsI v ∧ encode (mk rs1 rs2 v) = packS v rs2 rs1 f3 0b0100011#7) : PatternS f3 mk := by
  intro hi rs2 rs1 lo
  obtain ⟨wf, word⟩ := h rs1.toFin rs2.toFin ((hi ++ lo).signExtend 32)
  rw [packS_signExtend_append] at word
  exact (congrArg decode word).symm.trans (decodeOfEncodeIsInstruction _ (wf.trans (fitsI_signExtend_twelve (hi ++ lo))))

/-! ### The addressing mode (R200) -/

/-- The effective address is the base as an unsigned number plus the signed displacement, modulo 2^32. -/
theorem dataAddr_eq_ofInt (s : State) (rs1 : Reg) (imm : Word) :
    dataAddr s rs1 imm = BitVec.ofInt 32 (((s.reg rs1).toNat : Int) + imm.toInt) := by
  rw [BitVec.ofInt_add, BitVec.ofInt_natCast, BitVec.ofNat_toNat, BitVec.setWidth_eq, BitVec.ofInt_toInt]
  rfl

/-! ### The bytes of an access as a number, lowest address first (R51) -/

theorem toNat_append_byte {n : Nat} (x : BitVec n) (b : Byte) : (x ++ b).toNat = x.toNat * 256 + b.toNat := by
  rw [BitVec.toNat_append, ← Nat.shiftLeft_add_eq_or_of_lt b.isLt, Nat.shiftLeft_eq]

theorem toInt_append_byte (x b : Byte) : (x ++ b).toInt = x.toInt * 256 + b.toNat := by
  rw [BitVec.toInt_append, if_neg (by decide), Int.mul_comm]
  rfl

theorem toNat_wordOfBytes (b0 b1 b2 b3 : Byte) :
    (wordOfBytes b0 b1 b2 b3).toNat = b0.toNat + 256 * b1.toNat + 65536 * b2.toNat + 16777216 * b3.toNat := by
  rw [wordOfBytes, toNat_append_byte, toNat_append_byte, toNat_append_byte]
  omega

/-! ### The loads (R201 to R205) -/

section Loads
variable {s : State} {a : Word}

theorem readLb_ok (hm : BytesMapped s a 1) : readLb s a = .ok (BitVec.ofInt 32 (s.byteAt a).toInt) :=
  congrArg (Except.map (BitVec.signExtend 32)) (State.memRead1_ok hm)

theorem readLh_ok (hal : a.toNat % 2 = 0) (hm : BytesMapped s a 2) :
    readLh s a = .ok (BitVec.ofInt 32 ((s.byteAt (a + 1#32)).toInt * 256 + (s.byteAt a).toNat)) := by
  rw [readLh, State.memRead2_ok hal hm, ← toInt_append_byte]
  rfl

theorem readLw_ok (hal : a.toNat % 4 = 0) (hm : BytesMapped s a 4) :
    readLw s a = .ok (BitVec.ofNat 32 ((s.byteAt a).toNat + 256 * (s.byteAt (a + 1#32)).toNat +
      65536 * (s.byteAt (a + 2#32)).toNat + 16777216 * (s.byteAt (a + 3#32)).toNat)) := by
  rw [readLw, State.memRead4_ok hal hm, ← toNat_wordOfBytes, BitVec.ofNat_toNat, BitVec.setWidth_eq]
  rfl

theorem readLbu_ok (hm : BytesMapped s a 1) : readLbu s a = .ok (BitVec.ofNat 32 (s.byteAt a).toNat) := by
  rw [readLbu, State.memRead1_ok hm, BitVec.ofNat_toNat]
  rfl

theorem readLhu_ok (hal : a.toNat % 2 = 0) (hm : BytesMapped s a 2) :
    readLhu s a = .ok (BitVec.ofNat 32 ((s.byteAt a).toNat + 256 * (s.byteAt (a + 1#32)).toNat)) := by
  have half : (s.halfAt a).toNat = (s.byteAt a).toNat + 256 * (s.byteAt (a + 1#32)).toNat := by
    rw [State.halfAt, toNat_append_byte]
    omega
  rw [readLhu, State.memRead2_ok hal hm, ← half, BitVec.ofNat_toNat]
  rfl

end Loads

/-- A load whose address is aligned and whose bytes are mapped writes their extended value and goes on. -/
theorem exec_load_ok {i : Instr} {s : State} {rd : Reg} {ea v : Word} {n : Nat} (hd : destOf i = some rd)
    (hv : loadedValue i s = some v) (ha : accessOf i s = some (ea, n)) (hal : ea.toNat % n = 0) (hm : BytesMapped s ea n) :
    exec i s = finishReg s rd v := by
  cases i with
  | lb => cases hd; cases hv; cases ha; exact execLoad_ok _ _ _ _ _ _ (readLb_ok hm)
  | lh => cases hd; cases hv; cases ha; exact execLoad_ok _ _ _ _ _ _ (readLh_ok hal hm)
  | lw => cases hd; cases hv; cases ha; exact execLoad_ok _ _ _ _ _ _ (readLw_ok hal hm)
  | lbu => cases hd; cases hv; cases ha; exact execLoad_ok _ _ _ _ _ _ (readLbu_ok hm)
  | lhu => cases hd; cases hv; cases ha; exact execLoad_ok _ _ _ _ _ _ (readLhu_ok hal hm)
  | _ => cases hv

/-- A load that runs does what LUI does with the loaded value as its immediate: it writes one register and nothing else. -/
theorem loadsOnly_of_load {i : Instr} {rd rs1 : Reg} {imm : Word} {n : Nat} {v : State → Word → Word} (hd : destOf i = some rd)
    (ha : ∀ s, accessOf i s = some (dataAddr s rs1 imm, n)) (hv : ∀ s, loadedValue i s = some (v s (dataAddr s rs1 imm))) :
    LoadsOnly i rd rs1 imm n v := by
  intro s hal hm
  have asLui : exec i s = exec (.lui rd (v s (dataAddr s rs1 imm))) s := exec_load_ok hd (hv s) (ha s) hal hm
  rw [asLui]
  exact writesOnly_of_finishReg (v := fun _ => v s (dataAddr s rs1 imm)) (fun _ => rfl) s

/-- Settles O36: the words are format I's; each load writes the value of `loadedValue`, which is the statement's. -/
theorem loadResults : Obligations.LoadResults := by
  refine ⟨patternI_of_encode fun _ _ _ => ⟨rfl, rfl⟩, patternI_of_encode fun _ _ _ => ⟨rfl, rfl⟩,
    patternI_of_encode fun _ _ _ => ⟨rfl, rfl⟩, patternI_of_encode fun _ _ _ => ⟨rfl, rfl⟩,
    patternI_of_encode fun _ _ _ => ⟨rfl, rfl⟩, dataAddr_eq_ofInt, fun rd rs1 imm => ⟨?lb, ?lh, ?lw, ?lbu, ?lhu⟩⟩
  case lb | lh | lw | lbu | lhu => exact loadsOnly_of_load rfl (fun _ => rfl) fun _ => rfl

/-! ### The stores (R206 to R208) -/

/-- A store whose address is aligned and whose bytes are mapped stores its register there and changes nothing else. -/
theorem storesOnly_of_store {i : Instr} {rs1 rs2 : Reg} {imm : Word} {n : Nat} (hr : storedReg i = some rs2)
    (ha : ∀ s, accessOf i s = some (dataAddr s rs1 imm, n)) : StoresOnly i rs1 rs2 imm n := by
  intro s hal hm
  obtain ⟨u, hu, e⟩ := exec_store_ok hr (ha s) (State.checkData_ok_of_bytesMapped hal hm)
  refine ⟨u.commitSeq, e, hu.stored, hu.others, ?_⟩
  obtain ⟨m, rfl⟩ := hu.frame
  exact ⟨State.sameRegs_commit _ _, State.advances_commitSeq _, rfl, ⟨rfl, rfl, rfl, rfl, rfl, rfl, rfl, rfl⟩⟩

/-- Settles O37: the words are format S's; each store leaves the bytes of `StoresBytes` and commits. -/
theorem storeResults : Obligations.StoreResults := by
  refine ⟨patternS_of_encode fun _ _ _ => ⟨rfl, rfl⟩, patternS_of_encode fun _ _ _ => ⟨rfl, rfl⟩,
    patternS_of_encode fun _ _ _ => ⟨rfl, rfl⟩, dataAddr_eq_ofInt, fun rs1 rs2 imm => ⟨?sb, ?sh, ?sw⟩⟩
  case sb | sh | sw => exact storesOnly_of_store rfl fun _ => rfl

end Sys2Proof.Machine

/-! SUPPORT. Family `45_control_transfer.md`: the words of formats B and J (R83, R86, R88), the targets as numbers (R220, R227, R228), what
a branch and a jump do (R220 to R228), the fetch at a misaligned target (R229), and which instructions are observed (R231). -/

namespace Sys2Proof.Machine

/-! ### The words of formats B and J (R83, R86, R88) -/

/-- A sign-extended field whose lowest bit is 0 is twice the signed value of the bits above. -/
theorem toInt_signExtend_append_zero {n : Nat} (x : BitVec n) (hn : n + 1 ≤ 32) :
    ((x ++ 0#1).signExtend 32).toInt = 2 * x.toInt := by
  rw [BitVec.toInt_signExtend_of_le hn, BitVec.toInt_append_zero, pow_one]

theorem fitsB_signExtend_append_zero (x : BitVec 12) : fitsB ((x ++ 0#1).signExtend 32) = true := by
  have lo : -2 ^ 11 ≤ x.toInt := x.le_toInt
  have hi : x.toInt < 2 ^ 11 := x.toInt_lt
  rw [fitsB_iff, toInt_signExtend_append_zero x (by decide)]
  omega

theorem fitsJ_signExtend_append_zero (x : BitVec 20) : fitsJ ((x ++ 0#1).signExtend 32) = true := by
  have lo : -2 ^ 19 ≤ x.toInt := x.le_toInt
  have hi : x.toInt < 2 ^ 19 := x.toInt_lt
  rw [fitsJ_iff, toInt_signExtend_append_zero x (by decide)]
  omega

/-- The encoder puts the four parts of a B-immediate back where the word has them. -/
theorem packB_signExtend_append (b12 b11 : BitVec 1) (b10 : BitVec 6) (b4 : BitVec 4) (rs2 rs1 : BitVec 5) (f3 : BitVec 3)
    (op : BitVec 7) : packB ((b12 ++ b11 ++ b10 ++ b4 ++ 0#1).signExtend 32) rs2.toFin rs1.toFin f3 op =
      b12 ++ b10 ++ rs2 ++ rs1 ++ f3 ++ b4 ++ b11 ++ op := by
  apply BitVec.eq_of_getLsbD_eq
  intro k hk
  simp only [packB, regBits_toFin, BitVec.getLsbD_append, BitVec.getLsbD_extractLsb', BitVec.getLsbD_signExtend]
  interval_cases k <;> simp

/-- The encoder puts the four parts of a J-immediate back where the word has them. -/
theorem packJ_signExtend_append (b20 b11 : BitVec 1) (b19 : BitVec 8) (b10 : BitVec 10) (rd : BitVec 5) (op : BitVec 7) :
    packJ ((b20 ++ b19 ++ b11 ++ b10 ++ 0#1).signExtend 32) rd.toFin op = b20 ++ b10 ++ b11 ++ b19 ++ rd ++ op := by
  apply BitVec.eq_of_getLsbD_eq
  intro k hk
  simp only [packJ, regBits_toFin, BitVec.getLsbD_append, BitVec.getLsbD_extractLsb', BitVec.getLsbD_signExtend]
  interval_cases k <;> simp

/-- Where the encoder packs an instruction in format B, every word of the pattern decodes to it, with the immediate sign-extended. -/
theorem patternB_of_encode {f3 : BitVec 3} {mk : Reg → Reg → Word → Instr}
    (h : ∀ rs1 rs2 v, (mk rs1 rs2 v).wf = fitsB v ∧ encode (mk rs1 rs2 v) = packB v rs2 rs1 f3 0b1100011#7) : PatternB f3 mk := by
  intro b12 b10 rs2 rs1 b4 b11
  obtain ⟨wf, word⟩ := h rs1.toFin rs2.toFin ((b12 ++ b11 ++ b10 ++ b4 ++ 0#1).signExtend 32)
  rw [packB_signExtend_append] at word
  exact (congrArg decode word).symm.trans (decodeOfEncodeIsInstruction _ (wf.trans (fitsB_signExtend_append_zero _)))

/-- Where the encoder packs an instruction in format J, every word of the pattern decodes to it, with the immediate sign-extended. -/
theorem patternJ_of_encode {mk : Reg → Word → Instr}
    (h : ∀ rd v, (mk rd v).wf = fitsJ v ∧ encode (mk rd v) = packJ v rd 0b1101111#7) : PatternJ mk := by
  intro b20 b10 b11 b19 rd
  obtain ⟨wf, word⟩ := h rd.toFin ((b20 ++ b19 ++ b11 ++ b10 ++ 0#1).signExtend 32)
  rw [packJ_signExtend_append] at word
  exact (congrArg decode word).symm.trans (decodeOfEncodeIsInstruction _ (wf.trans (fitsJ_signExtend_append_zero _)))

/-! ### The targets (R220, R227, R228) -/

/-- The target of a branch or JAL is the address as an unsigned number plus the signed immediate, modulo 2^32. -/
theorem relTarget_eq_ofInt (pc imm : Word) : relTarget pc imm = BitVec.ofInt 32 ((pc.toNat : Int) + imm.toInt) := by
  rw [relTarget, BitVec.ofInt_add, BitVec.ofInt_natCast, BitVec.ofNat_toNat, BitVec.setWidth_eq, BitVec.ofInt_toInt]

/-- Clearing bit 0 of a word rounds its number down to an even one. -/
theorem toNat_and_clear_bit_zero (w : Word) : (w &&& 0xFFFFFFFE#32).toNat = w.toNat / 2 * 2 := by
  have shifted : w &&& 0xFFFFFFFE#32 = w >>> 1 <<< 1 := (BitVec.shiftLeft_ushiftRight (x := w) (n := 1)).symm
  have := w.isLt
  rw [shifted, BitVec.toNat_shiftLeft, BitVec.toNat_ushiftRight, Nat.shiftLeft_eq, Nat.shiftRight_eq_div_pow]
  omega

theorem toNat_jalrTarget (base imm : Word) : (jalrTarget base imm).toNat = (base.toNat + imm.toNat) % 2 ^ 32 / 2 * 2 := by
  rw [jalrTarget, toNat_and_clear_bit_zero, BitVec.toNat_add]

theorem jalrTarget_eq_ofNat (base imm : Word) :
    jalrTarget base imm = BitVec.ofNat 32 ((base.toNat + imm.toNat) % 2 ^ 32 / 2 * 2) := by
  rw [← toNat_jalrTarget, BitVec.ofNat_toNat, BitVec.setWidth_eq]

/-! ### The branches (R220 to R226) -/

/-- An instruction that ends in the shape of a branch goes by its condition, is observed, and changes nothing else. -/
theorem branchesWhen_of_execBranch {i : Instr} {imm : Word} {taken : State → Bool} {c : State → Prop}
    (hc : ∀ s, taken s = true ↔ c s) (he : ∀ s, exec i s = execBranch (taken s) imm s) : BranchesWhen i imm c := by
  intro s
  rw [← relTarget_eq_ofInt]
  refine ⟨_, taken s, he s, hc s, fun h => ?_, fun h => ?_, rfl, rfl, State.sameRegs_commit _ _, fun _ => rfl,
    ⟨rfl, rfl, rfl, rfl, rfl, rfl, rfl, rfl⟩⟩
  · exact if_pos ((hc s).mpr h)
  · rw [State.commit_pc, if_neg (mt (hc s).mp h), nextSeq_toNat]

section Conditions
variable (a b : Word)

theorem condEq_iff : condEq a b = true ↔ a = b := beq_iff_eq

theorem condLtSigned_iff : condLtSigned a b = true ↔ a.toInt < b.toInt := decide_eq_true_iff

theorem condLtUnsigned_iff : condLtUnsigned a b = true ↔ a.toNat < b.toNat := decide_eq_true_iff

end Conditions

/-- The condition of a branch that tests the opposite (R222, R224, R226). -/
theorem not_eq_true_iff_of_iff {b : Bool} {p : Prop} (h : b = true ↔ p) : (!b) = true ↔ ¬ p := by
  rw [Bool.not_eq_true', ← Bool.not_eq_true, h]

theorem beq_branchesWhen (rs1 rs2 : Reg) (imm : Word) : BranchesWhen (.beq rs1 rs2 imm) imm (fun s => s.reg rs1 = s.reg rs2) :=
  branchesWhen_of_execBranch (fun _ => condEq_iff _ _) fun _ => rfl

/-- Settles O41: the words are format B's; each is the shape of a branch, with its comparison as the condition. -/
theorem equalityAndSignedBranches : Obligations.EqualityAndSignedBranches := by
  refine ⟨patternB_of_encode fun _ _ _ => ⟨rfl, rfl⟩, patternB_of_encode fun _ _ _ => ⟨rfl, rfl⟩,
    patternB_of_encode fun _ _ _ => ⟨rfl, rfl⟩, patternB_of_encode fun _ _ _ => ⟨rfl, rfl⟩,
    fun rs1 rs2 imm => ⟨beq_branchesWhen rs1 rs2 imm, ?bne, ?blt, ?bge⟩⟩
  case bne => exact branchesWhen_of_execBranch (fun _ => not_eq_true_iff_of_iff (condEq_iff _ _)) fun _ => rfl
  case blt => exact branchesWhen_of_execBranch (fun _ => condLtSigned_iff _ _) fun _ => rfl
  case bge => exact branchesWhen_of_execBranch (fun _ => (not_eq_true_iff_of_iff (condLtSigned_iff _ _)).trans not_lt) fun _ => rfl

/-- Settles O42: as the other branches, with the unsigned comparison. -/
theorem unsignedBranches : Obligations.UnsignedBranches := by
  refine ⟨patternB_of_encode fun _ _ _ => ⟨rfl, rfl⟩, patternB_of_encode fun _ _ _ => ⟨rfl, rfl⟩,
    fun rs1 rs2 imm => ⟨?bltu, ?bgeu⟩⟩
  case bltu => exact branchesWhen_of_execBranch (fun _ => condLtUnsigned_iff _ _) fun _ => rfl
  case bgeu => exact branchesWhen_of_execBranch (fun _ => (not_eq_true_iff_of_iff (condLtUnsigned_iff _ _)).trans not_lt) fun _ => rfl

/-! ### The jumps (R227, R228) -/

/-- An instruction that ends in the shape of a jump links, is observed as taken, and changes nothing else; its target may be read in any
way that is equal to it. -/
theorem jumpsTo_of_execJump {i : Instr} {rd : Reg} {u target : State → Word} (ht : ∀ s, u s = target s)
    (he : ∀ s, exec i s = execJump (u s) rd s) : JumpsTo i rd target := by
  obtain rfl : u = target := funext ht
  intro s
  refine ⟨_, he s, rfl, fun h0 => ?_, State.sameRegsBut_setReg_commit (s.observe (u s) false true) rd _ _, rfl, rfl, fun _ => rfl,
    ⟨rfl, rfl, rfl, rfl, rfl, rfl, rfl, rfl⟩⟩
  rw [State.reg_commit_ne _ _ _ h0, State.reg_setReg_same, nextSeq_toNat]

theorem jal_jumpsTo (rd : Reg) (imm : Word) : JumpsTo (.jal rd imm) rd (fun s => BitVec.ofInt 32 ((s.pc.toNat : Int) + imm.toInt)) :=
  jumpsTo_of_execJump (fun s => relTarget_eq_ofInt s.pc imm) fun _ => rfl

theorem jalr_jumpsTo (rd rs1 : Reg) (imm : Word) : JumpsTo (.jalr rd rs1 imm) rd (fun s => jalrTarget (s.reg rs1) imm) :=
  jumpsTo_of_execJump (fun _ => rfl) fun _ => rfl

/-- Settles O43: the words are format J's, and JAL is the shape of a jump. -/
theorem jalResult : Obligations.JalResult :=
  ⟨patternJ_of_encode fun _ _ => ⟨rfl, rfl⟩, jal_jumpsTo⟩

/-- Settles O44: the words are format I's; the target is the sum rounded down to an even number. -/
theorem jalrResult : Obligations.JalrResult := by
  refine ⟨patternI_of_encode fun _ _ _ => ⟨rfl, rfl⟩, fun rd rs1 imm => ?_⟩
  simp only [← jalrTarget_eq_ofNat]
  exact jalr_jumpsTo rd rs1 imm

/-! ### A misaligned target (R229) -/

theorem step_of_misaligned {s : State} (hr : s.runState = .running) (h : s.pc.toNat % 4 ≠ 0) :
    step s = .fault (.fetchMisaligned s.pc) :=
  step_of_fetch_error hr (s.fetch_misaligned h)

/-- A jump to a misaligned target is committed with its link, count and observation; the next step faults. -/
theorem JumpsTo.next_step_faults {i : Instr} {rd : Reg} {target : State → Word} {s : State} (h : JumpsTo i rd target)
    (hr : s.runState = .running) (hm : (target s).toNat % 4 ≠ 0) :
    ∃ t : State, exec i s = .next t ∧ t.pc = target s ∧ (rd ≠ 0 → (t.reg rd).toNat = (s.pc.toNat + 4) % 2 ^ 32) ∧
      t.nInsn = s.nInsn + 1 ∧ t.bank.nCtl = s.bank.nCtl + 1 ∧ step t = .fault (.fetchMisaligned t.pc) := by
  obtain ⟨t, he, hpc, hlink, -, hn, hbank, -, helse⟩ := h s
  exact ⟨t, he, hpc, hlink, hn, congrArg Bank.nCtl hbank, step_of_misaligned (helse.runState.trans hr) (hpc ▸ hm)⟩

/-- A taken branch to a misaligned target is committed with its count and observation; the next step faults. -/
theorem BranchesWhen.next_step_faults {i : Instr} {imm : Word} {c : State → Prop} {s : State} (h : BranchesWhen i imm c) (hc : c s)
    (hr : s.runState = .running) (hm : (BitVec.ofInt 32 ((s.pc.toNat : Int) + imm.toInt)).toNat % 4 ≠ 0) :
    ∃ t : State, exec i s = .next t ∧ t.pc = BitVec.ofInt 32 ((s.pc.toNat : Int) + imm.toInt) ∧
      t.nInsn = s.nInsn + 1 ∧ t.bank.nCtl = s.bank.nCtl + 1 ∧ step t = .fault (.fetchMisaligned t.pc) := by
  obtain ⟨t, taken, he, -, hpc, -, hbank, hn, -, -, helse⟩ := h s
  exact ⟨t, he, hpc hc, hn, congrArg Bank.nCtl hbank, step_of_misaligned (helse.runState.trans hr) (hpc hc ▸ hm)⟩

/-- Settles O45: the three instructions do as their results say, and the fetch at such a `pc` faults. -/
theorem misalignedTargetStopsNextFetch : Obligations.MisalignedTargetStopsNextFetch := by
  intro s rd rs1 imm hr
  refine ⟨(jal_jumpsTo rd imm).next_step_faults hr, (beq_branchesWhen rs1 rs1 imm).next_step_faults rfl hr, ?_⟩
  rw [← toNat_jalrTarget]
  intro hm
  obtain ⟨t, he, hpc, rest⟩ := (jalr_jumpsTo rd rs1 imm).next_step_faults hr hm
  exact ⟨t, he, congrArg BitVec.toNat hpc, rest⟩

/-! ### Which instructions are observed (R231) -/

/-- The eight kinds of control transfer are those of the branches and the jumps. -/
theorem kind_mem_controlTransfers_iff (i : Instr) :
    i.kind ∈ [Kind.beq, Kind.bne, Kind.blt, Kind.bge, Kind.bltu, Kind.bgeu, Kind.jal, Kind.jalr] ↔
      i.shape = .branch ∨ i.shape = .jump := by
  cases i with
  | beq | bne | blt | bge | bltu | bgeu => exact iff_of_true (by simp [Instr.kind]) (.inl rfl)
  | jal | jalr => exact iff_of_true (by simp [Instr.kind]) (.inr rfl)
  | _ => exact iff_of_false (by simp [Instr.kind]) (by simp [Instr.shape])

theorem EcallEffect.bank {s t : State} (h : EcallEffect s t) : t.bank = s.bank := by
  rcases h with ⟨-, -, rfl⟩ | ⟨-, rfl⟩ | ⟨-, rfl⟩ | ⟨-, -, -, -, rfl⟩ <;> rfl

/-- An instruction that goes on is observed once when it is a branch or a jump, and leaves the bank otherwise. -/
theorem exec_bank {i : Instr} {s t : State} (h : exec i s = .next t) :
    ((i.shape = .branch ∨ i.shape = .jump) ∧ ∃ target ib tk, t.bank = s.bank.observe s.pc target ib tk) ∨
    (¬ (i.shape = .branch ∨ i.shape = .jump) ∧ t.bank = s.bank) := by
  rcases exec_next h with ⟨hs, rd, v, -, rfl⟩ | ⟨hs, u, hu, rfl⟩ | ⟨hs, tk, imm, rfl⟩ | ⟨hs, rd, target, -, rfl⟩ | ⟨rfl, he⟩
  · refine .inr ⟨?_, rfl⟩
    rcases hs with hs | hs <;> simp [hs]
  · obtain ⟨m, rfl⟩ := hu.frame
    exact .inr ⟨by simp [hs], rfl⟩
  · exact .inl ⟨.inl hs, relTarget s.pc imm, true, tk, rfl⟩
  · exact .inl ⟨.inr hs, target, false, true, rfl⟩
  · exact .inr ⟨by decide, he.bank⟩

/-- Settles O23: the fetched word is an instruction, observed by its shape, or an unknown one, whose count leaves the bank. -/
theorem onlyControlTransfersAreObserved : Obligations.OnlyControlTransfersAreObserved := by
  intro s t w h hw
  refine ⟨fun i hd hk => ?_, fun i hd hk => ?_, fun e hd => ?_⟩
  · rw [kind_mem_controlTransfers_iff] at hk
    rw [hw.step_of_decode hd] at h
    exact ((exec_bank h).resolve_right fun ⟨no, _⟩ => no hk).2
  · rw [kind_mem_controlTransfers_iff] at hk
    rw [hw.step_of_decode hd] at h
    exact ((exec_bank h).resolve_left fun ⟨yes, _⟩ => hk yes).2
  · rw [hw.step_of_decode_error hd] at h
    cases h
    rfl

end Sys2Proof.Machine

/-! SUPPORT. Family `46_upper_immediate.md`: the words of format U (R83, R87), and the results of LUI and AUIPC (R240, R241). -/

namespace Sys2Proof.Machine

/-! ### The words of format U (R83, R87) -/

theorem fitsU_append_zero (x : BitVec 20) : fitsU (x ++ 0#12) = true := by
  have pow : (x ++ 0#12).toNat = x.toNat * 2 ^ 12 := by
    rw [BitVec.toNat_append, BitVec.toNat_ofNat, Nat.zero_mod, Nat.or_zero, Nat.shiftLeft_eq]
  rw [fitsU, pow]
  exact decide_eq_true (Nat.mul_mod_left _ _)

/-- Where the encoder packs an instruction in format U, every word of the pattern decodes to it, with the field in the upper 20 bits. -/
theorem patternU_of_encode {op : BitVec 7} {mk : Reg → Word → Instr}
    (h : ∀ rd v, (mk rd v).wf = fitsU v ∧ encode (mk rd v) = packU v rd op) : PatternU op mk := by
  intro imm rd
  obtain ⟨wf, word⟩ := h rd.toFin (imm ++ 0#12)
  rw [packU, BitVec.extractLsb'_append_eq_left, regBits_toFin] at word
  exact (congrArg decode word).symm.trans (decodeOfEncodeIsInstruction _ (wf.trans (fitsU_append_zero imm)))

/-! ### The results (R240, R241) -/

/-- Settles O46: both end in the write of `rd`, LUI's of the immediate, AUIPC's of its sum with the address, modulo 2^32. -/
theorem upperImmediateResults : Obligations.UpperImmediateResults := by
  refine ⟨patternU_of_encode fun _ _ => ⟨rfl, rfl⟩, patternU_of_encode fun _ _ => ⟨rfl, rfl⟩, fun rd imm => ⟨?lui, ?auipc⟩⟩
  case lui => exact writesOnly_of_finishReg fun _ => rfl
  case auipc => exact writesOnly_of_value_eq (fun s => BitVec.add_def s.pc imm) fun _ => rfl

end Sys2Proof.Machine

/-! SUPPORT. Family `47_system.md`: what each service of ECALL does (R251 to R255), who touches input, output and the run state (R254,
R256), and the words of SYSTEM and MISC-MEM that are no ECALL (R257, R258). -/

namespace Sys2Proof.Machine

/-! ### The services of ECALL (R251 to R255) -/

section CharacterRead
variable (s : State)

theorem State.getChar_of_some {c : Byte} (h : s.input[s.inputPos]? = some c) :
    s.getCharValue = c.setWidth 32 ∧ s.getCharPos = s.inputPos + 1 := by
  simp only [State.getCharValue, State.getCharPos, h, and_self]

theorem State.getChar_of_none (h : s.input[s.inputPos]? = none) : s.getCharValue = s.eofValue ∧ s.getCharPos = s.inputPos := by
  simp only [State.getCharValue, State.getCharPos, h, and_self]

/-- A character read advances the position by one, or leaves it at end of input (R252). -/
theorem State.getCharPos_cases : s.getCharPos = s.inputPos + 1 ∨ s.getCharPos = s.inputPos := by
  cases h : s.input[s.inputPos]? with
  | some c => exact .inl (s.getChar_of_some h).2
  | none => exact .inr (s.getChar_of_none h).2

/-- Service 1 with an answer delivers it in `x[10]`, sets the position and changes nothing else (R252). -/
theorem ecallGetChar_of_answers (h : s.getCharAnswers = true) :
    ∃ t : State, ecallGetChar s = .next t ∧ t.reg 10 = s.getCharValue ∧ t.inputPos = s.getCharPos ∧
      SameRegsBut 10 s t ∧ Advances s t ∧ SameBytes s t ∧ t.bank = s.bank ∧ t.nUnknown = s.nUnknown ∧ t.runState = s.runState ∧
      t.mapped = s.mapped ∧ t.input = s.input ∧ t.inputTail = s.inputTail ∧ t.eofValue = s.eofValue ∧ t.output = s.output := by
  have delivered : ∀ u : State, (u.setReg regA0 s.getCharValue).commitSeq.reg 10 = s.getCharValue := fun u =>
    (State.reg_commit_ne _ _ _ (by decide)).trans (u.reg_setReg_same regA0 _)
  exact ⟨_, if_pos h, delivered _, rfl, State.sameRegsBut_setReg_commit { s with inputPos := s.getCharPos } regA0 _ _,
    State.advances_commitSeq (State.setReg { s with inputPos := s.getCharPos } regA0 s.getCharValue), fun _ => rfl,
    rfl, rfl, rfl, rfl, rfl, rfl, rfl, rfl⟩

end CharacterRead

section Services
variable {s : State}

theorem exec_ecall_of_service_one (h : s.reg 17 = 1#32) : exec .ecall s = ecallGetChar s := if_pos h

theorem exec_ecall_of_service_two (h : s.reg 17 = 2#32) : exec .ecall s = ecallPutChar s :=
  have h1 : s.reg 17 ≠ 1#32 := by rw [h]; decide
  (if_neg h1).trans (if_pos h)

theorem exec_ecall_of_halt_service (h : s.reg 17 = 3#32 ∨ s.reg 17 = 93#32) : exec .ecall s = ecallHalt s :=
  have h1 : s.reg 17 ≠ 1#32 := by rcases h with h | h <;> rw [h] <;> decide
  have h2 : s.reg 17 ≠ 2#32 := by rcases h with h | h <;> rw [h] <;> decide
  (if_neg h1).trans ((if_neg h2).trans (if_pos h))

theorem exec_ecall_of_other_service (h1 : s.reg 17 ≠ 1#32) (h2 : s.reg 17 ≠ 2#32) (h3 : s.reg 17 ≠ 3#32) (h93 : s.reg 17 ≠ 93#32) :
    exec .ecall s = ecallOther s :=
  (if_neg h1).trans ((if_neg h2).trans (if_neg (not_or.mpr ⟨h3, h93⟩)))

end Services

/-- Settles O47: the answer is the character at the position or the sentinel, and without an answer service 1 refuses. -/
theorem ecallReadsCharacter : Obligations.EcallReadsCharacter := by
  refine ⟨fun s h1 hanswer => ?answered, fun s h1 hin htail => ?stuck⟩
  case answered =>
    obtain ⟨t, he, hreg, hpos, frame⟩ := ecallGetChar_of_answers s (s.getCharAnswers_iff.mpr hanswer)
    refine ⟨t, (exec_ecall_of_service_one h1).trans he, fun c hc => ?_, fun hend => ?_, frame⟩
    · obtain ⟨hv, hp⟩ := s.getChar_of_some hc
      exact ⟨hreg.trans (hv.trans (BitVec.ofNat_toNat 32 c).symm), hpos.trans hp⟩
    · obtain ⟨hv, hp⟩ := s.getChar_of_none (List.getElem?_eq_none hend)
      exact ⟨hreg.trans hv, hpos.trans hp⟩
  case stuck =>
    have hno := s.getCharAnswers_eq_false_iff.mpr ⟨hin, htail⟩
    exact (exec_ecall_of_service_one h1).trans (ecallGetChar_refused.mpr ⟨hno, rfl⟩)

/-- Settles O48: service 2 appends the low byte of `x[10]` and commits. -/
theorem ecallWritesCharacter : Obligations.EcallWritesCharacter := by
  intro s h2
  exact ⟨_, exec_ecall_of_service_two h2, rfl, State.sameRegs_commit _ _,
    State.advances_commitSeq (s.putChar ((s.reg regA0).extractLsb' 0 8)), fun _ => rfl, rfl, rfl, rfl, rfl, rfl, rfl, rfl, rfl⟩

/-- Settles O50: any other service is the commit alone. -/
theorem ecallOtherIsNoOp : Obligations.EcallOtherIsNoOp := by
  intro s h1 h2 h3 h93
  exact ⟨_, exec_ecall_of_other_service h1 h2 h3 h93, State.sameRegs_commit _ _, State.advances_commitSeq s, fun _ => rfl, rfl,
    ⟨rfl, rfl, rfl, rfl, rfl, rfl, rfl, rfl⟩⟩

/-! ### The run state, input and output over a step (R254, R256) -/

/-- The fields that only ECALL touches are as before: the run state, the input position, the output. -/
def State.SameService (s t : State) : Prop := t.runState = s.runState ∧ t.inputPos = s.inputPos ∧ t.output = s.output

/-- An instruction that goes on touches none of these fields, or is ECALL. -/
theorem exec_sameService {i : Instr} {s t : State} (h : exec i s = .next t) : s.SameService t ∨ (i = .ecall ∧ EcallEffect s t) := by
  rcases exec_next h with ⟨-, rd, v, -, rfl⟩ | ⟨-, u, hu, rfl⟩ | ⟨-, tk, imm, rfl⟩ | ⟨-, rd, target, -, rfl⟩ | he
  · exact .inl ⟨rfl, rfl, rfl⟩
  · obtain ⟨m, rfl⟩ := hu.frame
    exact .inl ⟨rfl, rfl, rfl⟩
  · exact .inl ⟨rfl, rfl, rfl⟩
  · exact .inl ⟨rfl, rfl, rfl⟩
  · exact .inr he

/-- A step touches none of these fields, or fetched ECALL's word and had one of its effects. -/
theorem step_sameService {s t : State} (h : step s = .next t) :
    s.SameService t ∨ (Fetches s 0x00000073#32 ∧ EcallEffect s t) := by
  obtain ⟨w, hw, ⟨i, hd, hi⟩ | ⟨e, -, rfl⟩⟩ := step_next_fetches h
  · rcases exec_sameService hi with hs | ⟨rfl, he⟩
    · exact .inl hs
    · exact .inr ⟨(decode_eq_ok_ecall_iff w).mp hd ▸ hw, he⟩
  · exact .inl ⟨rfl, rfl, rfl⟩

/-- Settles O22: of ECALL's effects only the character read moves the position, and only the character write the output. -/
theorem inputOutputOnlyByEcall : Obligations.InputOutputOnlyByEcall := by
  intro s t h
  rcases step_sameService h with ⟨-, hpos, hout⟩ | ⟨hw, ⟨h1, -, rfl⟩ | ⟨h2, rfl⟩ | ⟨-, rfl⟩ | ⟨-, -, -, -, rfl⟩⟩
  · exact .inl ⟨hout, hpos⟩
  · rcases s.getCharPos_cases with hp | hp
    · exact .inr (.inl ⟨hw, h1, rfl, hp⟩)
    · exact .inl ⟨rfl, hp⟩
  · exact .inr (.inr ⟨hw, h2, rfl, rfl⟩)
  · exact .inl ⟨rfl, rfl⟩
  · exact .inl ⟨rfl, rfl⟩

/-- ECALL halts a running core only by services 3 and 93 (R254). -/
theorem EcallEffect.service_of_halted {s t : State} (h : EcallEffect s t) (hs : s.runState = .running) (ht : t.runState = .halted) :
    s.reg 17 = 3#32 ∨ s.reg 17 = 93#32 := by
  have stays : s.runState ≠ .halted := by rw [hs]; nofun
  rcases h with ⟨-, -, rfl⟩ | ⟨-, rfl⟩ | ⟨h3, rfl⟩ | ⟨-, -, -, -, rfl⟩
  · exact absurd ht stays
  · exact absurd ht stays
  · exact h3
  · exact absurd ht stays

/-- Settles O49: the halting services commit and set the run state, and no other step of a running core sets it. -/
theorem ecallHalts : Obligations.EcallHalts := by
  refine ⟨(decode_eq_ok_ecall_iff _).mpr rfl, fun s h => ?halts, fun s t h ht => ?only⟩
  case halts =>
    exact ⟨_, exec_ecall_of_halt_service h, rfl, State.sameRegs_commit s (nextSeq s.pc), State.advances_commitSeq s, fun _ => rfl, rfl,
      rfl, rfl, rfl, rfl, rfl, rfl, rfl⟩
  case only =>
    obtain ⟨hr, -⟩ := step_next h
    rcases step_sameService h with ⟨hrun, -, -⟩ | ⟨hw, he⟩
    · exact nomatch hr.symm.trans (hrun.symm.trans ht)
    · exact ⟨hw, he.service_of_halted hr ht⟩

/-! ### The words of SYSTEM and MISC-MEM (R257, R258) -/

theorem decode_system_word {w : Word} (hop : opcodeOf w = 0b1110011#7) (hw : w ≠ 0x00000073#32) : decode w = .error .systemWord := by
  have unknown : kindOf w = .unknown := by rw [kindOf_of_opcode_system hop, if_neg hw]
  exact (decode_error_iff w _).mpr ⟨unknown, by simp [rejectOf, hop]⟩

theorem decode_miscMem_word {w : Word} (hop : opcodeOf w = 0b0001111#7) : decode w = .error .noSuchOpcode := by
  have unknown : kindOf w = .unknown := kindOf_of_opcode_unknown (by rw [hop]; decide)
  exact (decode_error_iff w _).mpr ⟨unknown, by simp [rejectOf, hop]⟩

/-- Settles O14: both words of the last clause are of the first two, and run as the counted no-op. -/
theorem systemWordsAreUnknown : Obligations.SystemWordsAreUnknown := by
  refine ⟨fun w => decode_system_word, fun w => decode_miscMem_word, fun s w hw hf => ?_⟩
  obtain ⟨e, hd⟩ : ∃ e, decode w = .error e := by
    rcases hw with rfl | rfl
    · exact ⟨_, decode_system_word rfl (by decide)⟩
    · exact ⟨_, decode_miscMem_word rfl⟩
  obtain ⟨t, hstep, hcount, -, -, -, -, hrun, -⟩ := unknownIsCountedNoOp s w e hf hd
  exact ⟨t, hstep, hcount, hrun⟩

end Sys2Proof.Machine

/-! SUPPORT. Family `48_branch_predictor.md`: the bank influences nothing (R281), what one observation does to each scheme (R273 to R279),
and the statistics over a step (R282). -/

namespace Sys2Proof.Machine

/-! ### The bank influences nothing (R281) -/

/-- The same state with another bank. -/
def State.withBank (s : State) (b : Bank) : State := { s with bank := b }

@[simp] theorem State.reg_withBank (s : State) (b : Bank) (r : Reg) : (s.withBank b).reg r = s.reg r := rfl

/-- Two outcomes that agree but for the bank stop alike, or go on to states that differ in the bank alone. -/
theorem AgreeButBank.cases {r q : Result} (h : AgreeButBank r q) :
    (∃ t b, r = .next t ∧ q = .next (t.withBank b)) ∨ (∃ f, r = .fault f ∧ q = .fault f) ∨
    (∃ e, r = .refused e ∧ q = .refused e) := by
  match r, q, h with
  | .next t, .next u, h => exact .inl ⟨t, u.bank, rfl, congrArg _ h⟩
  | .fault f, .fault _, rfl => exact .inr (.inl ⟨f, rfl, rfl⟩)
  | .refused e, .refused _, rfl => exact .inr (.inr ⟨e, rfl, rfl⟩)

theorem step_of_halted {s : State} (hr : s.runState = .halted) : step s = .refused .coreHalted :=
  step_eq_refused_iff.mpr (.inl ⟨hr, rfl⟩)

section Execute
variable (s : State) (b : Bank)

/-- A load whose read does not look at the bank. -/
theorem execLoad_agreeButBank {read : State → Word → Except Fault Word} (hread : ∀ a, read (s.withBank b) a = read s a)
    (rd rs1 : Reg) (imm : Word) : AgreeButBank (execLoad read rd rs1 imm s) (execLoad read rd rs1 imm (s.withBank b)) := by
  cases h : read s (dataAddr s rs1 imm) with
  | ok v =>
    rw [execLoad_ok s read rd rs1 imm v h, execLoad_ok (s.withBank b) read rd rs1 imm v ((hread _).trans h)]
    exact rfl
  | error f =>
    rw [execLoad_error s read rd rs1 imm f h, execLoad_error (s.withBank b) read rd rs1 imm f ((hread _).trans h)]
    exact rfl

/-- A store whose effect, where the checks allow it, differs in the bank alone. -/
theorem execStore_agreeButBank {n : Nat} {effect : State → Word → Word → State}
    (heffect : ∀ a v, effect (s.withBank b) a v = (effect s a v).withBank b) (rs1 rs2 : Reg) (imm : Word) :
    AgreeButBank (execStore (fun s a v => (s.checkData a n).map fun _ => effect s a v) rs1 rs2 imm s)
      (execStore (fun s a v => (s.checkData a n).map fun _ => effect s a v) rs1 rs2 imm (s.withBank b)) := by
  have hcheck : ∀ a, (s.withBank b).checkData a n = s.checkData a n := fun _ => rfl
  cases h : s.checkData (dataAddr s rs1 imm) n with
  | ok =>
    rw [execStore_ok s _ rs1 rs2 imm _ (except_map_ok.mpr ⟨(), h, rfl⟩),
      execStore_ok (s.withBank b) _ rs1 rs2 imm _ (except_map_ok.mpr ⟨(), (hcheck _).trans h, heffect _ _⟩)]
    exact rfl
  | error f =>
    rw [execStore_error s _ rs1 rs2 imm f (except_map_error.mpr h),
      execStore_error (s.withBank b) _ rs1 rs2 imm f (except_map_error.mpr ((hcheck _).trans h))]
    exact rfl

theorem ecallGetChar_agreeButBank : AgreeButBank (ecallGetChar s) (ecallGetChar (s.withBank b)) := by
  have hanswers : (s.withBank b).getCharAnswers = s.getCharAnswers := rfl
  unfold ecallGetChar
  rw [hanswers]
  split
  · exact rfl
  · exact rfl

theorem execEcall_agreeButBank : AgreeButBank (execEcall s) (execEcall (s.withBank b)) := by
  unfold execEcall
  rw [State.reg_withBank]
  split_ifs
  · exact ecallGetChar_agreeButBank s b
  · exact rfl
  · exact rfl
  · exact rfl

/-- No instruction's outcome depends on the bank, but for the bank itself: its operands, checks and target are read elsewhere. -/
theorem exec_agreeButBank (i : Instr) : AgreeButBank (exec i s) (exec i (s.withBank b)) := by
  cases i with
  | lb | lh | lw | lbu | lhu => exact execLoad_agreeButBank s b (fun _ => rfl) _ _ _
  | sb => exact execStore_agreeButBank s b (effect := fun s a v => s.setByte a (v.extractLsb' 0 8)) (fun _ _ => rfl) _ _ _
  | sh => exact execStore_agreeButBank s b (effect := fun s a v => s.setHalf a (v.extractLsb' 0 16)) (fun _ _ => rfl) _ _ _
  | sw => exact execStore_agreeButBank s b (effect := State.setWord) (fun _ _ => rfl) _ _ _
  | ecall => exact execEcall_agreeButBank s b
  | _ => exact rfl

/-- No step's outcome depends on the bank, but for the bank itself. -/
theorem step_agreeButBank : AgreeButBank (step s) (step (s.withBank b)) := by
  cases hr : s.runState with
  | halted =>
    have hrb : (s.withBank b).runState = .halted := hr
    rw [step_of_halted hr, step_of_halted hrb]
    exact rfl
  | running =>
    have hrb : (s.withBank b).runState = .running := hr
    have hfetch : (s.withBank b).fetch = s.fetch := rfl
    cases hf : s.fetch with
    | error f =>
      rw [step_of_fetch_error hr hf, step_of_fetch_error hrb (hfetch.trans hf)]
      exact rfl
    | ok w =>
      cases hd : decode w with
      | ok i =>
        rw [step_of_decode hr hf hd, step_of_decode hrb (hfetch.trans hf) hd]
        exact exec_agreeButBank s b i
      | error e =>
        rw [step_of_decode_error hr hf hd, step_of_decode_error hrb (hfetch.trans hf) hd]
        exact rfl

end Execute

theorem run_succ_of_next {k : Nat} {s t : State} (h : step s = .next t) : core.run (k + 1) s = core.run k t := by
  simp [Host.Core.run, core, h]

theorem run_succ_of_fault {k : Nat} {s : State} {f : Fault} (h : step s = .fault f) : core.run (k + 1) s = .fault f := by
  simp [Host.Core.run, core, h]

theorem run_succ_of_refused {k : Nat} {s : State} {r : Refusal} (h : step s = .refused r) : core.run (k + 1) s = .refused r := by
  simp [Host.Core.run, core, h]

/-- Settles O24, by induction on the number of steps: the first step of the two runs agrees but for the bank. -/
theorem bankNeverInfluencesExecution : Obligations.BankNeverInfluencesExecution := by
  intro k
  induction k with
  | zero => exact fun _ _ => rfl
  | succ k ih =>
    intro s b
    change AgreeButBank _ (core.run (k + 1) (s.withBank b))
    rcases (step_agreeButBank s b).cases with ⟨t, c, hs, hb⟩ | ⟨f, hs, hb⟩ | ⟨r, hs, hb⟩
    · rw [run_succ_of_next hs, run_succ_of_next hb]
      exact ih t c
    · rw [run_succ_of_fault hs, run_succ_of_fault hb]
      exact rfl
    · rw [run_succ_of_refused hs, run_succ_of_refused hb]
      exact rfl

/-! ### What one observation does (R273 to R279) -/

/-- Settles O56: the formula by its two branches, the prediction and the transitions on the four counters. -/
theorem saturatingCounter : Obligations.SaturatingCounter := by
  refine ⟨fun c taken => ?formula, by decide, rfl, rfl, rfl, rfl, rfl, rfl, rfl, rfl⟩
  case formula =>
    cases taken with
    | true => simp only [sat, if_true]; omega
    | false => simp only [sat, Bool.false_eq_true, if_false]; omega

theorem errAfter_of_eq {err : Nat} {pred taken : Bool} (h : pred = taken) : errAfter err pred taken = err := if_pos h

theorem errAfter_of_ne {err : Nat} {pred taken : Bool} (h : pred ≠ taken) : errAfter err pred taken = err + 1 := if_neg h

theorem btfntPredicts_iff (pc target : Word) : btfntPredicts pc target = true ↔ target.toNat < pc.toNat := decide_eq_true_iff

theorem predictsTaken_iff (c : Ctr) : predictsTaken c = true ↔ 2 ≤ c.val := decide_eq_true_iff

/-- The history register as a number: doubled, the outcome added, modulo 2^16 (R278). -/
theorem toNat_ghrShift (g : BitVec 16) (taken : Bool) : (ghrShift g taken).toNat = (2 * g.toNat + taken.toNat) % 65536 := by
  have hbit : (BitVec.ofBool taken).toNat = taken.toNat := BitVec.toNat_ofBool taken
  have hlow : (BitVec.ofBool taken).toNat < 2 ^ 1 := (BitVec.ofBool taken).isLt
  rw [ghrShift, BitVec.toNat_append, ← Nat.shiftLeft_add_eq_or_of_lt hlow, BitVec.extractLsb'_toNat, Nat.shiftLeft_eq,
    Nat.shiftRight_zero, hbit]
  omega

/-- Settles O52: the not-taken scheme errs on a taken outcome; the history by bits and as a number. -/
theorem observeCountsAndShiftsHistory : Obligations.ObserveCountsAndShiftsHistory := by
  intro b pc target isBranch taken
  refine ⟨rfl, ?errNt, getLsbD_ghrShift taken b.ghr 0 (by decide), fun k hk => ?shift, toNat_ghrShift b.ghr taken⟩
  case errNt => cases taken <;> rfl
  case shift => exact getLsbD_ghrShift taken b.ghr (k + 1) (by omega)

/-- Settles O53: the error is counted exactly where the prediction is not the outcome. -/
theorem observeJudgesBtfnt : Obligations.ObserveJudgesBtfnt := by
  intro b pc target isBranch taken
  rw [← btfntPredicts_iff, ← Bool.eq_iff_iff]
  exact ⟨errAfter_of_eq, errAfter_of_ne⟩

/-- `u` is the table `t` after an observation at index `i`: the error judged by the old counter, that counter moved, no other (R276). -/
def Table.ObservedAt (init : Ctr) (i : Nat) (taken : Bool) (t u : Table) : Prop :=
  u.size = t.size ∧ u.err = (if (2 ≤ (t.ctr init i).val ↔ taken = true) then t.err else t.err + 1) ∧
  (u.ctr init i).val = (if taken = true then min ((t.ctr init i).val + 1) 3 else (t.ctr init i).val - 1) ∧
  ∀ j : Nat, j ≠ i → u.ctr init j = t.ctr init j

theorem Table.observedAt_observe (init : Ctr) (i : Nat) (taken : Bool) (t : Table) :
    Table.ObservedAt init i taken t (t.observe init i taken) := by
  refine ⟨rfl, ?err, ?moved, fun j hj => ?others⟩
  case err =>
    rw [Table.observe_err, errAfter]
    exact if_congr (Bool.eq_iff_iff.trans (iff_congr (predictsTaken_iff _) Iff.rfl)) rfl rfl
  case moved =>
    rw [Table.ctr_observe, if_pos rfl, sat]
    split_ifs <;> rfl
  case others => rw [Table.ctr_observe, if_neg hj]

theorem bimodalIndex_two_pow (pc : Word) (m : Nat) : bimodalIndex pc (2 ^ m) = pc.toNat / 4 % 2 ^ m := by
  rw [bimodalIndex, Nat.and_two_pow_sub_one_eq_mod, Nat.shiftRight_eq_div_pow]

theorem gshareIndex_two_pow (pc : Word) (ghr : BitVec 16) (m : Nat) :
    gshareIndex pc ghr (2 ^ m) = (pc.toNat / 4 ^^^ ghr.toNat) % 2 ^ m := by
  rw [gshareIndex, Nat.and_two_pow_sub_one_eq_mod, Nat.shiftRight_eq_div_pow]

/-- Where each table of a list is observed at its own index, so is the table at any place. -/
theorem exists_observedAt_of_getElem? {l : List Table} {index : Table → Nat} {init : Ctr} {taken : Bool} {k i : Nat} {t : Table}
    (ht : l[k]? = some t) (hi : i = index t) :
    ∃ u, (l.map fun t => t.observe init (index t) taken)[k]? = some u ∧ Table.ObservedAt init i taken t u := by
  subst hi
  exact ⟨_, by rw [List.getElem?_map, ht]; rfl, Table.observedAt_observe init (index t) taken t⟩

/-- Settles O54: the mask is the remainder by a power of two. -/
theorem observeUpdatesBimodal : Obligations.ObserveUpdatesBimodal := by
  intro b pc target isBranch taken k m i t ht hsize hi
  have hindex : i = bimodalIndex pc t.size := by rw [hi, hsize, bimodalIndex_two_pow]
  exact exists_observedAt_of_getElem? (index := fun t => bimodalIndex pc t.size) ht hindex

/-- Settles O55: as the bimodal tables, with the index of the old history. -/
theorem observeUpdatesGshare : Obligations.ObserveUpdatesGshare := by
  intro b pc target isBranch taken k m i t ht hsize hi
  have hindex : i = gshareIndex pc b.ghr t.size := by rw [hi, hsize, gshareIndex_two_pow]
  exact exists_observedAt_of_getElem? (index := fun t => gshareIndex pc b.ghr t.size) ht hindex

/-! ### The statistics over a step (R282) -/

/-- A count that grows by 0 or 1. -/
def GrowsByAtMostOne (m n : Nat) : Prop := m ≤ n ∧ n ≤ m + 1

/-- Every statistic of a bank grows by 0 or 1. -/
def Bank.StatisticsGrow (b c : Bank) : Prop :=
  GrowsByAtMostOne b.nCtl c.nCtl ∧ GrowsByAtMostOne b.errNt c.errNt ∧ GrowsByAtMostOne b.errBtfnt c.errBtfnt ∧
  List.Forall₂ (fun t u => GrowsByAtMostOne t.err u.err) b.bimodal c.bimodal ∧
  List.Forall₂ (fun t u => GrowsByAtMostOne t.err u.err) b.gshare c.gshare

theorem GrowsByAtMostOne.refl (n : Nat) : GrowsByAtMostOne n n := ⟨le_rfl, Nat.le_succ n⟩

theorem Bank.StatisticsGrow.refl (b : Bank) : b.StatisticsGrow b :=
  have tables : ∀ l : List Table, List.Forall₂ (fun t u => GrowsByAtMostOne t.err u.err) l l :=
    fun _ => List.forall₂_same.mpr fun _ _ => .refl _
  ⟨.refl _, .refl _, .refl _, tables _, tables _⟩

/-- Each table errs at most once in an observation, whatever its index. -/
theorem forall₂_err_observe (init : Ctr) (index : Table → Nat) (taken : Bool) (l : List Table) :
    List.Forall₂ (fun t u => GrowsByAtMostOne t.err u.err) l (l.map fun t => t.observe init (index t) taken) :=
  List.forall₂_map_right_iff.mpr (List.forall₂_same.mpr fun _ _ => errAfter_bounds _ _ _)

section Observe
variable {b : Bank} (pc target : Word) (isBranch taken : Bool)

theorem Bank.statisticsGrow_observe (b : Bank) : b.StatisticsGrow (b.observe pc target isBranch taken) :=
  ⟨⟨Nat.le_succ _, le_rfl⟩, errAfter_bounds _ _ _, errAfter_bounds _ _ _,
    forall₂_err_observe b.ctrInit (fun t => bimodalIndex pc t.size) taken b.bimodal,
    forall₂_err_observe b.ctrInit (fun t => gshareIndex pc b.ghr t.size) taken b.gshare⟩

/-- An error is counted at most once per counted observation (R282). -/
theorem Bank.ErrorsBounded.observe (h : b.ErrorsBounded) : (b.observe pc target isBranch taken).ErrorsBounded := by
  obtain ⟨hnt, hbtfnt, hbimodal, hgshare⟩ := h
  have bound : ∀ {e : Nat} (p : Bool), e ≤ b.nCtl → errAfter e p taken ≤ b.nCtl + 1 := fun p he =>
    (errAfter_bounds _ p taken).2.trans (Nat.succ_le_succ he)
  refine ⟨bound _ hnt, bound _ hbtfnt, fun t ht => ?_, fun t ht => ?_⟩
  · obtain ⟨u, hu, rfl⟩ := List.mem_map.mp ht
    exact bound _ (hbimodal u hu)
  · obtain ⟨u, hu, rfl⟩ := List.mem_map.mp ht
    exact bound _ (hgshare u hu)

end Observe

/-- Every error count is 0 at the start (R45). -/
theorem Bank.errorsBounded_boot (p : Params) : (Bank.boot p).ErrorsBounded := by
  have tables : ∀ t ∈ (Bank.boot p).bimodal ++ (Bank.boot p).gshare, t.err ≤ (Bank.boot p).nCtl :=
    fun t ht => (Bank.tables_boot p ht).1.le
  exact ⟨le_rfl, le_rfl, fun t ht => tables t (List.mem_append_left _ ht), fun t ht => tables t (List.mem_append_right _ ht)⟩

/-- A step leaves the bank, or makes one observation of it (R231). -/
theorem step_bank {s t : State} (h : step s = .next t) :
    t.bank = s.bank ∨ ∃ target isBranch taken, t.bank = s.bank.observe s.pc target isBranch taken := by
  obtain ⟨w, -, ⟨i, -, hi⟩ | ⟨e, -, rfl⟩⟩ := step_next_fetches h
  · rcases exec_bank hi with ⟨-, hb⟩ | ⟨-, hb⟩
    · exact .inr hb
    · exact .inl hb
  · exact .inl rfl

/-- Settles O57: a step leaves the bank or observes once, and an observation moves each statistic by 0 or 1, `n_ctl` by 1. -/
theorem statisticsAreMonotone : Obligations.StatisticsAreMonotone := by
  refine ⟨fun s t h => ?step, fun p => Bank.errorsBounded_boot p, fun s t hs h => ?bounded⟩
  case step =>
    obtain ⟨grow, observed⟩ : s.bank.StatisticsGrow t.bank ∧
        (t.bank ≠ s.bank → ∃ target isBranch taken, t.bank = s.bank.observe s.pc target isBranch taken) := by
      refine ⟨?_, (step_bank h).resolve_left⟩
      rcases step_bank h with hb | ⟨target, isBranch, taken, hb⟩ <;> rw [hb]
      · exact .refl s.bank
      · exact s.bank.statisticsGrow_observe s.pc target isBranch taken
    obtain ⟨nCtl, errNt, errBtfnt, bimodal, gshare⟩ := grow
    exact ⟨nCtl, errNt, errBtfnt, bimodal, gshare, observed⟩
  case bounded =>
    rcases step_bank h with hb | ⟨target, isBranch, taken, hb⟩ <;> rw [hb]
    · exact hs
    · exact hs.observe s.pc target isBranch taken

end Sys2Proof.Machine

/-! SUPPORT. Family `60_exceptions.md`: when an instruction and a step fault (R341, R342), and what a trace record carries (R366). -/

namespace Sys2Proof.Machine

/-! ### The faults of an instruction (R341) -/

/-- Every load has a destination, a loaded value and an access. -/
theorem exists_destOf_loadedValue_accessOf {i : Instr} (h : i.shape = .load) (s : State) :
    ∃ rd v ea n, destOf i = some rd ∧ loadedValue i s = some v ∧ accessOf i s = some (ea, n) := by
  cases i with
  | lb | lh | lw | lbu | lhu => exact ⟨_, _, _, _, rfl, rfl, rfl⟩
  | _ => cases h

/-- Only loads and stores make a data access. -/
theorem shape_of_accessOf {i : Instr} {s : State} {ea : Word} {n : Nat} (h : accessOf i s = some (ea, n)) :
    i.shape = .load ∨ i.shape = .store := by
  cases i with
  | lb | lh | lw | lbu | lhu => exact .inl rfl
  | sb | sh | sw => exact .inr rfl
  | _ => cases h

/-- A load or store whose access passes the checks goes on. -/
theorem exec_of_checkData_ok {i : Instr} {s : State} {ea : Word} {n : Nat} (ha : accessOf i s = some (ea, n))
    (hc : s.checkData ea n = .ok ()) : ∃ t, exec i s = .next t := by
  rcases shape_of_accessOf ha with hs | hs
  · obtain ⟨rd, v, _, _, hd, hv, -⟩ := exists_destOf_loadedValue_accessOf hs s
    obtain ⟨hal, hm⟩ := (s.checkData_ok_iff ea n _).mp hc
    exact ⟨_, exec_load_ok hd hv ha hal ((s.allMapped_iff ea n).mp hm)⟩
  · obtain ⟨rs2, _, _, hr, -⟩ := exists_storedReg_accessOf hs s
    obtain ⟨u, -, e⟩ := exec_store_ok hr ha hc
    exact ⟨_, e⟩

theorem execEcall_ne_fault (s : State) (f : Fault) : execEcall s ≠ .fault f := by
  rcases execEcall_cases s with ⟨-, e⟩ | ⟨-, e⟩ | ⟨-, e⟩ | ⟨-, -, -, -, e⟩ <;> rw [e]
  · unfold ecallGetChar
    split <;> nofun
  · nofun
  · nofun
  · nofun

/-- An instruction that faults makes a data access. -/
theorem exists_accessOf_of_fault {i : Instr} {s : State} {f : Fault} (h : exec i s = .fault f) :
    ∃ ea n, accessOf i s = some (ea, n) := by
  cases i with
  | lb | lh | lw | lbu | lhu | sb | sh | sw => exact ⟨_, _, rfl⟩
  | ecall => exact absurd h (execEcall_ne_fault s f)
  | _ => cases h

/-- An instruction faults exactly when it makes a data access whose checks answer that fault. -/
theorem exec_eq_fault_iff {i : Instr} {s : State} {f : Fault} : exec i s = .fault f ↔
    ∃ ea n, accessOf i s = some (ea, n) ∧ s.checkData ea n = .error f := by
  refine ⟨fun h => ?_, fun ⟨ea, n, ha, hc⟩ => exec_of_checkData_error ha hc⟩
  obtain ⟨ea, n, ha⟩ := exists_accessOf_of_fault h
  cases hc : s.checkData ea n with
  | ok =>
    obtain ⟨t, e⟩ := exec_of_checkData_ok ha hc
    exact nomatch h.symm.trans e
  | error g => exact ⟨ea, n, ha, hc.trans (congrArg _ (Host.Outcome.fault.inj ((exec_of_checkData_error ha hc).symm.trans h)))⟩

/-! ### The faults of a step (R342) -/

theorem State.checkData_eq_error_iff (s : State) (a : Word) (n : Nat) (f : Fault) : s.checkData a n = .error f ↔
    (a.toNat % n ≠ 0 ∧ f = .dataMisaligned a) ∨ (a.toNat % n = 0 ∧ ¬ BytesMapped s a n ∧ f = .unmapped a) := by
  rw [s.checkData_error_iff, ← Bool.not_eq_true, s.allMapped_iff]

theorem State.fetch_eq_error_iff (s : State) (f : Fault) : s.fetch = .error f ↔
    (s.pc.toNat % 4 ≠ 0 ∧ f = .fetchMisaligned s.pc) ∨ (s.pc.toNat % 4 = 0 ∧ ¬ BytesMapped s s.pc 4 ∧ f = .unmapped s.pc) := by
  rw [← s.allMapped_iff]
  rcases s.fetch_cases with ⟨hal, e⟩ | ⟨hal, hm, e⟩ | ⟨hal, hm, e⟩
  · simpa [e, hal] using eq_comm
  · simpa [e, hal, hm] using eq_comm
  · simp [e, hal, hm]

/-- A step faults exactly when a running core's fetch faults, or the instruction it fetches. -/
theorem step_eq_fault_iff {s : State} {f : Fault} : step s = .fault f ↔ s.runState = .running ∧
    (s.fetch = .error f ∨ ∃ w i, Fetches s w ∧ decode w = .ok i ∧ exec i s = .fault f) := by
  constructor
  · intro h
    unfold step at h
    split at h
    · cases h
    · next hr =>
      refine ⟨hr, ?_⟩
      split at h
      · next hf => exact .inl (hf.trans (congrArg _ (Host.Outcome.fault.inj h)))
      · next w hf =>
        split at h
        · next i hd => exact .inr ⟨w, i, (fetches_iff s w).mpr ⟨hr, hf⟩, hd, h⟩
        · cases h
  · rintro ⟨hr, hf | ⟨w, i, hw, hd, h⟩⟩
    · exact step_of_fetch_error hr hf
    · exact (hw.step_of_decode hd).trans h

/-- Settles O15: the fetch faults by its checks in their order, the instruction by those of its access. -/
theorem faultsExactly : Obligations.FaultsExactly := by
  intro s f
  rw [step_eq_fault_iff, s.fetch_eq_error_iff, or_assoc]
  simp only [exec_eq_fault_iff, s.checkData_eq_error_iff, exists_and_left]

/-! ### A record exactly for a step that goes on (R366) -/

section Record
variable {s t : State} {w : Word} (hw : Fetches s w) (h : step s = .next t)
include hw h

theorem traceOf_of_decode {i : Instr} (hd : decode w = .ok i) : traceOf s = some (traceInstr s w i) := by
  obtain ⟨-, hf⟩ := (fetches_iff s w).mp hw
  simp only [traceOf, h, hf, hd]

theorem traceOf_of_decode_error {e : Reject} (hd : decode w = .error e) : traceOf s = some (traceBase s w) := by
  obtain ⟨-, hf⟩ := (fetches_iff s w).mp hw
  simp only [traceOf, h, hf, hd]

end Record

theorem exists_traceOf_iff (s : State) : (∃ r, traceOf s = some r) ↔ ∃ t, step s = .next t := by
  constructor
  · rintro ⟨r, hr⟩
    unfold traceOf at hr
    split at hr
    · next h _ => exact ⟨_, h⟩
    · cases hr
  · rintro ⟨t, h⟩
    obtain ⟨w, hw, ⟨i, hd, -⟩ | ⟨e, hd, -⟩⟩ := step_next_fetches h
    · exact ⟨_, traceOf_of_decode hw h hd⟩
    · exact ⟨_, traceOf_of_decode_error hw h hd⟩

/-- The count of a record, from either first value (log 14). -/
theorem traceBase_count (s : State) (w : Word) : (traceBase s w).count = s.nInsn ∨ (traceBase s w).count = s.nInsn + 1 := by
  have := Config.traceFirstCount.isLt
  simp only [traceBase]
  omega

/-! ### The parts of a record (R366, R283, R209) -/

section Parts
variable {i : Instr} {s t : State}

theorem isSome_transferOf_iff : (transferOf i s).isSome = true ↔ i.shape = .branch ∨ i.shape = .jump := by
  cases i with
  | beq | bne | blt | bge | bltu | bgeu => exact iff_of_true rfl (.inl rfl)
  | jal | jalr => exact iff_of_true rfl (.inr rfl)
  | _ => exact iff_of_false nofun (by simp [Instr.shape])

/-- The outcome in a record is the one that was handed to `Observe`. -/
theorem transferOf_observed {isBranch taken : Bool} (h : exec i s = .next t) (hr : transferOf i s = some (isBranch, taken)) :
    (isBranch = true ↔ i.shape = .branch) ∧ ∃ target, t.bank = s.bank.observe s.pc target isBranch taken := by
  cases i with
  | beq | bne | blt | bge | bltu | bgeu => cases hr; cases h; exact ⟨iff_of_true rfl rfl, _, rfl⟩
  | jal | jalr => cases hr; cases h; exact ⟨iff_of_false nofun nofun, _, rfl⟩
  | _ => cases hr

/-- An instruction without an outcome in its record was not observed. -/
theorem bank_of_transferOf_none (h : exec i s = .next t) (hr : transferOf i s = none) : t.bank = s.bank := by
  have hs : ¬ (i.shape = .branch ∨ i.shape = .jump) := by rw [← isSome_transferOf_iff (s := s), hr]; nofun
  exact ((exec_bank h).resolve_left fun ⟨yes, _⟩ => hs yes).2

theorem loadOf_of_shape_ne (hs : i.shape ≠ .load) : loadOf i s = none := by
  cases i with
  | lb | lh | lw | lbu | lhu => exact absurd rfl hs
  | _ => rfl

/-- A load whose access passes the checks has its destination and its loaded value in the record. -/
theorem loadOf_of_checkData_ok {rd : Reg} {v ea : Word} {n : Nat} (hd : destOf i = some rd) (hv : loadedValue i s = some v)
    (ha : accessOf i s = some (ea, n)) (hal : ea.toNat % n = 0) (hm : BytesMapped s ea n) : loadOf i s = some (rd, v) := by
  cases i with
  | lb => cases hd; cases hv; cases ha; rw [loadOf, readLb_ok hm]; rfl
  | lh => cases hd; cases hv; cases ha; rw [loadOf, readLh_ok hal hm]; rfl
  | lw => cases hd; cases hv; cases ha; rw [loadOf, readLw_ok hal hm]; rfl
  | lbu => cases hd; cases hv; cases ha; rw [loadOf, readLbu_ok hm]; rfl
  | lhu => cases hd; cases hv; cases ha; rw [loadOf, readLhu_ok hal hm]; rfl
  | _ => cases hv

/-- A data access of an instruction that goes on was aligned and mapped. -/
theorem access_of_exec_next {ea : Word} {n : Nat} (h : exec i s = .next t) (ha : accessOf i s = some (ea, n)) :
    ea.toNat % n = 0 ∧ BytesMapped s ea n := by
  cases hc : s.checkData ea n with
  | error f => exact nomatch (exec_of_checkData_error ha hc).symm.trans h
  | ok =>
    obtain ⟨hal, hm⟩ := (s.checkData_ok_iff ea n _).mp hc
    exact ⟨hal, (s.allMapped_iff ea n).mp hm⟩

/-- A load that goes on has the register it wrote and the value it read in its record. -/
theorem loadOf_of_load (hs : i.shape = .load) (h : exec i s = .next t) :
    ∃ rd v, loadOf i s = some (rd, v) ∧ destOf i = some rd ∧ loadedValue i s = some v ∧ t = (s.setReg rd v).commitSeq := by
  obtain ⟨rd, v, ea, n, hd, hv, ha⟩ := exists_destOf_loadedValue_accessOf hs s
  obtain ⟨hal, hm⟩ := access_of_exec_next h ha
  have he := exec_load_ok hd hv ha hal hm
  exact ⟨rd, v, loadOf_of_checkData_ok hd hv ha hal hm, hd, hv, (finishReg_next s t rd v).mp (he.symm.trans h)⟩

theorem isSome_loadOf_iff (h : exec i s = .next t) : (loadOf i s).isSome = true ↔ i.shape = .load := by
  by_cases hs : i.shape = .load
  · obtain ⟨rd, v, e, -⟩ := loadOf_of_load hs h
    simp [e, hs]
  · simp [loadOf_of_shape_ne hs, hs]

theorem loadOf_reads {rd : Reg} {v : Word} (h : exec i s = .next t) (hr : loadOf i s = some (rd, v)) :
    destOf i = some rd ∧ loadedValue i s = some v ∧ (rd ≠ 0 → t.reg rd = v) := by
  have hs : i.shape = .load := (isSome_loadOf_iff h).mp (by rw [hr]; rfl)
  obtain ⟨rd', v', e, hd, hv, rfl⟩ := loadOf_of_load hs h
  cases hr.symm.trans e
  exact ⟨hd, hv, fun h0 => (State.reg_commit_ne _ _ rd h0).trans (s.reg_setReg_same rd v)⟩

theorem isSome_storeOf_iff : (storeOf i s).isSome = true ↔ i.shape = .store := by
  cases i with
  | sb | sh | sw => exact iff_of_true rfl rfl
  | _ => exact iff_of_false nofun nofun

/-- The address in a record is the access's, the value the stored register's as the trace shows it. -/
theorem storeOf_eq_some {a v : Word} (hr : storeOf i s = some (a, v)) : ∃ n rs2, n ≤ 4 ∧ accessOf i s = some (a, n) ∧
    storedReg i = some rs2 ∧ v = tracedStore (s.reg rs2) (8 * n) := by
  cases i with
  | sb => cases hr; exact ⟨1, _, by decide, rfl, rfl, rfl⟩
  | sh => cases hr; exact ⟨2, _, by decide, rfl, rfl, rfl⟩
  | sw => cases hr; exact ⟨4, _, by decide, rfl, rfl, rfl⟩
  | _ => cases hr

end Parts

/-- Whole or truncated, by the free choice (log 14). -/
theorem tracedStore_cases (v : Word) (n : Nat) : tracedStore v n = v ∨ tracedStore v n = (v.setWidth n).setWidth 32 := by
  unfold tracedStore
  split
  · exact .inr rfl
  · exact .inl rfl

theorem toNat_setWidth_setWidth (v : Word) {n : Nat} (hn : n ≤ 32) : ((v.setWidth n).setWidth 32).toNat = v.toNat % 2 ^ n := by
  have hlt : v.toNat % 2 ^ n < 2 ^ 32 := (Nat.mod_lt _ (by positivity)).trans_le (Nat.pow_le_pow_right (by decide) hn)
  rw [BitVec.toNat_setWidth, BitVec.toNat_setWidth, Nat.mod_eq_of_lt hlt]

/-- Truncation to `n` bytes keeps the bytes below. -/
theorem extractLsb'_setWidth_setWidth (v : Word) {n k : Nat} (hk : k < n) (hn : n ≤ 4) :
    ((v.setWidth (8 * n)).setWidth 32).extractLsb' (8 * k) 8 = v.extractLsb' (8 * k) 8 := by
  apply BitVec.eq_of_getLsbD_eq
  intro j hj
  have inside : 8 * k + j < 8 * n := by omega
  have word : 8 * k + j < 32 := by omega
  simp [hj, inside, word]

/-- Whole or truncated, the traced value has the bytes that are stored, the low ones of the register (R209). -/
theorem extractLsb'_tracedStore (v : Word) {n k : Nat} (hk : k < n) (hn : n ≤ 4) :
    (tracedStore v (8 * n)).extractLsb' (8 * k) 8 = v.extractLsb' (8 * k) 8 := by
  rcases tracedStore_cases v (8 * n) with e | e <;> rw [e]
  exact extractLsb'_setWidth_setWidth v hk hn

theorem storeOf_stores {i : Instr} {s t : State} {a v : Word} (h : exec i s = .next t) (hr : storeOf i s = some (a, v)) :
    ∃ n rs2, accessOf i s = some (a, n) ∧ storedReg i = some rs2 ∧
      (v = s.reg rs2 ∨ v.toNat = (s.reg rs2).toNat % 2 ^ (8 * n)) ∧
      ∀ k : Nat, k < n → t.byteAt (a + BitVec.ofNat 32 k) = v.extractLsb' (8 * k) 8 := by
  obtain ⟨n, rs2, hn, ha, hreg, rfl⟩ := storeOf_eq_some hr
  obtain ⟨-, u, hu, rfl⟩ := exec_store_next hreg ha h
  refine ⟨n, rs2, ha, hreg, (tracedStore_cases _ _).imp_right fun e => ?_, fun k hk => ?_⟩
  · rw [e, toNat_setWidth_setWidth _ (by omega)]
  · rw [extractLsb'_tracedStore _ hk hn]
    exact hu.stored k hk

/-- Settles O58: the record of the fetched word's instruction, part by part, or of an unknown word, with no part. -/
theorem traceRecordsTheStep : Obligations.TraceRecordsTheStep := by
  refine ⟨exists_traceOf_iff, fun s t w r h hw hr => ?_⟩
  cases hd : decode w with
  | ok i =>
    have he : exec i s = .next t := (hw.step_of_decode hd).symm.trans h
    cases hr.symm.trans (traceOf_of_decode hw h hd)
    refine ⟨rfl, rfl, traceBase_count s w, bank_of_transferOf_none he, nofun, fun j hj => ?_⟩
    cases hj
    exact ⟨isSome_transferOf_iff, isSome_storeOf_iff, isSome_loadOf_iff he, fun _ _ => transferOf_observed he,
      fun _ _ => loadOf_reads he, fun _ _ => storeOf_stores he⟩
  | error e =>
    cases hr.symm.trans (traceOf_of_decode_error hw h hd)
    have hbank : t.bank = s.bank := by
      cases (hw.step_of_decode_error hd).symm.trans h
      rfl
    exact ⟨rfl, rfl, traceBase_count s w, fun _ => hbank, fun _ _ => ⟨rfl, rfl, rfl⟩, nofun⟩

end Sys2Proof.Machine

/-! SUPPORT. Family `70_reset_and_hazards.md`: what the host's placing of one word at the `pc` changes, and what runs next (R384). -/

namespace Sys2Proof.Machine

/-! ### The four bytes at an aligned `pc` -/

/-- The region that the placing maps holds exactly the four bytes at an aligned address, which do not wrap. -/
theorem regionHas_four_iff {pc : Word} (hal : pc.toNat % 4 = 0) (a : Word) :
    regionHas a.toNat ⟨pc.toNat, 4⟩ = true ↔ ∃ k, k < 4 ∧ a = pc + BitVec.ofNat 32 k := by
  have hpc := pc.isLt
  have offset : ∀ k, k < 4 → (pc + BitVec.ofNat 32 k).toNat = pc.toNat + k := fun k hk => by
    rw [BitVec.toNat_add, BitVec.toNat_ofNat]
    omega
  simp only [regionHas, Bool.and_eq_true, decide_eq_true_eq]
  constructor
  · rintro ⟨hlo, hhi⟩
    refine ⟨a.toNat - pc.toNat, by omega, BitVec.eq_of_toNat_eq ?_⟩
    rw [offset _ (by omega)]
    omega
  · rintro ⟨k, hk, rfl⟩
    rw [offset k hk]
    omega

/-- An address of a state with one more region is mapped when it was, or when it lies in that region. -/
theorem State.isMapped_append (s : State) (r : Region) (a : Word) :
    State.isMapped { s with mapped := s.mapped ++ [r] } a = (s.isMapped a || regionHas a.toNat r) := by
  simp [State.isMapped]

/-! ### The placing (R384) -/

/-- `t` is `s` with a word placed at the `pc`: memory and mapped set differ, and these only at the four bytes there. -/
structure Places (s t : State) (v : Word) : Prop where
  frame : ∃ mem mapped, t = { s with mem := mem, mapped := mapped }
  word : t.wordAt s.pc = v
  mapped : BytesMapped t s.pc 4
  others : ∀ a : Word, (∀ k : Nat, k < 4 → a ≠ s.pc + BitVec.ofNat 32 k) → t.byteAt a = s.byteAt a ∧ t.isMapped a = s.isMapped a
  mapped_of_mapped : BytesMapped s s.pc 4 → t.mapped = s.mapped

/-- A word of 32 bits is placed whole. -/
theorem State.withFetchWord_toNat (s : State) (v : Word) : s.withFetchWord 32 v.toNat =
    if s.allMapped s.pc 4 then s.setWord s.pc v
    else { s.setWord s.pc v with mapped := (s.setWord s.pc v).mapped ++ [⟨s.pc.toNat, 4⟩] } := by
  rw [State.withFetchWord, Nat.mod_eq_of_lt v.isLt, BitVec.ofNat_toNat, BitVec.setWidth_eq]

section Stored
variable {s u : State} {v : Word} (h : StoresBytes s u s.pc v 4)
include h

/-- Where the four bytes are mapped, storing the word places it. -/
theorem StoresBytes.places_of_mapped (hm : BytesMapped s s.pc 4) : Places s u v := by
  have hword := h.wordAt
  have hothers := h.others
  obtain ⟨m, rfl⟩ := h.frame
  exact ⟨⟨_, _, rfl⟩, hword, hm, fun a ha => ⟨hothers a ha, rfl⟩, fun _ => rfl⟩

/-- Where they are not, storing the word and mapping the region of the four bytes places it. -/
theorem StoresBytes.places_of_not_mapped (hal : s.pc.toNat % 4 = 0) (hm : ¬ BytesMapped s s.pc 4) :
    Places s { u with mapped := u.mapped ++ [⟨s.pc.toNat, 4⟩] } v := by
  have hword := h.wordAt
  have hothers := h.others
  obtain ⟨m, rfl⟩ := h.frame
  refine ⟨⟨_, _, rfl⟩, hword, fun k hk => ?_, fun a ha => ⟨hothers a ha, ?_⟩, fun hm' => absurd hm' hm⟩
  · rw [State.isMapped_append, (regionHas_four_iff hal _).mpr ⟨k, hk, rfl⟩, Bool.or_true]
  · have outside : regionHas a.toNat ⟨s.pc.toNat, 4⟩ = false := by
      rw [← Bool.not_eq_true, regionHas_four_iff hal]
      exact fun ⟨k, hk, e⟩ => ha k hk e
    rw [State.isMapped_append, outside, Bool.or_false]
    rfl

end Stored

theorem State.places_withFetchWord {s : State} (hal : s.pc.toNat % 4 = 0) (v : Word) : Places s (s.withFetchWord 32 v.toNat) v := by
  have hstored := s.storesBytes_setWord s.pc v
  rw [s.withFetchWord_toNat]
  split
  · next hm => exact hstored.places_of_mapped ((s.allMapped_iff _ _).mp hm)
  · next hm => exact hstored.places_of_not_mapped hal (mt (s.allMapped_iff _ _).mpr hm)

/-- The next step of a running core fetches the placed word. -/
theorem Places.fetches {s t : State} {v : Word} (h : Places s t v) (hr : s.runState = .running) (hal : s.pc.toNat % 4 = 0) :
    Fetches t v := by
  have hword := h.word
  have hm := h.mapped
  obtain ⟨mem, mapped, rfl⟩ := h.frame
  exact ⟨hr, hal, hm, hword.symm⟩

/-- Settles O12: the placed word is the one that the next step fetches, and it decodes to the instruction. -/
theorem placedInstructionRuns : Obligations.PlacedInstructionRuns := by
  rintro s t i hwf hr hal rfl
  have hplaced := State.places_withFetchWord hal (encode i)
  have hstep := (hplaced.fetches hr hal).step_of_decode (decodeOfEncodeIsInstruction i hwf)
  have hothers := hplaced.others
  have hmapped := hplaced.mapped_of_mapped
  obtain ⟨mem, mapped, e⟩ := hplaced.frame
  rw [e] at hstep hothers hmapped ⊢
  exact ⟨hstep, rfl, rfl, rfl, rfl, rfl, rfl, rfl, rfl, rfl, rfl, rfl, hothers, hmapped⟩

end Sys2Proof.Machine
